-- ==== Sys2Proof/Word.lean ====
section
/-! DEFINITION. The two word types of SRT-CODEC: a byte (R6) and a 32-bit host register (R21). -/

namespace Sys2Proof

/-- A byte is 8 bits (R6). -/
abbrev Byte := BitVec 8

/-- Host registers are 32 bits wide (R21). -/
abbrev Word := BitVec 32

end Sys2Proof
end

