-- ==== Sys2Proof/Machine/Memory.lean ====
section
/-! DEFINITION. A byte memory as plain data: the list of the bytes that hold a value, by rising address. An
address that is not listed holds NO value (R45; log 6). IN and OUT are both held so. -/

namespace Sys2Proof.Machine

/-- The bytes that hold a value, each with its address. -/
abbrev Memory := List Host.Cell

/-- Canonical form: addresses strictly rising. An unlisted address holds no value, so no listed byte can equal
what an unlisted address holds. -/
abbrev Memory.wf (m : Memory) : Prop := (m.map (·.1)).Pairwise (· < ·)

/-- The byte at an address, if it holds a value. -/
def Memory.read : Memory → Nat → Option Byte
  | [], _ => none
  | (b, v) :: rest, a => if a = b then some v else Memory.read rest a

/-- Store one byte, keeping the canonical form. -/
def Memory.write : Memory → Nat → Byte → Memory
  | [], a, v => [(a, v)]
  | (b, u) :: rest, a, v =>
    if a < b then (a, v) :: (b, u) :: rest
    else if a = b then (a, v) :: rest
    else (b, u) :: Memory.write rest a v

/-- The memory with only the bytes below an address keeping their value. -/
def Memory.below (m : Memory) (n : Nat) : Memory := m.filter (fun c => c.1 < n)

/-- Store consecutive bytes from an address on. -/
def Memory.writeAll (m : Memory) (a : Nat) : List Byte → Memory
  | [] => m
  | v :: vs => Memory.writeAll (m.write a v) (a + 1) vs

/-- Every listed address is below the memory's size. -/
abbrev Memory.fitsIn (m : Memory) (size : Nat) : Prop := ∀ c ∈ m, c.1 < size

/-- Exactly the bytes 0 to `n − 1` hold a value. -/
abbrev Memory.holdsExactly (m : Memory) (n : Nat) : Prop := m.map (·.1) = List.range n

end Sys2Proof.Machine
end

