-- ==== Sys2Proof/Config.lean ====
section
/-! DEFINITION. The parameters of the block (R5, R42): the sizes of its two memories, the compressor's
match-finding strategy, the places of the palette entry's colour fields; and the free values, constants with
no body, for what the spec leaves without a value. -/

namespace Sys2Proof

/-- Bit positions (of bit 0 of each field) of the three 5-bit colour fields of a `PAL16` entry.
The spec asks for them as a configuration field (93_implementation_defined.md K1; log 12). -/
structure PalLayout where
  rLo : Nat
  gLo : Nat
  bLo : Nat
  deriving DecidableEq, Repr

/-- The three fields take the positions 0, 5 and 10, each once, so that they fill bits 14:0 of the entry. -/
abbrev PalLayout.wf (l : PalLayout) : Prop :=
  l ∈ [⟨0, 5, 10⟩, ⟨0, 10, 5⟩, ⟨5, 0, 10⟩, ⟨5, 10, 0⟩, ⟨10, 0, 5⟩, (⟨10, 5, 0⟩ : PalLayout)]

/-- Which `matcher` the compressor has (R165): the reference of R166, the one that always answers "literal"
(named in R165), or any other, which is a free function of the input bytes and the position (log 11). -/
inductive MatcherChoice where
  | reference
  | literalsOnly
  | other (k : Nat)
  deriving DecidableEq, Repr

/-- The parameters of R5 that are not fixed by the document. No step changes them (R42; log 10). -/
structure Config where
  inSize  : Nat
  outSize : Nat
  matcher : MatcherChoice
  pal     : PalLayout
  deriving DecidableEq, Repr

/-- R5: `1 ≤ IN_SIZE ≤ 2^32` and `1 ≤ OUT_SIZE ≤ 2^32 − 1`. -/
abbrev Config.wf (c : Config) : Prop :=
  1 ≤ c.inSize ∧ c.inSize ≤ 2 ^ 32 ∧ 1 ≤ c.outSize ∧ c.outSize ≤ 2 ^ 32 - 1 ∧ c.pal.wf

/-- FREE VALUE (log 4): the value a command finds in a byte of IN that the host has not written
(93_implementation_defined.md U1). First argument: the number of the draw; second: the address in IN. -/
opaque Config.freeIn : Nat → Nat → Byte

/-- FREE VALUE (log 5): what a read of a byte of OUT that holds no value gives (93_implementation_defined.md U2).
First argument: the number of the draw; second: the address in OUT. -/
opaque Config.freeOut : Nat → Nat → Byte

/-- FREE VALUE (log 11): what a match-finding strategy other than the two named ones answers, for its number,
the input bytes and the position. An answer that R163 does not allow is taken as "literal" (`conform`). -/
opaque Config.freeMatch : Nat → List Byte → Nat → Nat × Nat

end Sys2Proof
end

