-- ==== Sys2Proof/Syntax.lean ====
section
/-! DEFINITION. The instructions of SRT-CODEC: one constructor for each row of the opcode table (R112), that is
five stream elements, four data formats and six commands; and the contexts in which they are read. -/

namespace Sys2Proof

/-- One constructor per row of the opcode table. The fields are the rows' own bit fields, so every value of
every field is one the encoding admits. -/
inductive Instr where
  /-- `HDR.RAW`: header of a Raw block, `TYPE` = 0x00 (R91, R92, R182). -/
  | hdrRaw (ulen : BitVec 24)
  /-- `HDR.LZ`: header of an LZ77 block, `METHOD` = 1, low nibble `SUB` (R91, R92, R131). -/
  | hdrLz (sub : BitVec 4) (ulen : BitVec 24)
  /-- `FLAG`: eight selectors, bit 7 first (R93, R134). -/
  | flag (f : Byte)
  /-- `LIT`: one byte to output (R94, R136). -/
  | lit (b : Byte)
  /-- `REF`: length nibble and displacement (R95, R96, R137). -/
  | ref (ln : BitVec 4) (disp : BitVec 12)
  /-- `PAL16`: the three colour fields and the ignored bit 15 (R99, R192). -/
  | pal16 (r5 g5 b5 : BitVec 5) (x : BitVec 1)
  /-- `PIX4`: `P0` is the first pixel, `P1` the second (R101, R202). -/
  | pix4 (p0 p1 : BitVec 4)
  /-- `PIX8`: one palette index (R102, R203). -/
  | pix8 (p : Byte)
  /-- `IDX`: one unpacked palette index (R103, R207 to R209). -/
  | idx (i : Byte)
  /-- `LZ_DECOMP`, `OPC` = 1 (R130). -/
  | lzDecomp
  /-- `LZ_COMP`, `OPC` = 2 (R160). -/
  | lzComp
  /-- `RD_COMP`, `OPC` = 3 (R180). -/
  | rdComp
  /-- `PAL_DEC`, `OPC` = 4 (R190). -/
  | palDec
  /-- `TILE_DEC`, `OPC` = 5 (R200). -/
  | tileDec
  /-- `TILE_ENC`, `OPC` = 6 (R205). -/
  | tileEnc
  deriving DecidableEq, Repr

/-- Where an instruction is read from. The rows share no opcode bits beyond `HDR` and `OP` (R112): what a byte
means is decided by the running command and by the flag bit, never by the byte alone (R97, R105). -/
inductive Ctx where
  /-- The field `OPC` of register `OP`, zero-extended to a byte (R105). -/
  | command
  /-- A header read by `LZ_DECOMP`, which tests `METHOD` only (R92, R131). -/
  | headerDirect
  /-- A header read by `RD_COMP`, which tests the whole `TYPE` byte (R92, R181). -/
  | headerWrapped
  /-- A flag byte (R93). -/
  | flag
  /-- A token whose flag bit is 0 (R93, R94). -/
  | tokenLit
  /-- A token whose flag bit is 1 (R93, R95). -/
  | tokenRef
  /-- An entry read by `PAL_DEC` (R99). -/
  | pal16
  /-- A byte read by `TILE_DEC` with `BPP` = 4 (R101). -/
  | pix4
  /-- A byte read by `TILE_DEC` with `BPP` = 8 (R102). -/
  | pix8
  /-- A byte read by `TILE_ENC` (R103). -/
  | idx
  deriving DecidableEq, Repr

/-- Length in bytes of what is read in a context (R90). -/
def Ctx.size : Ctx → Nat
  | .command => 1
  | .headerDirect => 4
  | .headerWrapped => 4
  | .flag => 1
  | .tokenLit => 1
  | .tokenRef => 2
  | .pal16 => 2
  | .pix4 => 1
  | .pix8 => 1
  | .idx => 1

end Sys2Proof
end

