-- ==== Sys2Proof/WellFormed.lean ====
section
/-! DEFINITION. Which instructions may stand in which context. The fields of an instruction have exactly their
encoded widths, so no field can hold an illegal value; what can be wrong is the place. -/

namespace Sys2Proof

/-- The instruction may stand in the context (R90, R92, R97, R105). The two checks beyond the kind of element:
a Raw header is legal for `RD_COMP` only, and `RD_COMP` takes an LZ77 header only with `SUB` = 0 (R92, R181). -/
def Instr.fits (c : Ctx) (i : Instr) : Bool :=
  match c, i with
  | .command, .lzDecomp => true
  | .command, .lzComp => true
  | .command, .rdComp => true
  | .command, .palDec => true
  | .command, .tileDec => true
  | .command, .tileEnc => true
  | .headerDirect, .hdrLz _ _ => true
  | .headerWrapped, .hdrRaw _ => true
  | .headerWrapped, .hdrLz sub _ => sub == 0
  | .flag, .flag _ => true
  | .tokenLit, .lit _ => true
  | .tokenRef, .ref _ _ => true
  | .pal16, .pal16 _ _ _ _ => true
  | .pix4, .pix4 _ _ => true
  | .pix8, .pix8 _ => true
  | .idx, .idx _ => true
  | _, _ => false

end Sys2Proof
end

