-- ==== Sys2Proof/Decode.lean ====
section
/-! DEFINITION. The decoder: from a context and bytes to an instruction, or a rejection by name; and the encoder,
written from the same tables of 30_encoding.md. Also the helpers on bit fields and byte order, and the reading of
a row of the opcode table as one number. -/

namespace Sys2Proof

/-- The usual places of the colour fields of BGR555: red lowest (R99; PRESUMED, 93_implementation_defined.md K1;
log 12). -/
def bgr555 : PalLayout := ⟨0, 5, 10⟩

/-- Why bytes are no instruction of their context. -/
inductive Reject where
  /-- Fewer bytes than the element has (R97). -/
  | truncated
  /-- `OPC` 0 or 7, or no 3-bit value at all (R105). -/
  | reservedOpcode
  /-- `METHOD` other than 1 under `LZ_DECOMP`, with header byte 0 (R107). -/
  | unsupportedMethod (h0 : Byte)
  /-- `TYPE` neither 0x00 nor 0x10 under `RD_COMP`, with header byte 0 (R107). -/
  | unknownType (h0 : Byte)
  deriving DecidableEq, Repr

/-- What the decoder answers: the instruction and the bytes after it, or the reason. -/
abbrev Decoded := Except Reject (Instr × List Byte)

/-- The four bytes of a 32-bit value, least significant first (R61). -/
def leBytes4 (v : BitVec 32) : List Byte :=
  [v.extractLsb' 0 8, v.extractLsb' 8 8, v.extractLsb' 16 8, v.extractLsb' 24 8]

/-- The two bytes of a 16-bit value, least significant first (R61). -/
def leBytes2 (v : BitVec 16) : List Byte := [v.extractLsb' 0 8, v.extractLsb' 8 8]

/-- The two bytes of a 16-bit value, most significant first (R62). -/
def beBytes2 (v : BitVec 16) : List Byte := [v.extractLsb' 8 8, v.extractLsb' 0 8]

/-- `ULEN = h1 + 256·h2 + 65536·h3` (R91). -/
def ulenOf (h1 h2 h3 : Byte) : BitVec 24 := h3 ++ h2 ++ h1

/-- `METHOD = h0[7:4]` (R91). -/
def methodOf (h0 : Byte) : BitVec 4 := h0.extractLsb' 4 4

/-- `SUB = h0[3:0]` (R91). -/
def subOf (h0 : Byte) : BitVec 4 := h0.extractLsb' 0 4

/-- The command numbers (R105). 0 and 7 are reserved. -/
def decodeCommand (b : Byte) : Option Instr :=
  if b = 1 then some .lzDecomp
  else if b = 2 then some .lzComp
  else if b = 3 then some .rdComp
  else if b = 4 then some .palDec
  else if b = 5 then some .tileDec
  else if b = 6 then some .tileEnc
  else none

/-- A header under `LZ_DECOMP`: only `METHOD` is tested (R92, R131). -/
def decodeHeaderDirect (h0 h1 h2 h3 : Byte) : Except Reject Instr :=
  if methodOf h0 = 1 then .ok (.hdrLz (subOf h0) (ulenOf h1 h2 h3))
  else .error (.unsupportedMethod h0)

/-- A header under `RD_COMP`: the whole `TYPE` byte is tested (R92, R181). -/
def decodeHeaderWrapped (h0 h1 h2 h3 : Byte) : Except Reject Instr :=
  if h0 = 0x00 then .ok (.hdrRaw (ulenOf h1 h2 h3))
  else if h0 = 0x10 then .ok (.hdrLz 0 (ulenOf h1 h2 h3))
  else .error (.unknownType h0)

/-- `REF`: the word is `256·r0 + r1`, `LN` its bits 15:12, `DISP` its bits 11:0 (R95). -/
def decodeRef (r0 r1 : Byte) : Instr :=
  let w : BitVec 16 := r0 ++ r1
  .ref (w.extractLsb' 12 4) (w.extractLsb' 0 12)

/-- `PAL16`: the entry is `p0 + 256·p1`; the colour fields lie where the layout says, `X` is bit 15 (R99). -/
def decodePal16 (l : PalLayout) (p0 p1 : Byte) : Instr :=
  let v : BitVec 16 := p1 ++ p0
  .pal16 (v.extractLsb' l.rLo 5) (v.extractLsb' l.gLo 5) (v.extractLsb' l.bLo 5) (v.extractLsb' 15 1)

/-- `PIX4`: the first pixel is the low nibble (R101). -/
def decodePix4 (y : Byte) : Instr := .pix4 (y.extractLsb' 0 4) (y.extractLsb' 4 4)

/-- The decoder. Total on any bytes; what is no instruction of the context is rejected by name. -/
def decode (l : PalLayout) (c : Ctx) (bytes : List Byte) : Decoded :=
  match c, bytes with
  | .command, b :: rest =>
    match decodeCommand b with
    | some i => .ok (i, rest)
    | none => .error .reservedOpcode
  | .headerDirect, h0 :: h1 :: h2 :: h3 :: rest => (decodeHeaderDirect h0 h1 h2 h3).map (·, rest)
  | .headerWrapped, h0 :: h1 :: h2 :: h3 :: rest => (decodeHeaderWrapped h0 h1 h2 h3).map (·, rest)
  | .flag, f :: rest => .ok (.flag f, rest)
  | .tokenLit, b :: rest => .ok (.lit b, rest)
  | .tokenRef, r0 :: r1 :: rest => .ok (decodeRef r0 r1, rest)
  | .pal16, p0 :: p1 :: rest => .ok (decodePal16 l p0 p1, rest)
  | .pix4, y :: rest => .ok (decodePix4 y, rest)
  | .pix8, y :: rest => .ok (.pix8 y, rest)
  | .idx, y :: rest => .ok (.idx y, rest)
  | _, _ => .error .truncated

/-- The 16-bit value of a palette entry (R99). -/
def pal16Value (l : PalLayout) (r5 g5 b5 : BitVec 5) (x : BitVec 1) : BitVec 16 :=
  (x.setWidth 16 <<< 15) ||| (r5.setWidth 16 <<< l.rLo) ||| (g5.setWidth 16 <<< l.gLo) ||| (b5.setWidth 16 <<< l.bLo)

/-- The encoder: the bytes of an instruction, lowest address first. A command's byte is its `OPC` value. -/
def encode (l : PalLayout) : Instr → List Byte
  | .hdrRaw ulen => leBytes4 (ulen ++ (0x00 : Byte))
  | .hdrLz sub ulen => leBytes4 (ulen ++ ((1 : BitVec 4) ++ sub))
  | .flag f => [f]
  | .lit b => [b]
  | .ref ln disp => beBytes2 (ln ++ disp)
  | .pal16 r5 g5 b5 x => leBytes2 (pal16Value l r5 g5 b5 x)
  | .pix4 p0 p1 => [p1 ++ p0]
  | .pix8 p => [p]
  | .idx i => [i]
  | .lzDecomp => [1]
  | .lzComp => [2]
  | .rdComp => [3]
  | .palDec => [4]
  | .tileDec => [5]
  | .tileEnc => [6]

/-- The command number of a command (R105); 0 for what is no command. -/
def Instr.opc : Instr → BitVec 3
  | .lzDecomp => 1
  | .lzComp => 2
  | .rdComp => 3
  | .palDec => 4
  | .tileDec => 5
  | .tileEnc => 6
  | .hdrRaw _ => 0
  | .hdrLz _ _ => 0
  | .flag _ => 0
  | .lit _ => 0
  | .ref _ _ => 0
  | .pal16 _ _ _ _ => 0
  | .pix4 _ _ => 0
  | .pix8 _ => 0
  | .idx _ => 0

/-- The context in which a number of a given bit length is read when nothing but the number is known: a row of
the opcode table without the state that gives it its meaning (log 14). 32 bits: a header, as `RD_COMP` reads
it when its low byte is 0x00, else as `LZ_DECOMP` reads it. 16 bits: `REF`. 8 bits: a command where the value is
a command number, else `FLAG`. -/
def tableCtx (nbits w : Nat) : Ctx :=
  if nbits ≤ 8 then (if 1 ≤ w ∧ w ≤ 6 then .command else .flag)
  else if nbits ≤ 16 then .tokenRef
  else if w % 256 = 0 then .headerWrapped
  else .headerDirect

/-- The bytes of that number as the block stores them: the header least significant byte first (R61), the `REF`
word most significant byte first (R62). -/
def tableBytes (nbits w : Nat) : List Byte :=
  if nbits ≤ 8 then [BitVec.ofNat 8 w]
  else if nbits ≤ 16 then beBytes2 (BitVec.ofNat 16 w)
  else leBytes4 (BitVec.ofNat 32 w)

/-- The instruction the decoder reads from the table's word `w` of `nbits` bits (log 14). -/
def decodeTableWord (nbits w : Nat) : Option Instr :=
  match decode bgr555 (tableCtx nbits w) (tableBytes nbits w) with
  | .ok (i, _) => some i
  | .error _ => none

end Sys2Proof
end

