-- ==== Sys2Proof/Machine/Params.lean ====
section
/-! DEFINITION. The parameters the block has in `State.reset`: the largest sizes R5 allows, the reference matcher,
the usual places of the colour fields (log 10, log 11, log 12). Statements hold for every choice of them. -/

namespace Sys2Proof.Machine

/-- DESIGN CHOICE (log 10): R5 leaves `IN_SIZE` and `OUT_SIZE` as parameters; here each is as large as R5 lets
it be. -/
def defaultConfig : Config :=
  { inSize := 2 ^ 32, outSize := 2 ^ 32 - 1, matcher := .reference, pal := bgr555 }

end Sys2Proof.Machine
end

