-- ==== Sys2Proof/Machine/State.lean ====
section
/-! DEFINITION. The state of SRT-CODEC as plain data (R20), the reasons a step can stop, and the state after reset
(R43). -/

namespace Sys2Proof.Machine

/-- The error codes of R241. Codes 10 to 15 are never produced, so there is no such constructor (U9). -/
inductive ErrCode where
  | none
  | unsupportedMethod
  | unknownCompressionType
  | encodingError
  | inputUnderrun
  | badBackref
  | outputOverflow
  | lengthOverflow
  | badCommand
  | badLength
  deriving DecidableEq, Repr

/-- Where a running command is in its pseudocode; the model's own (log 1). -/
inductive Phase where
  /-- `LZ_DECOMP` or `RD_COMP` before its header (R131, R181). -/
  | header
  /-- The LZ77 token stream (R133). -/
  | stream
  /-- `LZ_COMP` between two token groups (R164, outer loop). -/
  | groupOpen
  /-- `LZ_COMP` inside a token group (R164, inner loop). -/
  | groupTokens
  /-- `PAL_DEC` in its loop over entries (R195). -/
  | palette
  /-- `TILE_DEC` in its loop over bytes (R204). -/
  | unpack
  /-- `TILE_ENC` in its loop over pairs or pixels (R210). -/
  | pack
  deriving DecidableEq, Repr

/-- `STATUS.STATE` (R27), with the place in the command while `BUSY`. -/
inductive Run where
  | idle
  | busy (p : Phase)
  | done
  | error
  deriving DecidableEq, Repr

/-- The four command registers as latched by `START` (R220). -/
structure Latch where
  opc  : BitVec 3
  bpp  : BitVec 4
  mask : BitVec 1
  off  : Word
  len  : Word
  deriving DecidableEq, Repr

/-- What the host does next (R229, R270). The last two entries only say when it acts (log 2). -/
inductive HostMove where
  /-- Write a value to a register by number (R21). -/
  | writeReg (n : Nat) (v : Word)
  /-- Read a register by number (R21). -/
  | readReg (n : Nat)
  /-- Write a byte of IN (R40). -/
  | writeIn (a : Nat) (v : Byte)
  /-- Read a byte of OUT (R41). -/
  | readOut (a : Nat)
  /-- Reset the block (R270). -/
  | reset
  /-- Let the block take one step. -/
  | letRun
  /-- Read `STATUS` again and again until it is not `BUSY` (R227). -/
  | poll
  deriving DecidableEq, Repr

/-- The whole state. Names in capitals in the docstrings are the spec's. -/
structure State where
  /-- The parameters of the block (R5, R42; log 10). -/
  cfg : Config
  /-- `OP.OPC` (R23). -/
  opc : BitVec 3
  /-- `MODE.BPP` (R24). -/
  bpp : BitVec 4
  /-- `MODE.MASK` (R24). -/
  mask : BitVec 1
  /-- `SRC_OFF` (R25). -/
  srcOff : Word
  /-- `SRC_LEN` (R26). -/
  srcLen : Word
  /-- `STATUS.STATE` (R27). -/
  run : Run
  /-- `ERR.CODE` (R28). -/
  err : ErrCode
  /-- `ERR_INFO` (R29). -/
  errInfo : Word
  /-- `OUT_LEN` (R30). -/
  outLen : Word
  /-- `IN_USED` (R31). -/
  inUsed : Word
  /-- The latched command registers (R220). -/
  latch : Latch
  /-- `IP` (R34, R35). -/
  ip : Word
  /-- `ULEN` (R34). -/
  ulen : BitVec 24
  /-- `OLEN` (R34). -/
  olen : Word
  /-- `FLG` (R34, R36). -/
  flg : Byte
  /-- `FCNT` (R34, R36). -/
  fcnt : BitVec 4
  /-- `CREM` (R34, R37). -/
  crem : BitVec 5
  /-- `CSRC` (R34, R37). -/
  csrc : Word
  /-- `CI` (R38). -/
  ci : Word
  /-- `EO` (R38). -/
  eo : Word
  /-- `FPOS` (R38). -/
  fpos : Word
  /-- `FK` (R38). -/
  fk : BitVec 4
  /-- `FACC` (R38). -/
  facc : Byte
  /-- `EI` (R39). -/
  ei : Word
  /-- `BI` (R39). -/
  bi : Word
  /-- The first pixel of the pair being packed, the local `a` of R207; the model's own field (log 9). -/
  pix : Option Byte
  /-- The input memory IN (R40). -/
  inMem : Memory
  /-- The output memory OUT (R41). -/
  outMem : Memory
  /-- How many draws of free values there have been; the model's own field (log 4, log 5). -/
  draw : Nat
  /-- The host's moves still to come, oldest first; the model's own field (log 2). -/
  host : List HostMove
  /-- What the host's latest read returned; the model's own field (log 2). -/
  hostData : Word
  deriving DecidableEq, Repr

/-- Why the model stops with a fault. The block's own errors are no faults: they are states (R253). -/
inductive Fault where
  /-- A store of the block at or beyond `OUT_SIZE`. Raised by `memWrite`; no run reaches it (R69). Safe. -/
  | storeOutsideOut (a : Nat)
  /-- The host writes IN at or beyond `IN_SIZE`, an address that does not exist (R40). Raised by `hostMove`. Safe. -/
  | hostOutsideIn (a : Nat)
  /-- The host reads OUT at or beyond `OUT_SIZE`, an address that does not exist (R41). Raised by `hostMove`. Safe. -/
  | hostOutsideOut (a : Nat)
  deriving DecidableEq, Repr

/-- What the model gives no meaning. -/
inductive Refusal where
  /-- An instruction with no meaning yet; raised by no arm of `exec`. Safe. -/
  | notModelled (mnemonic : String)
  /-- The host writes IN while the block is `BUSY` (R273, U3). Raised by `hostMove`. Safe. -/
  | inWriteWhileBusy
  /-- The host reads OUT while the block is `BUSY` (R273, U4). Raised by `hostMove`. Safe. -/
  | outReadWhileBusy
  /-- The host reads a register other than `STATUS` while the block is `BUSY` (R273, U5). Raised by `hostMove`. Safe. -/
  | regReadWhileBusy
  deriving DecidableEq, Repr

/-- The outcome type of this machine. -/
abbrev Result := Host.Outcome State Fault Refusal

/-- A latch that holds nothing yet (log 13). -/
def Latch.zero : Latch := { opc := 0, bpp := 0, mask := 0, off := 0, len := 0 }

/-- The state after reset for given parameters: the host registers as R43 has them; IN and OUT without a value;
the working registers, which R43 leaves unspecified, at 0 (DESIGN CHOICE, log 7), the model's own fields empty
or 0 (DESIGN CHOICE, log 13). -/
def State.resetWith (c : Config) : State :=
  { cfg := c
    opc := 0, bpp := 0, mask := 0, srcOff := 0, srcLen := 0
    run := .idle, err := .none, errInfo := 0, outLen := 0, inUsed := 0
    latch := Latch.zero
    ip := 0, ulen := 0, olen := 0, flg := 0, fcnt := 0, crem := 0, csrc := 0
    ci := 0, eo := 0, fpos := 0, fk := 0, facc := 0
    ei := 0, bi := 0, pix := none
    inMem := [], outMem := []
    draw := 0, host := [], hostData := 0 }

/-- The state after reset (R43, R270), with the parameters of `defaultConfig`. -/
def State.reset : State := State.resetWith defaultConfig

end Sys2Proof.Machine
end

