-- ==== Sys2Proof/Machine/Ops.lean ====
section
/-! DEFINITION. The named operations over registers and memories that the meanings share: reading the input window
(R68), storing to OUT (R69), the compressor's `Emit` (R164), raising an error (R253), completing a command (R223),
beginning one (R220, R221), and the host's register accesses (R21 to R33). -/

namespace Sys2Proof.Machine

/-- Why a piece of a command ends early: an error of the block (R240), or a stop of the model. -/
inductive Stop where
  | err (e : ErrCode) (info : Nat)
  | fault (f : Fault)
  deriving DecidableEq, Repr

/-- A piece of a command: what it gives, or why it ended early. -/
abbrev Attempt (α : Type) := Except Stop α

/-- The block is executing a command: `STATUS.STATE` = `BUSY` (R27). -/
def State.busy (s : State) : Bool :=
  match s.run with
  | .busy _ => true
  | .idle => false
  | .done => false
  | .error => false

/-! ### Ending a command -/

/-- `info` saturated to 32 bits (R253, 90_conflicts.md C9). -/
def saturate (info : Nat) : Word := BitVec.ofNat 32 (min info (2 ^ 32 - 1))

/-- Taking an error, `raise E(info)`, in one atomic step (R253): `ERR`, `ERR_INFO`, `OUT_LEN`, `IN_USED` and
`STATE` are written and every byte of OUT loses its value. There is no saved cursor, handler or vector. -/
def raiseError (e : ErrCode) (info : Nat) (s : State) : State :=
  { s with err := e, errInfo := saturate info, outLen := 0, inUsed := 0, run := .error, outMem := [] }

/-- Completing a command, `done(outlen, used)`, in one atomic step (R223). Bytes of OUT at and above `OUT_LEN`
hold no value (R45). There is no return from an error beside it: the next `START` clears it (R255, R226). -/
def finishDone (outlen used : Nat) (s : State) : State :=
  { s with
    outLen := BitVec.ofNat 32 outlen, inUsed := BitVec.ofNat 32 used, err := .none, errInfo := 0, run := .done
    outMem := s.outMem.below outlen }

/-- The outcome of a step that ran a piece of a command from `base`: an error of the block is a next state. -/
def conclude (base : State) : Attempt State → Result
  | .ok t => .next t
  | .error (.err e info) => .next (raiseError e info base)
  | .error (.fault f) => .fault f

/-! ### The two memories -/

/-- The byte of IN at an address; a byte the host has not written is a free value, the same throughout one
command (R45, U1; log 4). -/
def inByte (s : State) (a : Nat) : Byte := (s.inMem.read a).getD (Config.freeIn s.draw a)

/-- The byte of OUT at an address; one without a value is a free value (R45, U2; log 5). -/
def outByte (s : State) (a : Nat) : Byte := (s.outMem.read a).getD (Config.freeOut s.draw a)

/-- The byte at relative position `k` of the input window, or `InputUnderrun(k)` (R68). -/
def inRead (k : Nat) (s : State) : Attempt Byte :=
  if s.latch.len.toNat ≤ k then .error (.err .inputUnderrun k) else .ok (inByte s (s.latch.off.toNat + k))

/-- `n` bytes of the input window from relative position `k`, one at a time, lowest first (R65, R70). -/
def fetchBytes : Nat → Nat → State → Attempt (List Byte)
  | 0, _, _ => .ok []
  | n + 1, k, s =>
    match inRead k s with
    | .error e => .error e
    | .ok b =>
      match fetchBytes n (k + 1) s with
      | .error e => .error e
      | .ok bs => .ok (b :: bs)

/-- The whole input window as a list of bytes (R68). -/
def window (s : State) : List Byte :=
  (List.range s.latch.len.toNat).map (fun k => inByte s (s.latch.off.toNat + k))

/-- Store one byte of OUT (R69). A store at or beyond `OUT_SIZE` does not happen in any run (log 16). -/
def memWrite (a : Nat) (v : Byte) (s : State) : Attempt State :=
  if a < s.cfg.outSize then .ok { s with outMem := s.outMem.write a v } else .error (.fault (.storeOutsideOut a))

/-- Store consecutive bytes of OUT, one at a time, at increasing addresses (R65, R69). -/
def memWriteAll (a : Nat) : List Byte → State → Attempt State
  | [], s => .ok s
  | v :: vs, s =>
    match memWrite a v s with
    | .error e => .error e
    | .ok t => memWriteAll (a + 1) vs t

/-- The compressor's `Emit(v)` (R164). -/
def emit (v : Byte) (s : State) : Attempt State :=
  if s.cfg.outSize ≤ s.eo.toNat then .error (.err .outputOverflow s.eo.toNat)
  else
    match memWrite s.eo.toNat v s with
    | .error e => .error e
    | .ok t => .ok { t with eo := t.eo + 1 }

/-- `Emit` for each byte of a list, in order (R164). -/
def emitAll : List Byte → State → Attempt State
  | [], s => .ok s
  | v :: vs, s =>
    match emit v s with
    | .error e => .error e
    | .ok t => emitAll vs t

/-! ### Beginning a command -/

/-- The first part of `START` (R220): results cleared, `STATE` to `BUSY`, command registers latched. A result in
OUT is destroyed (R275) and the values of unwritten IN bytes are drawn for this command (U1; log 4). -/
def beginCommand (opc : BitVec 3) (p : Phase) (s : State) : State :=
  { s with
    err := .none, errInfo := 0, outLen := 0, inUsed := 0, run := .busy p
    latch := { opc := opc, bpp := s.bpp, mask := s.mask, off := s.srcOff, len := s.srcLen }
    outMem := [], draw := s.draw + 1 }

/-- The depth is one the tile commands accept (R106, R212). -/
def legalBpp (bpp : BitVec 4) : Bool := bpp == 4 || bpp == 8

/-- Validation after the command number (R221): the depth for a tile command, then the window, with an unbounded
sum. -/
def validate (tile : Bool) (s : State) : Attempt Unit :=
  if tile && !legalBpp s.latch.bpp then .error (.err .badCommand 1)
  else if s.cfg.inSize < s.latch.off.toNat + s.latch.len.toNat then .error (.err .badCommand 2)
  else .ok ()

/-- `START` of a command with a legal number (R220 to R222): ignored while `BUSY` (R225); otherwise begin,
validate, then what the command does before its first step. -/
def launch (opc : BitVec 3) (p : Phase) (tile : Bool) (prologue : State → Attempt State) (s : State) : Result :=
  if s.busy then .next s
  else
    match validate tile (beginCommand opc p s) with
    | .error e => conclude (beginCommand opc p s) (.error e)
    | .ok _ => conclude (beginCommand opc p s) (prologue (beginCommand opc p s))

/-- `START` with a reserved command number (R221): `BadCommand(0)`; ignored while `BUSY` (R225). -/
def launchReserved (s : State) : State :=
  if s.busy then s else raiseError .badCommand 0 (beginCommand s.opc .header s)

/-! ### The host's view of the registers -/

/-- `ERR.CODE` as a number (R241). -/
def ErrCode.code : ErrCode → BitVec 4
  | .none => 0
  | .unsupportedMethod => 1
  | .unknownCompressionType => 2
  | .encodingError => 3
  | .inputUnderrun => 4
  | .badBackref => 5
  | .outputOverflow => 6
  | .lengthOverflow => 7
  | .badCommand => 8
  | .badLength => 9

/-- `STATUS.STATE` as a number (R27). -/
def Run.code : Run → BitVec 2
  | .idle => 0
  | .busy _ => 1
  | .done => 2
  | .error => 3

/-- The value of a register by number (R21): reserved bits and `CTRL` read 0, and so does any number from 10 on
(R22, R32). -/
def readReg (n : Nat) (s : State) : Word :=
  match n with
  | 1 => s.opc.setWidth 32
  | 2 => (s.mask.setWidth 32 <<< 8) ||| s.bpp.setWidth 32
  | 3 => s.srcOff
  | 4 => s.srcLen
  | 5 => s.run.code.setWidth 32
  | 6 => s.err.code.setWidth 32
  | 7 => s.errInfo
  | 8 => s.outLen
  | 9 => s.inUsed
  | _ => 0

/-- A host write to a register other than `CTRL` (R21, R23 to R26, R32): the fields of a RW register take the
written bits; RO registers and numbers from 10 on ignore the write; so does every register while `BUSY` (R33). -/
def writeReg (n : Nat) (v : Word) (s : State) : State :=
  if s.busy then s
  else
    match n with
    | 1 => { s with opc := v.extractLsb' 0 3 }
    | 2 => { s with bpp := v.extractLsb' 0 4, mask := v.extractLsb' 8 1 }
    | 3 => { s with srcOff := v }
    | 4 => { s with srcLen := v }
    | _ => s

/-- Bit 0 of a value written to `CTRL` (R22). -/
def startBit (v : Word) : Bool := v.getLsbD 0

/-- Reset as an event from outside (R270): the registers as R43 has them, IN and OUT without values; the parameters,
the host's own queue and the count of draws are not the block's and stay (log 22). -/
def resetBlock (s : State) : State :=
  { State.resetWith s.cfg with draw := s.draw, host := s.host, hostData := s.hostData }

end Sys2Proof.Machine
end

