-- ==== Sys2Proof/Machine/Command.lean ====
section
/-! DEFINITION. The two decompressing commands: `LZ_DECOMP` (R130) and `RD_COMP` (R180). Each begins and validates
(R220, R221); its header, and for LZ77 its stream, follow step by step. `RD_COMP` differs in the header's context
only (R181, R186), which the latched command number decides. -/

namespace Sys2Proof.Machine

/-- A command that does nothing before its header (R130, R180). -/
def headerPrologue (s : State) : Attempt State := .ok s

/-- `LZ_DECOMP` (R130, R220). -/
def execLzDecomp (s : State) : Result := launch Instr.lzDecomp.opc .header false headerPrologue s

/-- `RD_COMP` (R180, R220). -/
def execRdComp (s : State) : Result := launch Instr.rdComp.opc .header false headerPrologue s

end Sys2Proof.Machine
end

