-- ==== Sys2Proof/Machine/Flags.lean ====
section
/-! DEFINITION. The only condition bits of the block, the flag shift register `FLG` with its count `FCNT` (R36), and
the flag byte the compressor accumulates (R164). -/

namespace Sys2Proof.Machine

/-- A flag-byte fetch sets all eight bits at once (R134). -/
def loadFlags (f : Byte) (s : State) : State := { s with flg := f, fcnt := 8 }

/-- The next flag bit: bit 7 of `FLG` (R135). True selects a `REF`. -/
def flagBit (s : State) : Bool := s.flg.getLsbD 7

/-- The token select's effect on the flags (R135): shift left by one, a 0 enters bit 0, one bit fewer to use. -/
def selectToken (s : State) : State := { s with flg := s.flg <<< 1, fcnt := s.fcnt - 1 }

/-- The bit of the accumulated flag byte for a `REF` in place `k` of its group (R164). -/
def markRef (facc : Byte) (k : Nat) : Byte := facc ||| ((0x80 : Byte) >>> k)

end Sys2Proof.Machine
end

