-- ==== Sys2Proof/Machine/Compress.lean ====
section
/-! DEFINITION. The compressor: the `matcher` parameter and its reference (R163, R165, R166), and the emission procedure
of `LZ_COMP` (R160, R164), one group opening, token or group closing a step. What it emits are stream elements, so
their bytes come from the encoder. -/

namespace Sys2Proof.Machine

/-- How many bytes from the front two lists have in common, at most `limit`. -/
def commonLen : Nat → List Byte → List Byte → Nat
  | 0, _, _ => 0
  | _, [], _ => 0
  | _, _, [] => 0
  | limit + 1, x :: xs, y :: ys => if x = y then 1 + commonLen limit xs ys else 0

/-- Length of the match at position `i` with displacement `disp`, at most `limit`: it compares input bytes and may
run past `i` (R163). -/
def matchLen (bytes : List Byte) (i disp limit : Nat) : Nat :=
  commonLen limit (bytes.drop i) (bytes.drop (i - disp - 1))

/-- Longest copy a token at `i` may have: `min(18, n − i)` (R163). -/
def maxLen (bytes : List Byte) (i : Nat) : Nat := min 18 (bytes.length - i)

/-- R163: a copy the compressor may emit at position `i`. -/
def legalMatch (bytes : List Byte) (i len disp : Nat) : Bool :=
  decide (3 ≤ len) && decide (len ≤ maxLen bytes i) && decide (disp < min i 4096)
    && decide (matchLen bytes i disp len = len)

/-- The better of the best match so far and the match at the next displacement: strictly longer wins (R166). -/
def betterMatch (bytes : List Byte) (i : Nat) (best : Nat × Nat) (disp : Nat) : Nat × Nat :=
  if best.1 < matchLen bytes i disp (maxLen bytes i) then (matchLen bytes i disp (maxLen bytes i), disp) else best

/-- The reference matcher: greedy, longest, nearest on ties, no lookahead (R166). -/
def matcherRef (bytes : List Byte) (i : Nat) : Nat × Nat :=
  let best := (List.range (min i 4096)).foldl (betterMatch bytes i) (0, 0)
  if 3 ≤ best.1 then best else (0, 0)

/-- What a strategy answers before it is held to R163. -/
def rawMatch : MatcherChoice → List Byte → Nat → Nat × Nat
  | .reference, bytes, i => matcherRef bytes i
  | .literalsOnly, _, _ => (0, 0)
  | .other k, bytes, i => Config.freeMatch k bytes i

/-- The `matcher` (R165): a copy R163 allows at `i`, or `(0, 0)` for a literal (log 11). -/
def matcher (m : MatcherChoice) (bytes : List Byte) (i : Nat) : Nat × Nat :=
  if legalMatch bytes i (rawMatch m bytes i).1 (rawMatch m bytes i).2 then rawMatch m bytes i else (0, 0)

/-- The stream element for a copy of `len` bytes with displacement `disp` (R109, R164). -/
def refOf (len disp : Nat) : Instr := .ref (BitVec.ofNat 4 (len - 3)) (BitVec.ofNat 12 disp)

/-- What `LZ_COMP` does before its first group (R164): the length check, then the header, `METHOD` = 1 and
`SUB` = 0 (R161). -/
def compressPrologue (s : State) : Attempt State :=
  if 2 ^ 24 ≤ s.latch.len.toNat then .error (.err .lengthOverflow s.latch.len.toNat)
  else
    match emitAll (encode s.cfg.pal (.hdrLz 0 (BitVec.ofNat 24 s.latch.len.toNat))) { s with eo := 0 } with
    | .error e => .error e
    | .ok t => .ok { t with ci := 0 }

/-- `LZ_COMP` (R160, R220): its `START` and the header it emits; the groups follow. -/
def execLzComp (s : State) : Result := launch Instr.lzComp.opc .groupOpen false compressPrologue s

/-- Opening a group: the place of its flag byte is kept and a 0 is emitted there (R164, outer loop). -/
def openGroup (s : State) : Attempt State :=
  match emit 0x00 { s with fpos := s.eo } with
  | .error e => .error e
  | .ok t => .ok { t with facc := 0, fk := 0, run := .busy .groupTokens }

/-- A copy token in place `FK` of the group (R164). -/
def emitRefToken (len disp : Nat) (s : State) : Attempt State :=
  match emitAll (encode s.cfg.pal (refOf len disp)) { s with facc := markRef s.facc s.fk.toNat } with
  | .error e => .error e
  | .ok t => .ok { t with ci := s.ci + BitVec.ofNat 32 len, fk := s.fk + 1 }

/-- A literal token (R164). -/
def emitLitToken (s : State) : Attempt State :=
  match inRead s.ci.toNat s with
  | .error e => .error e
  | .ok b =>
    match emitAll (encode s.cfg.pal (.lit b)) s with
    | .error e => .error e
    | .ok t => .ok { t with ci := s.ci + 1, fk := s.fk + 1 }

/-- The next token: a copy when the matcher gives one, else a literal (R164, inner loop). -/
def emitToken (s : State) : Attempt State :=
  let m := matcher s.cfg.matcher (window s) s.ci.toNat
  if 3 ≤ m.1 then emitRefToken m.1 m.2 s else emitLitToken s

/-- Closing a group: the flag byte is patched (R164). -/
def closeGroup (s : State) : Attempt State :=
  match memWrite s.fpos.toNat s.facc s with
  | .error e => .error e
  | .ok t => .ok { t with run := .busy .groupOpen }

/-- One step of the emission procedure between two groups (R164): open one while input remains, else `done`. -/
def groupOpenStep (s : State) : Result :=
  if s.ci.toNat < s.latch.len.toNat then conclude s (openGroup s)
  else .next (finishDone s.eo.toNat s.latch.len.toNat s)

/-- One step of the emission procedure inside a group (R164): a token while the group has place and input remains,
else the flag byte. -/
def groupTokensStep (s : State) : Result :=
  if s.fk.toNat < 8 ∧ s.ci.toNat < s.latch.len.toNat then conclude s (emitToken s)
  else conclude s (closeGroup s)

end Sys2Proof.Machine
end

