-- ==== Sys2Proof/Machine/Header.lean ====
section
/-! DEFINITION. The meanings of the two headers: `HDR.RAW` (R182) and `HDR.LZ` (R131, R132). That the window holds
the four bytes of a header, and that its type suits the command, is settled before either runs (R131, R181). -/

namespace Sys2Proof.Machine

/-- The copy loop of the Raw path: `left` bytes still to copy, the next one to OUT address `k` (R182). -/
def rawCopy : Nat → Nat → State → Attempt State
  | 0, _, s => .ok s
  | left + 1, k, s =>
    match inRead (4 + k) s with
    | .error e => .error e
    | .ok b =>
      match memWrite k b s with
      | .error e => .error e
      | .ok t => rawCopy left (k + 1) t

/-- `HDR.RAW`: the whole Raw path (R182): both checks before the first store, then the copy, then `done`. -/
def execHdrRaw (ulen : BitVec 24) (s : State) : Result :=
  if s.latch.len.toNat < 4 + ulen.toNat then .next (raiseError .inputUnderrun s.latch.len.toNat s)
  else if s.cfg.outSize < ulen.toNat then .next (raiseError .outputOverflow ulen.toNat s)
  else
    match rawCopy ulen.toNat 0 s with
    | .error e => conclude s (.error e)
    | .ok t => .next (finishDone ulen.toNat (4 + ulen.toNat) t)

/-- The working registers of the decompressor after the header (R132). -/
def initStream (ulen : BitVec 24) (s : State) : State :=
  { s with ulen := ulen, ip := 4, olen := 0, fcnt := 0, flg := 0, crem := 0, run := .busy .stream }

/-- `HDR.LZ` (R131, R132): the size check, then the token stream begins. `SUB` is not examined (R92). -/
def execHdrLz (_sub : BitVec 4) (ulen : BitVec 24) (s : State) : Result :=
  if s.cfg.outSize < ulen.toNat then .next (raiseError .outputOverflow ulen.toNat s)
  else .next (initStream ulen s)

end Sys2Proof.Machine
end

