-- ==== Sys2Proof/Machine/Operands.lean ====
section
/-! DEFINITION. What the meanings compute from an instruction's fields: the length and source of a back-reference
(R96), the scaled colour channel (R193), the packed pixel pair (R207), and the counts of entries and tiles
(R191, R201, R210). -/

namespace Sys2Proof.Machine

/-- Copy length `3 + LN` (R96). -/
def copyLen (ln : BitVec 4) : Nat := 3 + ln.toNat

/-- Source pointer `OLEN − DISP − 1`, the one signed quantity, in unbounded integers (R6, R96). -/
def sourcePtr (olen : Nat) (disp : BitVec 12) : Int := (olen : Int) - (disp.toNat : Int) - 1

/-- `scale(c) = floor(c · 255 / 31)` (R193). -/
def scale (c : BitVec 5) : Byte := BitVec.ofNat 8 (c.toNat * 255 / 31)

/-- Number of entries of a palette window: `floor(SRC_LEN / 2)` (R191). -/
def entryCount (len : Nat) : Nat := len / 2

/-- Packed tile size `tb` (44_tiles.md): 32 at 4 bits per pixel, else 64. -/
def tileBytes (bpp : BitVec 4) : Nat := if bpp = 4 then 32 else 64

/-- Number of whole packed tiles in a window (R201). -/
def tileCount (bpp : BitVec 4) (len : Nat) : Nat := len / tileBytes bpp

/-- Low four bits of an index (R207, R208). -/
def lowNibble (i : Byte) : BitVec 4 := i.extractLsb' 0 4

/-- Two indices packed in one byte, the first pixel in the low nibble (R207). -/
def packPair (a b : Byte) : Byte := lowNibble b ++ lowNibble a

/-- An index that does not fit four bits (R207). -/
def tooWide (i : Byte) : Bool := decide (16 ≤ i.toNat)

end Sys2Proof.Machine
end

