-- ==== Sys2Proof/Machine/Palette.lean ====
section
/-! DEFINITION. The palette converter: the meaning of `PAL16` (R192, R193, R195) and of the command `PAL_DEC` (R190). -/

namespace Sys2Proof.Machine

/-- `PAL16`: entry `EI` becomes three bytes, red first (R195). Bit 15 has no effect (R196). -/
def execPal16 (r5 g5 b5 : BitVec 5) (_x : BitVec 1) (s : State) : Result :=
  match memWriteAll (3 * s.ei.toNat) [scale r5, scale g5, scale b5] s with
  | .error e => conclude s (.error e)
  | .ok t => .next { t with ei := s.ei + 1 }

/-- What `PAL_DEC` does before its first entry (R195). -/
def palPrologue (s : State) : Attempt State :=
  if s.cfg.outSize < 3 * entryCount s.latch.len.toNat then
    .error (.err .outputOverflow (3 * entryCount s.latch.len.toNat))
  else .ok { s with ei := 0 }

/-- `PAL_DEC` (R190, R220): its `START`; the entries follow, one a step. -/
def execPalDec (s : State) : Result := launch Instr.palDec.opc .palette false palPrologue s

/-- The end of `PAL_DEC` (R195). -/
def palDone (s : State) : State :=
  finishDone (3 * entryCount s.latch.len.toNat) (2 * entryCount s.latch.len.toNat) s

end Sys2Proof.Machine
end

