-- ==== Sys2Proof/Machine/Stream.lean ====
section
/-! DEFINITION. The meanings of the LZ77 stream's elements: `FLAG` (R134), `LIT` (R136), `REF` (R137 to R139). Their
bytes have been fetched at `IP`, and for a token its flag bit has been used (R135), before they run. -/

namespace Sys2Proof.Machine

/-- `FLAG` (R134). -/
def execFlag (f : Byte) (s : State) : Result := .next (loadFlags f { s with ip := s.ip + 1 })

/-- `LIT` (R136). -/
def execLit (b : Byte) (s : State) : Result :=
  match memWrite s.olen.toNat b s with
  | .error e => conclude s (.error e)
  | .ok t => .next { t with ip := s.ip + 1, olen := s.olen + 1 }

/-- One byte of a copy in progress: read `OUT[CSRC]`, then write `OUT[OLEN]` (R71, R137). -/
def copyStep (s : State) : Attempt State :=
  match memWrite s.olen.toNat (outByte s s.csrc.toNat) s with
  | .error e => .error e
  | .ok t => .ok { t with csrc := s.csrc + 1, olen := s.olen + 1, crem := s.crem - 1 }

/-- The copy loop of R137, at most `fuel` bytes: it goes on while bytes remain to copy and the output is
incomplete (R139). -/
def copyLoop : Nat → State → Attempt State
  | 0, s => .ok s
  | fuel + 1, s =>
    if 0 < s.crem.toNat ∧ s.olen.toNat < s.ulen.toNat then
      match copyStep s with
      | .error e => .error e
      | .ok t => copyLoop fuel t
    else .ok s

/-- The copy of a `REF` from its first byte to its last: `CSRC` and `CREM` are set, the loop runs, `CREM` ends at 0
(R137). -/
def copyBytes (src len : Nat) (s : State) : Attempt State :=
  match copyLoop len { s with csrc := BitVec.ofNat 32 src, crem := BitVec.ofNat 5 len } with
  | .error e => .error e
  | .ok t => .ok { t with crem := 0 }

/-- `REF` (R137): a source before the start of the output is `BadBackref(IP)`, with `IP` still at the token's first
byte; otherwise `IP` moves past the token and the copy runs byte by byte. -/
def execRef (ln : BitVec 4) (disp : BitVec 12) (s : State) : Result :=
  if sourcePtr s.olen.toNat disp < 0 then .next (raiseError .badBackref s.ip.toNat s)
  else conclude s (copyBytes (sourcePtr s.olen.toNat disp).toNat (copyLen ln) { s with ip := s.ip + 2 })

end Sys2Proof.Machine
end

