-- ==== Sys2Proof/Machine/Tile.lean ====
section
/-! DEFINITION. The tile raster unit: the meanings of `PIX4` (R202), `PIX8` (R203), `IDX` (R207 to R209) and of the
commands `TILE_DEC` (R200) and `TILE_ENC` (R205). -/

namespace Sys2Proof.Machine

/-- `PIX4`: byte `BI` becomes two indices, the low nibble first (R202). -/
def execPix4 (p0 p1 : BitVec 4) (s : State) : Result :=
  match memWriteAll (2 * s.bi.toNat) [p0.setWidth 8, p1.setWidth 8] s with
  | .error e => conclude s (.error e)
  | .ok t => .next { t with bi := s.bi + 1 }

/-- `PIX8`: byte `BI` is one index (R203). -/
def execPix8 (p : Byte) (s : State) : Result :=
  match memWrite s.bi.toNat p s with
  | .error e => conclude s (.error e)
  | .ok t => .next { t with bi := s.bi + 1 }

/-- Relative position in the window of the pixel `TILE_ENC` reads next: at 4 bits per pixel `BI` counts pairs, and
`pix` says whether the first of the pair has been read (R207); at 8 it counts pixels (R209). -/
def idxPos (s : State) : Nat :=
  if s.latch.bpp = 4 then 2 * s.bi.toNat + (if s.pix.isSome then 1 else 0) else s.bi.toNat

/-- `IDX`: one pixel of `TILE_ENC`. At 8 bits per pixel it is stored (R209). At 4, an index of 16 or more is
`EncodingError` at its position when `MASK` = 0 (R207); the first pixel of a pair is kept, the second makes the
packed byte of pair `BI` (R207, R208). -/
def execIdx (i : Byte) (s : State) : Result :=
  if s.latch.bpp = 4 then
    if s.latch.mask = 0 ∧ tooWide i then .next (raiseError .encodingError (idxPos s) s)
    else
      match s.pix with
      | none => .next { s with pix := some i }
      | some a =>
        match memWrite s.bi.toNat (packPair a i) s with
        | .error e => conclude s (.error e)
        | .ok t => .next { t with bi := s.bi + 1, pix := none }
  else
    match memWrite s.bi.toNat i s with
    | .error e => conclude s (.error e)
    | .ok t => .next { t with bi := s.bi + 1 }

/-- What `TILE_DEC` does before its first byte (R204). -/
def unpackPrologue (s : State) : Attempt State :=
  if s.cfg.outSize < 64 * tileCount s.latch.bpp s.latch.len.toNat then
    .error (.err .outputOverflow (64 * tileCount s.latch.bpp s.latch.len.toNat))
  else .ok { s with bi := 0 }

/-- `TILE_DEC` (R200, R220): its `START`; the packed bytes follow, one a step. -/
def execTileDec (s : State) : Result := launch Instr.tileDec.opc .unpack true unpackPrologue s

/-- How many packed bytes `TILE_DEC` reads, `tb · T` (R201). -/
def unpackBytes (s : State) : Nat := tileBytes s.latch.bpp * tileCount s.latch.bpp s.latch.len.toNat

/-- The end of `TILE_DEC` (R204). -/
def unpackDone (s : State) : State :=
  finishDone (64 * tileCount s.latch.bpp s.latch.len.toNat) (unpackBytes s) s

/-- Result size of `TILE_ENC`, `tb · T` with `T = SRC_LEN / 64`; also how many pairs (at 4 bits per pixel) or
pixels (at 8) it packs (R210). -/
def packBytes (s : State) : Nat := tileBytes s.latch.bpp * (s.latch.len.toNat / 64)

/-- What `TILE_ENC` does before its first pixel: the length check (R206), then the size check (R210). -/
def packPrologue (s : State) : Attempt State :=
  if s.latch.len.toNat % 64 ≠ 0 then .error (.err .badLength s.latch.len.toNat)
  else if s.cfg.outSize < packBytes s then .error (.err .outputOverflow (packBytes s))
  else .ok { s with bi := 0, pix := none }

/-- `TILE_ENC` (R205, R220): its `START`; the pixels follow, one a step. -/
def execTileEnc (s : State) : Result := launch Instr.tileEnc.opc .pack true packPrologue s

/-- The end of `TILE_ENC` (R210). -/
def packDone (s : State) : State := finishDone (packBytes s) s.latch.len.toNat s

end Sys2Proof.Machine
end

