-- ==== Sys2Proof/Machine/Dispatch.lean ====
section
/-! DEFINITION. The meaning of every instruction, one arm per constructor (R112). -/

namespace Sys2Proof.Machine

def exec (i : Instr) (s : State) : Host.Outcome State Fault Refusal :=
  match i with
  | .hdrRaw ulen => Sys2Proof.Machine.execHdrRaw ulen s
  | .hdrLz sub ulen => Sys2Proof.Machine.execHdrLz sub ulen s
  | .flag f => Sys2Proof.Machine.execFlag f s
  | .lit b => Sys2Proof.Machine.execLit b s
  | .ref ln disp => Sys2Proof.Machine.execRef ln disp s
  | .pal16 r5 g5 b5 x => Sys2Proof.Machine.execPal16 r5 g5 b5 x s
  | .pix4 p0 p1 => Sys2Proof.Machine.execPix4 p0 p1 s
  | .pix8 p => Sys2Proof.Machine.execPix8 p s
  | .idx k => Sys2Proof.Machine.execIdx k s
  | .lzDecomp => Sys2Proof.Machine.execLzDecomp s
  | .lzComp => Sys2Proof.Machine.execLzComp s
  | .rdComp => Sys2Proof.Machine.execRdComp s
  | .palDec => Sys2Proof.Machine.execPalDec s
  | .tileDec => Sys2Proof.Machine.execTileDec s
  | .tileEnc => Sys2Proof.Machine.execTileEnc s

end Sys2Proof.Machine
end

