-- ==== Sys2Proof/Machine/Sequence.lean ====
section
/-! DEFINITION. Sequencing: which element the block reads next and from where (R133, R195, R204, R210), fetching it from
the input window and decoding it, what the block does between elements, and the host's moves (R229). -/

namespace Sys2Proof.Machine

/-! ### The block -/

/-- The context of a header: `LZ_DECOMP` tests `METHOD` only, `RD_COMP` the whole byte (R131, R181). -/
def headerCtx (opc : BitVec 3) : Ctx := if opc = Instr.lzDecomp.opc then .headerDirect else .headerWrapped

/-- A flag bit of 0 selects a `LIT`, of 1 a `REF` (R135). -/
def tokenCtx (bit : Bool) : Ctx := if bit then .tokenRef else .tokenLit

/-- The context of a packed pixel byte (R200). -/
def pixelCtx (bpp : BitVec 4) : Ctx := if bpp = 4 then .pix4 else .pix8

/-- The element the block reads next: its context, its relative position in the window, and the state it runs in,
which for a token is the one after the token select (R135; log 19). None when the block reads no element in
its next step. -/
def nextElement (s : State) : Option (Ctx × Nat × State) :=
  match s.run with
  | .busy .header => some (headerCtx s.latch.opc, 0, s)
  | .busy .stream =>
    if s.olen.toNat = s.ulen.toNat then none
    else if s.fcnt = 0 then some (.flag, s.ip.toNat, s)
    else some (tokenCtx (flagBit s), s.ip.toNat, selectToken s)
  | .busy .palette =>
    if s.ei.toNat < entryCount s.latch.len.toNat then some (.pal16, 2 * s.ei.toNat, s) else none
  | .busy .unpack =>
    if s.bi.toNat < unpackBytes s then some (pixelCtx s.latch.bpp, s.bi.toNat, s) else none
  | .busy .pack => if s.bi.toNat < packBytes s then some (.idx, idxPos s, s) else none
  | .busy .groupOpen => none
  | .busy .groupTokens => none
  | .idle => none
  | .done => none
  | .error => none

/-- What the block raises for bytes that are no instruction of their context (R107). -/
def raiseReject : Reject → State → State
  | .truncated, s => raiseError .inputUnderrun s.latch.len.toNat s
  | .reservedOpcode, s => raiseError .badCommand 0 s
  | .unsupportedMethod h0, s => raiseError .unsupportedMethod h0.toNat s
  | .unknownType h0, s => raiseError .unknownCompressionType h0.toNat s

/-- Fetch an element of the context from relative position `k` of the window (R68), decode it, run it. -/
def runElement (c : Ctx) (k : Nat) (s : State) : Result :=
  match fetchBytes c.size k s with
  | .error e => conclude s (.error e)
  | .ok bytes =>
    match decode s.cfg.pal c bytes with
    | .error r => .next (raiseReject r s)
    | .ok (i, _) => exec i s

/-- What the block does when it reads no element: it completes the command (R140, R195, R204, R210), or takes the
compressor's next step (R164); when no command is running it waits (R43, R261; log 17). -/
def controlStep (s : State) : Result :=
  match s.run with
  | .busy .header => .next s
  | .busy .stream => .next (finishDone s.ulen.toNat s.ip.toNat s)
  | .busy .palette => .next (palDone s)
  | .busy .unpack => .next (unpackDone s)
  | .busy .pack => .next (packDone s)
  | .busy .groupOpen => groupOpenStep s
  | .busy .groupTokens => groupTokensStep s
  | .idle => .next s
  | .done => .next s
  | .error => .next s

/-- One step of the block. -/
def blockStep (s : State) : Result :=
  match nextElement s with
  | some (c, k, t) => runElement c k t
  | none => controlStep s

/-! ### The host -/

/-- The byte the command number is decoded from: `OPC` zero-extended (R105). -/
def commandByte (s : State) : Byte := s.opc.setWidth 8

/-- The `START` write (R220 to R222): the command that `OP` selects begins; a reserved number is an error. -/
def startCommand (s : State) : Result :=
  match decode s.cfg.pal .command [commandByte s] with
  | .ok (i, _) => exec i s
  | .error _ => .next (launchReserved s)

/-- A host write to any register (R21, R22, R33); one made after a command has ended, and before the host has read the end
in `STATUS`, has its usual effect (DESIGN CHOICE, log 23). -/
def hostWriteReg (n : Nat) (v : Word) (s : State) : Result :=
  if n = 0 then (if startBit v then startCommand s else .next s) else .next (writeReg n v s)

/-- A host read of any register. While `BUSY` only `STATUS` may be read (R33, R273; log 3). Once it is not `BUSY` every
register may be read (R229), also before the host has read the end in `STATUS` (DESIGN CHOICE, log 23). -/
def hostReadReg (n : Nat) (s : State) : Result :=
  if s.busy = true ∧ n ≠ 5 then .refused .regReadWhileBusy else .next { s with hostData := readReg n s }

/-- A host write of a byte of IN (R40). Not while `BUSY` (R273; log 3); not outside IN (log 16). Once the block is not `BUSY`
it has its effect (R229), also before the host has read the end in `STATUS` (DESIGN CHOICE, log 23). -/
def hostWriteIn (a : Nat) (v : Byte) (s : State) : Result :=
  if s.busy then .refused .inWriteWhileBusy
  else if s.cfg.inSize ≤ a then .fault (.hostOutsideIn a)
  else .next { s with inMem := s.inMem.write a v }

/-- A host read of a byte of OUT (R41). Not while `BUSY` (R273; log 3); not outside OUT (log 16). A byte without a
value gives a fresh free value (R45, U2; log 5). Once the block is not `BUSY` a result byte reads as it stands (R229), also
before the host has read the end in `STATUS`, which R72 and R273 forbid (DESIGN CHOICE, log 23). -/
def hostReadOut (a : Nat) (s : State) : Result :=
  if s.busy then .refused .outReadWhileBusy
  else if s.cfg.outSize ≤ a then .fault (.hostOutsideOut a)
  else
    match s.outMem.read a with
    | some v => .next { s with hostData := v.setWidth 32 }
    | none => .next { s with draw := s.draw + 1, hostData := (Config.freeOut (s.draw + 1) a).setWidth 32 }

/-- One move of the host (R229, R270), already taken from the queue of `s`. -/
def hostMove (m : HostMove) (s : State) : Result :=
  match m with
  | .writeReg n v => hostWriteReg n v s
  | .readReg n => hostReadReg n s
  | .writeIn a v => hostWriteIn a v s
  | .readOut a => hostReadOut a s
  | .reset => .next (resetBlock s)
  | .letRun => blockStep s
  | .poll => .next { s with hostData := readReg 5 s }

/-- The next move is the host waiting for the block: a poll of `STATUS` that reads `BUSY` (R227). -/
def stillPolling (m : HostMove) (s : State) : Bool := m == .poll && s.busy

/-- The next step of block and host together: the host's next move when it has one, else the block's (R11; log 2). A
poll that reads `BUSY` stays in the queue and the block takes a step. -/
def nextStep (s : State) : Result :=
  match s.host with
  | [] => blockStep s
  | m :: rest => if stillPolling m s then blockStep s else hostMove m { s with host := rest }

/-! ### Placing one instruction where the next step finds it -/

/-- The block about to run a command: `OP` holds its number and the host's next move is the `START` write. -/
def placeCommand (b : Byte) (s : State) : State :=
  { s with run := .idle, opc := b.extractLsb' 0 3, host := [.writeReg 0 1] }

/-- The block in the middle of a command with its window at the start of IN and one element at position `k` of it,
where it reads next. -/
def placeElement (opc : BitVec 3) (p : Phase) (k : Nat) (bytes : List Byte) (s : State) : State :=
  { s with
    run := .busy p, host := [], err := .none, errInfo := 0, outLen := 0, inUsed := 0
    opc := opc, srcOff := 0, srcLen := BitVec.ofNat 32 (k + bytes.length)
    latch := { opc := opc, bpp := s.bpp, mask := s.mask, off := 0, len := BitVec.ofNat 32 (k + bytes.length) }
    ip := BitVec.ofNat 32 k, ulen := 18, olen := 0, flg := 0, fcnt := 0, crem := 0
    inMem := s.inMem.writeAll k bytes, outMem := [] }

/-- The block with the table's word `w` of `nbits` bits as what it runs next (log 14, log 15). -/
def placeWord (s : State) (nbits w : Nat) : State :=
  match tableCtx nbits w with
  | .command => placeCommand (BitVec.ofNat 8 w) s
  | .headerDirect => placeElement 1 .header 0 (tableBytes nbits w) s
  | .headerWrapped => placeElement 3 .header 0 (tableBytes nbits w) s
  | .flag => placeElement 1 .stream 4 (tableBytes nbits w) s
  | .tokenRef => { placeElement 1 .stream 4 (tableBytes nbits w) s with flg := 0x80, fcnt := 8 }
  | .tokenLit => { placeElement 1 .stream 4 (tableBytes nbits w) s with fcnt := 8 }
  | .pal16 => { placeElement 4 .palette 0 (tableBytes nbits w) s with ei := 0 }
  | .pix4 => { placeElement 5 .unpack 0 (tableBytes nbits w) s with bi := 0 }
  | .pix8 => { placeElement 5 .unpack 0 (tableBytes nbits w) s with bi := 0 }
  | .idx => { placeElement 6 .pack 0 (tableBytes nbits w) s with bi := 0 }

end Sys2Proof.Machine
end

