-- ==== Sys2Proof/Machine/Step.lean ====
section
/-! DEFINITION. One step of the machine, and the state in which the next step runs a given word (log 15). -/

namespace Sys2Proof.Machine

/-- One step: a move of the host when it has one, else a step of the block (R10, R11). -/
def step (s : State) : Host.Outcome State Fault Refusal := nextStep s

/-- The state in which the very next step runs the instruction that `decodeTableWord nbits w` reads. -/
def State.withFetchWord (s : State) (nbits w : Nat) : State := placeWord s nbits w

end Sys2Proof.Machine
end

