-- ==== Sys2Proof/Machine/Functions.lean ====
section
/-! DEFINITION. Each command as one total function from its input window and mode to its result or error (R10): the
form that is normative for the end state. `step` does not use this file; that the steps reach what these
functions say is stated in Certificates/Slice0/Obligations.lean. -/

namespace Sys2Proof.Machine

/-- What a command gives: its output and how many window bytes it used, or its error. -/
abbrev CommandResult := Attempt (List Byte × Nat)

/-! ### LZ_DECOMP (R144) -/

/-- The copy loop: `left` bytes at most, the next one from position `src` of the output so far, stopping when the
output is complete. -/
def lzCopy (ulen : Nat) : Nat → Nat → List Byte → List Byte
  | 0, _, out => out
  | left + 1, src, out =>
    if out.length = ulen then out else lzCopy ulen left (src + 1) (out ++ [out.getD src 0])

/-- One token at `ip`, a literal or a back-reference by its flag bit: the new `ip` and output. -/
def lzToken (w : List Byte) (ulen ip : Nat) (bit : Bool) (out : List Byte) : Attempt (Nat × List Byte) :=
  match bit, w[ip]?, w[ip + 1]? with
  | _, none, _ => .error (.err .inputUnderrun ip)
  | false, some b, _ => .ok (ip + 1, out ++ [b])
  | true, some _, none => .error (.err .inputUnderrun (ip + 1))
  | true, some r0, some r1 =>
    let word := 256 * r0.toNat + r1.toNat
    let disp := word % 4096
    if out.length < disp + 1 then .error (.err .badBackref ip)
    else .ok (ip + 2, lzCopy ulen (3 + word / 4096) (out.length - disp - 1) out)

/-- The token loop, at most `fuel` tokens. -/
def lzLoop (w : List Byte) (ulen : Nat) : Nat → Nat → Byte → Nat → List Byte → CommandResult
  | 0, ip, _, _, out => .ok (out, ip)
  | fuel + 1, ip, flg, fcnt, out =>
    if out.length = ulen then .ok (out, ip)
    else if fcnt = 0 then
      match w[ip]? with
      | none => .error (.err .inputUnderrun ip)
      | some f =>
        match lzToken w ulen (ip + 1) (f.getLsbD 7) out with
        | .error e => .error e
        | .ok (ip', out') => lzLoop w ulen fuel ip' (f <<< 1) 7 out'
    else
      match lzToken w ulen ip (flg.getLsbD 7) out with
      | .error e => .error e
      | .ok (ip', out') => lzLoop w ulen fuel ip' (flg <<< 1) (fcnt - 1) out'

/-- `h1 + 256·h2 + 65536·h3` of a window (R91). -/
def lengthField (w : List Byte) : Nat :=
  (w.getD 1 0).toNat + 256 * (w.getD 2 0).toNat + 65536 * (w.getD 3 0).toNat

/-- The stream after a header: every token writes at least one byte, so `ULEN` tokens are enough (R146). -/
def lzStream (w : List Byte) (outSize : Nat) : CommandResult :=
  if outSize < lengthField w then .error (.err .outputOverflow (lengthField w))
  else lzLoop w (lengthField w) (lengthField w + 1) 4 0 0 []

/-- `LZ_DECOMP` (R144). -/
def lzDecompress (w : List Byte) (outSize : Nat) : CommandResult :=
  if w.length < 4 then .error (.err .inputUnderrun w.length)
  else if (w.getD 0 0).toNat / 16 ≠ 1 then .error (.err .unsupportedMethod (w.getD 0 0).toNat)
  else lzStream w outSize

/-! ### RD_COMP (R181 to R183) -/

/-- `RD_COMP`. -/
def readCompressed (w : List Byte) (outSize : Nat) : CommandResult :=
  if w.length < 4 then .error (.err .inputUnderrun w.length)
  else if w.getD 0 0 = 0x00 then
    if w.length < 4 + lengthField w then .error (.err .inputUnderrun w.length)
    else if outSize < lengthField w then .error (.err .outputOverflow (lengthField w))
    else .ok ((w.drop 4).take (lengthField w), 4 + lengthField w)
  else if w.getD 0 0 = 0x10 then lzStream w outSize
  else .error (.err .unknownCompressionType (w.getD 0 0).toNat)

/-! ### LZ_COMP (R160 to R169) -/

/-- The tokens from position `i` on, at most `fuel` of them (R164). -/
def compressTokens (m : MatcherChoice) (bytes : List Byte) : Nat → Nat → List Instr
  | 0, _ => []
  | fuel + 1, i =>
    if bytes.length ≤ i then []
    else if 3 ≤ (matcher m bytes i).1 then
      refOf (matcher m bytes i).1 (matcher m bytes i).2 :: compressTokens m bytes fuel (i + (matcher m bytes i).1)
    else .lit (bytes.getD i 0) :: compressTokens m bytes fuel (i + 1)

/-- The flag byte of a group: bit `7 − k` says whether its `k`-th token is a `REF`; unused bits are 0 (R93, R167). -/
def flagByteOf (isRef : Instr → Bool) : Nat → List Instr → Byte
  | _, [] => 0
  | k, t :: ts => (if isRef t then (0x80 : Byte) >>> k else 0) ||| flagByteOf isRef (k + 1) ts

/-- A token that its flag bit marks with 1. -/
def isRef : Instr → Bool
  | .ref _ _ => true
  | _ => false

/-- A flag byte and the tokens it governs (R97). -/
def groupBytes (ts : List Instr) : List Byte := flagByteOf isRef 0 ts :: ts.flatMap (encode bgr555)

/-- The tokens in groups of eight, the last one as long as tokens are left (R97, R167). -/
def groupsBytes : Nat → List Instr → List Byte
  | 0, _ => []
  | _, [] => []
  | fuel + 1, ts => groupBytes (ts.take 8) ++ groupsBytes fuel (ts.drop 8)

/-- The packed bytes `E` of an input (R160, R161, R164). -/
def compressedBytes (m : MatcherChoice) (bytes : List Byte) : List Byte :=
  encode bgr555 (.hdrLz 0 (BitVec.ofNat 24 bytes.length))
    ++ groupsBytes bytes.length (compressTokens m bytes bytes.length 0)

/-- `LZ_COMP`: the first byte that does not fit OUT has address `OUT_SIZE` (R169, R247). -/
def lzCompress (m : MatcherChoice) (bytes : List Byte) (outSize : Nat) : CommandResult :=
  if 2 ^ 24 ≤ bytes.length then .error (.err .lengthOverflow bytes.length)
  else if outSize < (compressedBytes m bytes).length then .error (.err .outputOverflow outSize)
  else .ok (compressedBytes m bytes, bytes.length)

/-! ### PAL_DEC (R191 to R195) -/

/-- The three output bytes of entry `e`. -/
def paletteEntry (l : PalLayout) (w : List Byte) (e : Nat) : List Byte :=
  let v : BitVec 16 := w.getD (2 * e + 1) 0 ++ w.getD (2 * e) 0
  [scale (v.extractLsb' l.rLo 5), scale (v.extractLsb' l.gLo 5), scale (v.extractLsb' l.bLo 5)]

/-- `PAL_DEC`. -/
def decodePalette (l : PalLayout) (w : List Byte) (outSize : Nat) : CommandResult :=
  if outSize < 3 * entryCount w.length then .error (.err .outputOverflow (3 * entryCount w.length))
  else .ok ((List.range (entryCount w.length)).flatMap (paletteEntry l w), 2 * entryCount w.length)

/-! ### TILE_DEC and TILE_ENC (R201 to R210) -/

/-- The two pixels of a packed byte, low nibble first (R202). -/
def unpackByte (y : Byte) : List Byte := [(y.extractLsb' 0 4).setWidth 8, (y.extractLsb' 4 4).setWidth 8]

/-- `TILE_DEC` for a legal depth. -/
def decodeTiles (bpp : BitVec 4) (w : List Byte) (outSize : Nat) : CommandResult :=
  let used := tileBytes bpp * tileCount bpp w.length
  if outSize < 64 * tileCount bpp w.length then .error (.err .outputOverflow (64 * tileCount bpp w.length))
  else if bpp = 4 then .ok ((w.take used).flatMap unpackByte, used)
  else .ok (w.take used, used)

/-- The pairs of a list of pixels, each packed in one byte (R207, R208). -/
def packPairs : List Byte → List Byte
  | a :: b :: rest => packPair a b :: packPairs rest
  | [_] => []
  | [] => []

/-- `TILE_ENC` for a legal depth. -/
def encodeTiles (bpp : BitVec 4) (mask : BitVec 1) (w : List Byte) (outSize : Nat) : CommandResult :=
  if w.length % 64 ≠ 0 then .error (.err .badLength w.length)
  else if outSize < tileBytes bpp * (w.length / 64) then
    .error (.err .outputOverflow (tileBytes bpp * (w.length / 64)))
  else if bpp = 4 then
    match (if mask = 0 then w.findIdx? tooWide else none) with
    | some k => .error (.err .encodingError k)
    | none => .ok (packPairs w, w.length)
  else .ok (w, w.length)

/-! ### All commands -/

/-- The result of a command, from its window, the parameters and the mode (R8). A stream element or a data format
is no command and gives nothing. -/
def commandResult (i : Instr) (c : Config) (bpp : BitVec 4) (mask : BitVec 1) (w : List Byte) : CommandResult :=
  match i with
  | .lzDecomp => lzDecompress w c.outSize
  | .lzComp => lzCompress c.matcher w c.outSize
  | .rdComp => readCompressed w c.outSize
  | .palDec => decodePalette c.pal w c.outSize
  | .tileDec => decodeTiles bpp w c.outSize
  | .tileEnc => encodeTiles bpp mask w c.outSize
  | .hdrRaw _ => .ok ([], 0)
  | .hdrLz _ _ => .ok ([], 0)
  | .flag _ => .ok ([], 0)
  | .lit _ => .ok ([], 0)
  | .ref _ _ => .ok ([], 0)
  | .pal16 _ _ _ _ => .ok ([], 0)
  | .pix4 _ _ => .ok ([], 0)
  | .pix8 _ => .ok ([], 0)
  | .idx _ => .ok ([], 0)

end Sys2Proof.Machine
end

