-- ==== Sys2Proof/Safety.lean ====
section
/-! DEFINITION. What counts as a good state: the invariant that every step keeps; and when a command has ended with
a given result. Claims are stated in these terms. -/

namespace Sys2Proof.Machine

/-- IN and OUT are canonical and hold values only at addresses that exist (R40, R41). -/
structure State.MemoriesOk (s : State) : Prop where
  inWf : s.inMem.wf
  inFits : s.inMem.fitsIn s.cfg.inSize
  outWf : s.outMem.wf
  outFits : s.outMem.fitsIn s.cfg.outSize

/-- `ERR`, `ERR_INFO`, `OUT_LEN` and `IN_USED` are all 0 (R28 to R31). -/
structure State.NoResult (s : State) : Prop where
  err : s.err = .none
  errInfo : s.errInfo = 0
  outLen : s.outLen = 0
  inUsed : s.inUsed = 0

/-- While `BUSY` the latched values are those of the registers (R33, R220), the window lies inside IN (R221), and
there is no result yet. -/
structure State.CommandOk (s : State) : Prop where
  bpp : s.latch.bpp = s.bpp
  mask : s.latch.mask = s.mask
  off : s.latch.off = s.srcOff
  len : s.latch.len = s.srcLen
  opc : s.latch.opc = s.opc
  inside : s.latch.off.toNat + s.latch.len.toNat ≤ s.cfg.inSize
  noResult : s.NoResult

/-- In the token stream: the output so far is OUT's bytes 0 to `OLEN − 1`, `OLEN ≤ ULEN ≤ OUT_SIZE`, and `IP` is
inside the window (R35, R37, R69, R77). -/
structure State.StreamOk (s : State) : Prop where
  opc : s.latch.opc = 1 ∨ s.latch.opc = 3
  olen : s.olen.toNat ≤ s.ulen.toNat
  ulen : s.ulen.toNat ≤ s.cfg.outSize
  ipLow : 4 ≤ s.ip.toNat
  ipHigh : s.ip.toNat ≤ s.latch.len.toNat
  fcnt : s.fcnt.toNat ≤ 8
  crem : s.crem = 0
  out : s.outMem.holdsExactly s.olen.toNat

/-- While compressing: the output so far is OUT's bytes 0 to `EO − 1`, and `CI` is inside the input (R164, R169). -/
structure State.CompressOk (s : State) : Prop where
  opc : s.latch.opc = 2
  len : s.latch.len.toNat < 2 ^ 24
  ci : s.ci.toNat ≤ s.latch.len.toNat
  eo : s.eo.toNat ≤ s.cfg.outSize
  out : s.outMem.holdsExactly s.eo.toNat

/-- While converting a palette: the output so far is the triples of the entries before `EI` (R195). -/
structure State.PaletteOk (s : State) : Prop where
  opc : s.latch.opc = 4
  size : 3 * entryCount s.latch.len.toNat ≤ s.cfg.outSize
  ei : s.ei.toNat ≤ entryCount s.latch.len.toNat
  out : s.outMem.holdsExactly (3 * s.ei.toNat)

/-- While unpacking: the output so far is the pixels of the bytes before `BI` (R202 to R204). -/
structure State.UnpackOk (s : State) : Prop where
  opc : s.latch.opc = 5
  depth : s.latch.bpp = 4 ∨ s.latch.bpp = 8
  size : 64 * tileCount s.latch.bpp s.latch.len.toNat ≤ s.cfg.outSize
  bi : s.bi.toNat ≤ unpackBytes s
  out : s.outMem.holdsExactly (if s.latch.bpp = 4 then 2 * s.bi.toNat else s.bi.toNat)

/-- While packing: the output so far is the packed bytes before `BI`; a kept first pixel belongs to a pair that is
still to be packed, at 4 bits per pixel only (R206 to R210). -/
structure State.PackOk (s : State) : Prop where
  opc : s.latch.opc = 6
  depth : s.latch.bpp = 4 ∨ s.latch.bpp = 8
  whole : s.latch.len.toNat % 64 = 0
  size : packBytes s ≤ s.cfg.outSize
  bi : s.bi.toNat ≤ packBytes s
  pix : s.pix.isSome = true → s.latch.bpp = 4 ∧ s.bi.toNat < packBytes s
  out : s.outMem.holdsExactly s.bi.toNat

/-- What holds in each phase of a running command. -/
def State.PhaseOk (s : State) : Phase → Prop
  | .header => (s.latch.opc = 1 ∨ s.latch.opc = 3) ∧ s.outMem = []
  | .stream => s.StreamOk
  | .groupOpen => s.CompressOk
  | .groupTokens => s.CompressOk ∧ s.fk.toNat ≤ 8 ∧ s.fpos.toNat < s.eo.toNat
  | .palette => s.PaletteOk
  | .unpack => s.UnpackOk
  | .pack => s.PackOk

/-- What holds in each value of `STATUS.STATE` (R27 to R31, R45): no result after reset and while `BUSY`; OUT holds
exactly its result in `DONE`, and nothing in `ERROR`, where there is a cause. -/
def State.RunOk (s : State) : Run → Prop
  | .idle => s.NoResult ∧ s.outMem = []
  | .busy p => s.CommandOk ∧ s.PhaseOk p
  | .done => s.err = .none ∧ s.errInfo = 0 ∧ s.outMem.holdsExactly s.outLen.toNat
  | .error => s.err ≠ .none ∧ s.outLen = 0 ∧ s.inUsed = 0 ∧ s.outMem = []

/-- The invariant: parameters as R5 has them, canonical memories, and what `STATUS.STATE` promises. -/
structure State.Inv (s : State) : Prop where
  cfg : s.cfg.wf
  memories : s.MemoriesOk
  run : s.RunOk s.run

/-- A command ended in state `t` with a result: `DONE` with exactly the result's bytes in OUT (R223), or `ERROR` with
its code and information and no byte of OUT holding a value (R253). -/
def State.EndedWith (t : State) : CommandResult → Prop
  | .ok (out, used) =>
    t.run = .done ∧ t.err = .none ∧ t.errInfo = 0 ∧ t.outLen = BitVec.ofNat 32 out.length
      ∧ t.inUsed = BitVec.ofNat 32 used ∧ ∀ a, t.outMem.read a = out[a]?
  | .error (.err e info) =>
    t.run = .error ∧ t.err = e ∧ t.errInfo = saturate info ∧ t.outLen = 0 ∧ t.inUsed = 0 ∧ t.outMem = []
  | .error (.fault _) => False

/-- What a command leaves as it was: the parameters, the registers the host writes, IN and the host's own fields
(R223, R253). -/
structure SameInputs (s t : State) : Prop where
  cfg : t.cfg = s.cfg
  opc : t.opc = s.opc
  bpp : t.bpp = s.bpp
  mask : t.mask = s.mask
  srcOff : t.srcOff = s.srcOff
  srcLen : t.srcLen = s.srcLen
  inMem : t.inMem = s.inMem
  host : t.host = s.host
  hostData : t.hostData = s.hostData

/-- `t` is `s` after an error (R253): the cause, the information saturated to 32 bits, no result, no byte of OUT
with a value, and everything the host wrote as it was. -/
structure Failed (e : ErrCode) (info : Nat) (s t : State) : Prop where
  run : t.run = .error
  err : t.err = e
  errInfo : t.errInfo.toNat = min info (2 ^ 32 - 1)
  outLen : t.outLen = 0
  inUsed : t.inUsed = 0
  out : ∀ a, t.outMem.read a = none
  same : SameInputs s t

/-- The piece of machinery answers the state after an error. -/
def FailsWith (e : ErrCode) (info : Nat) (s : State) (r : Result) : Prop := ∃ t, r = .next t ∧ Failed e info s t

/-- The instructions that are commands (R105). -/
def commands : List Instr := [.lzDecomp, .lzComp, .rdComp, .palDec, .tileDec, .tileEnc]

/-- The commands that read `MODE.BPP` (R24). -/
def tileCommands : List Instr := [.tileDec, .tileEnc]

/-- A `START` is accepted and valid (R220, R221): the block is not busy, the window lies inside IN, and a tile command
has a legal depth. -/
structure CanStart (i : Instr) (s : State) : Prop where
  notBusy : s.busy = false
  inside : s.srcOff.toNat + s.srcLen.toNat ≤ s.cfg.inSize
  depth : i ∈ tileCommands → s.bpp = 4 ∨ s.bpp = 8

/-- The state right after a valid `START` (R220), `BUSY` at the beginning of a phase. -/
def begun (opc : BitVec 3) (p : Phase) (s : State) : State :=
  { s with
    err := .none, errInfo := 0, outLen := 0, inUsed := 0, run := .busy p
    latch := { opc := opc, bpp := s.bpp, mask := s.mask, off := s.srcOff, len := s.srcLen }
    outMem := [], draw := s.draw + 1 }

/-- The bytes a command begun in `s` finds in its window. -/
def inputOf (s : State) : List Byte :=
  (List.range s.srcLen.toNat).map
    (fun k => (s.inMem.read (s.srcOff.toNat + k)).getD (Config.freeIn (s.draw + 1) (s.srcOff.toNat + k)))

/-- `k` steps from `s` reach `t` without a fault or a refusal. -/
def Reaches (k : Nat) (s t : State) : Prop := Host.Core.run Sys2Proof.core k s = .next t

/-- From `s`, where the host has no move to make, the command `i` runs to its end and ends with result `r`; what the
host wrote is unchanged. -/
def RunsTo (i : Instr) (s : State) (r : CommandResult) : Prop :=
  ∃ s' k t, exec i s = .next s' ∧ Reaches k s' t ∧ t.EndedWith r ∧ SameInputs s t

end Sys2Proof.Machine
end

