-- ==== Sys2Proof/Certificates/Slice0/Obligations.lean ====
section
/-! DEFINITION. The statements about SRT-CODEC, in the order of OBLIGATIONS.json. Each docstring names the rule of the
spec it formalises; one that rests on a choice of the model, or on an inference of the spec, says so. -/

open Sys2Proof Sys2Proof.Machine

/-! ### Reset and the host's registers -/

/-- R43, R270: after reset, for all parameters, every host register reads 0 (`STATUS` = `IDLE`), no byte of IN or OUT
holds a value, and the block executes nothing. That the queue is empty is the model's choice (log 13). -/
def Obligations.ResetClearsRegistersAndMemories : Prop :=
  ∀ c : Config,
    (∀ n, readReg n (State.resetWith c) = 0)
      ∧ (State.resetWith c).run = .idle
      ∧ (∀ a, (State.resetWith c).inMem.read a = none)
      ∧ (∀ a, (State.resetWith c).outMem.read a = none)
      ∧ step (State.resetWith c) = .next (State.resetWith c)

/-- R32: reserved bits read 0 and ignore writes; the fields read back exactly what was written, legal or not. -/
def Obligations.FieldsReadBackAndReservedBitsReadZero : Prop :=
  ∀ (s : State) (v : Word),
    (s.busy = false →
        readReg 1 (writeReg 1 v s) = v &&& 0x7
          ∧ readReg 2 (writeReg 2 v s) = v &&& 0x10F
          ∧ readReg 3 (writeReg 3 v s) = v
          ∧ readReg 4 (writeReg 4 v s) = v
          ∧ ∀ n, (writeReg n v s).run = s.run ∧ (writeReg n v s).err = s.err)
      ∧ readReg 0 s = 0
      ∧ readReg 1 s &&& 0x7 = readReg 1 s
      ∧ readReg 2 s &&& 0x10F = readReg 2 s
      ∧ readReg 5 s &&& 0x3 = readReg 5 s
      ∧ readReg 6 s &&& 0xF = readReg 6 s

/-- R21: a write changes only the register it names; registers the host cannot write, and numbers from 10 on, ignore
it; numbers from 10 on read 0. R66, R229: while not `BUSY` the host's write of a register other than `CTRL` makes exactly
that change, and its read of any register gives that register's value and changes nothing else; that these moves have
their effect before the host has read the end of the last command in `STATUS` is the model's choice (log 23). -/
def Obligations.RegisterWritesTouchOnlyTheirRegister : Prop :=
  ∀ (s : State) (n : Nat) (v : Word) (rest : List HostMove),
    (writeReg n v s =
        { s with opc := (writeReg n v s).opc, bpp := (writeReg n v s).bpp, mask := (writeReg n v s).mask
                 srcOff := (writeReg n v s).srcOff, srcLen := (writeReg n v s).srcLen })
      ∧ (∀ m, m ≠ n → readReg m (writeReg n v s) = readReg m s)
      ∧ (n = 0 ∨ 5 ≤ n → writeReg n v s = s)
      ∧ (10 ≤ n → readReg n s = 0)
      ∧ (s.busy = false →
          (n ≠ 0 → step { s with host := .writeReg n v :: rest } = .next (writeReg n v { s with host := rest }))
            ∧ step { s with host := .readReg n :: rest } = .next { s with host := rest, hostData := readReg n s })

/-- R22: only bit 0 of a value written to `CTRL` counts; 0 there does nothing, 1 asks for the command that `OP` selects;
`CTRL` reads 0. -/
def Obligations.ControlWriteStartsTheSelectedCommand : Prop :=
  ∀ (s : State) (v : Word) (rest : List HostMove),
    readReg 0 s = 0
      ∧ (v.getLsbD 0 = false →
          step { s with host := .writeReg 0 v :: rest } = .next { s with host := rest })
      ∧ (v.getLsbD 0 = true →
          ∀ i ∈ commands, s.opc = i.opc →
            step { s with host := .writeReg 0 v :: rest } = exec i { s with host := rest })

/-- R33, R225: while `BUSY` a register write, `START` included, changes nothing, and `STATUS` reads `BUSY`; that a read of
any other number, `CTRL` and numbers from 10 on among them, is refused is the model's choice (log 3, R273, U5). -/
def Obligations.BusyBlockIgnoresRegisterWrites : Prop :=
  ∀ (s : State) (rest : List HostMove) (n : Nat) (v : Word),
    s.busy = true →
      step { s with host := .writeReg n v :: rest } = .next { s with host := rest }
        ∧ step { s with host := .readReg 5 :: rest } = .next { s with host := rest, hostData := 1 }
        ∧ (n ≠ 5 → step { s with host := .readReg n :: rest } = .refused .regReadWhileBusy)

/-- R273: host accesses to IN and OUT while `BUSY` are given no meaning. -/
def Obligations.BusyMemoryAccessesAreRefused : Prop :=
  ∀ (s : State) (rest : List HostMove) (a : Nat) (v : Byte),
    s.busy = true →
      step { s with host := .writeIn a v :: rest } = .refused .inWriteWhileBusy
        ∧ step { s with host := .readOut a :: rest } = .refused .outReadWhileBusy

/-- R40, R41, R45, R66: while not `BUSY` the host writes one byte of IN and no other, reads a result byte of OUT as it
stands, and reads a byte without value as a value nothing is known of (log 5); no read changes a register or a memory. That this
holds before the host has read the end of the last command in `STATUS` is the model's choice (log 23). -/
def Obligations.HostMemoryAccessesTouchOneByte : Prop :=
  ∀ (s : State) (rest : List HostMove) (a : Nat) (v : Byte),
    s.busy = false →
      (a < s.cfg.inSize →
          ∃ t, step { s with host := .writeIn a v :: rest } = .next t
            ∧ t = { s with host := rest, inMem := t.inMem }
            ∧ t.inMem.read a = some v
            ∧ ∀ b, b ≠ a → t.inMem.read b = s.inMem.read b)
        ∧ (a < s.cfg.outSize →
            ∃ t, step { s with host := .readOut a :: rest } = .next t
              ∧ t = { s with host := rest, hostData := t.hostData, draw := t.draw }
              ∧ ∀ w, s.outMem.read a = some w → t.hostData = w.setWidth 32 ∧ t.draw = s.draw)

/-- R270: reset, in any state and `BUSY` too, leaves every host register 0 and no byte of IN or OUT with a value; the
parameters stay (log 22). -/
def Obligations.ResetMoveClearsAnyState : Prop :=
  ∀ (s : State) (rest : List HostMove),
    ∃ t, step { s with host := .reset :: rest } = .next t
      ∧ (∀ n, readReg n t = 0) ∧ t.run = .idle
      ∧ (∀ a, t.inMem.read a = none) ∧ (∀ a, t.outMem.read a = none)
      ∧ t.cfg = s.cfg ∧ t.host = rest

/-- R227 and the model's choice of how the host waits (log 2): a poll that reads `BUSY` lets the block take a step and is made
again; one that does not ends with the value of `STATUS`; letting the block run is one step of the block. -/
def Obligations.PollingLetsTheBlockRun : Prop :=
  ∀ (s : State) (rest : List HostMove),
    (s.busy = true → step { s with host := .poll :: rest } = blockStep { s with host := .poll :: rest })
      ∧ (s.busy = false →
          step { s with host := .poll :: rest } =
            .next { s with host := rest, hostData := s.run.code.setWidth 32 })
      ∧ step { s with host := .letRun :: rest } = blockStep { s with host := rest }

/-! ### START -/

/-- R221: the three tests in their order, each an error with its sub-cause, whatever is written beside bit 0; a `START` that
passes all three does not end in `BadCommand`. -/
def Obligations.StartValidatesInOrder : Prop :=
  ∀ (s : State) (v : Word) (rest : List HostMove), s.busy = false → v.getLsbD 0 = true →
    let r := step { s with host := .writeReg 0 v :: rest }
    let s' := { s with host := rest }
    if s.opc = 0 ∨ s.opc = 7 then FailsWith .badCommand 0 s' r
    else if (s.opc = 5 ∨ s.opc = 6) ∧ s.bpp ≠ 4 ∧ s.bpp ≠ 8 then FailsWith .badCommand 1 s' r
    else if s.cfg.inSize < s.srcOff.toNat + s.srcLen.toNat then FailsWith .badCommand 2 s' r
    else ∃ t, r = .next t ∧ t.err ≠ .badCommand

/-- R220: a valid `START` of `LZ_DECOMP` or `RD_COMP` clears the results, latches the registers and leaves the block `BUSY`
before the header. That OUT loses its bytes at `START` is R275; the draw is the model's (log 4). -/
def Obligations.DecompressionCommandsBegin : Prop :=
  ∀ s : State,
    (CanStart .lzDecomp s → exec .lzDecomp s = .next (begun 1 .header s))
      ∧ (CanStart .rdComp s → exec .rdComp s = .next (begun 3 .header s))

/-- R220, R195, R204, R206, R210: a valid `START` of `PAL_DEC`, `TILE_DEC` or `TILE_ENC` whose result fits OUT leaves the
block `BUSY` before its first entry, byte or pixel; otherwise the length error, then the size error, is raised. -/
def Obligations.ConverterCommandsBegin : Prop :=
  ∀ s : State,
    let n := s.srcLen.toNat
    let tb := if s.bpp = 4 then 32 else 64
    (CanStart .palDec s →
        if s.cfg.outSize < 3 * (n / 2) then FailsWith .outputOverflow (3 * (n / 2)) s (exec .palDec s)
        else exec .palDec s = .next { begun 4 .palette s with ei := 0 })
      ∧ (CanStart .tileDec s →
          if s.cfg.outSize < 64 * (n / tb) then FailsWith .outputOverflow (64 * (n / tb)) s (exec .tileDec s)
          else exec .tileDec s = .next { begun 5 .unpack s with bi := 0 })
      ∧ (CanStart .tileEnc s →
          if n % 64 ≠ 0 then FailsWith .badLength n s (exec .tileEnc s)
          else if s.cfg.outSize < tb * (n / 64) then FailsWith .outputOverflow (tb * (n / 64)) s (exec .tileEnc s)
          else exec .tileEnc s = .next { begun 6 .pack s with bi := 0, pix := none })

/-- R161, R164, R169: a valid `START` of `LZ_COMP` raises `LengthOverflow` for 2^24 bytes or more, else `OutputOverflow` at the
first byte of the header that does not fit, else leaves the header in OUT and the block `BUSY` before the first group. -/
def Obligations.CompressionCommandBegins : Prop :=
  ∀ s : State, CanStart .lzComp s →
    let n := s.srcLen.toNat
    if 2 ^ 24 ≤ n then FailsWith .lengthOverflow n s (exec .lzComp s)
    else if s.cfg.outSize < 4 then FailsWith .outputOverflow s.cfg.outSize s (exec .lzComp s)
    else
      ∃ t, exec .lzComp s = .next t
        ∧ t = { begun 2 .groupOpen s with eo := 4, ci := 0, outMem := t.outMem }
        ∧ t.outMem.read 0 = some 0x10
        ∧ t.outMem.read 1 = some (BitVec.ofNat 8 n)
        ∧ t.outMem.read 2 = some (BitVec.ofNat 8 (n / 256))
        ∧ t.outMem.read 3 = some (BitVec.ofNat 8 (n / 65536))
        ∧ ∀ a, 4 ≤ a → t.outMem.read a = none

/-- R225, R226: a command's `START` is ignored while `BUSY`; from `DONE` or `ERROR` it begins exactly as from `IDLE`, whatever
results and output an earlier command left. -/
def Obligations.StartForgetsEarlierResults : Prop :=
  ∀ i ∈ commands, ∀ (s : State) (r : Run) (e : ErrCode) (x y z : Word) (m : Memory),
    (s.busy = true → exec i s = .next s)
      ∧ (r = .idle ∨ r = .done ∨ r = .error →
          exec i { s with run := r, err := e, errInfo := x, outLen := y, inUsed := z, outMem := m } =
            exec i { s with run := .idle, err := .none, errInfo := 0, outLen := 0, inUsed := 0, outMem := [] })

/-! ### The stream elements -/

/-- R134: `FLAG` sets all eight flag bits and the count, moves `IP` by 1, and changes nothing else. It is fetched at `IP` when no
flag bit is left and output is still to come; when the window has ended there, `InputUnderrun(IP)`. -/
def Obligations.FlagLoadsEightSelectors : Prop :=
  (∀ (f : Byte) (s : State), exec (.flag f) s = .next { s with flg := f, fcnt := 8, ip := s.ip + 1 })
    ∧ ∀ s : State, s.host = [] → s.run = .busy .stream → s.olen.toNat ≠ s.ulen.toNat → s.fcnt = 0 →
        if s.latch.len.toNat ≤ s.ip.toNat then FailsWith .inputUnderrun s.ip.toNat s (step s)
        else
          step s = .next { s with
            flg := inByte s (s.latch.off.toNat + s.ip.toNat), fcnt := 8, ip := s.ip + 1 }

/-- R136: `LIT` stores its byte, whatever it is, at `OLEN`, moves `IP` and `OLEN` by 1, and changes nothing else; when the window
has ended at `IP`, `InputUnderrun(IP)`. -/
def Obligations.LiteralStoresItsByte : Prop :=
  (∀ (b : Byte) (s : State), s.olen.toNat < s.cfg.outSize →
      ∃ t, exec (.lit b) s = .next t
        ∧ t = { s with ip := s.ip + 1, olen := s.olen + 1, outMem := t.outMem }
        ∧ t.outMem.read s.olen.toNat = some b
        ∧ ∀ a, a ≠ s.olen.toNat → t.outMem.read a = s.outMem.read a)
    ∧ ∀ s : State, s.host = [] → s.run = .busy .stream → s.olen.toNat ≠ s.ulen.toNat → s.fcnt ≠ 0 →
        s.flg.getLsbD 7 = false → s.latch.len.toNat ≤ s.ip.toNat →
        FailsWith .inputUnderrun s.ip.toNat s (step s)

/-- R137, R138, R139: a `REF` whose source lies in the output copies `min(3 + LN, ULEN − OLEN)` bytes, the `j`-th equal to
the byte of the output before the token at `OLEN − DISP − 1 + (j mod (DISP + 1))`, moves `IP` by 2, ends with `CREM` = 0, and
changes nothing else. The closed form is R138's inference from the byte-serial copy. -/
def Obligations.BackReferenceRepeatsEarlierOutput : Prop :=
  ∀ (ln : BitVec 4) (disp : BitVec 12) (s : State),
    let o := s.olen.toNat
    let n := min (3 + ln.toNat) (s.ulen.toNat - o)
    disp.toNat < o → (n = 0 ∨ o + n ≤ s.cfg.outSize) →
      ∃ t, exec (.ref ln disp) s = .next t
        ∧ t = { s with
                ip := s.ip + 2, olen := s.olen + BitVec.ofNat 32 n, crem := 0
                csrc := BitVec.ofNat 32 (o - disp.toNat - 1 + n), outMem := t.outMem }
        ∧ (∀ j, j < n →
            t.outMem.read (o + j) = some (outByte s (o - disp.toNat - 1 + j % (disp.toNat + 1))))
        ∧ ∀ a, a < o ∨ o + n ≤ a → t.outMem.read a = s.outMem.read a

/-- R246: a `REF` whose source pointer `OLEN − DISP − 1` is negative raises `BadBackref` with the position of the token's
first byte. -/
def Obligations.BackReferenceBeforeOutputFails : Prop :=
  ∀ (ln : BitVec 4) (disp : BitVec 12) (s : State), s.olen.toNat ≤ disp.toNat →
    FailsWith .badBackref s.ip.toNat s (exec (.ref ln disp) s)

/-- R131, R132: `HDR.LZ`, whatever its low nibble, raises `OutputOverflow` when `ULEN` exceeds `OUT_SIZE`, else sets `ULEN` and
the working registers of the stream, and changes nothing else. -/
def Obligations.LzHeaderBeginsTheStream : Prop :=
  ∀ (sub : BitVec 4) (ulen : BitVec 24) (s : State),
    if s.cfg.outSize < ulen.toNat then FailsWith .outputOverflow ulen.toNat s (exec (.hdrLz sub ulen) s)
    else
      exec (.hdrLz sub ulen) s =
        .next { s with ulen := ulen, ip := 4, olen := 0, fcnt := 0, flg := 0, crem := 0, run := .busy .stream }

/-- R182: `HDR.RAW` raises `InputUnderrun(SRC_LEN)` for a short window, else `OutputOverflow(ULEN)`, else copies the `ULEN` bytes
after the header to OUT and completes; nothing else changes. -/
def Obligations.RawHeaderCopiesTheBlock : Prop :=
  ∀ (ulen : BitVec 24) (s : State),
    let n := ulen.toNat
    if s.latch.len.toNat < 4 + n then FailsWith .inputUnderrun s.latch.len.toNat s (exec (.hdrRaw ulen) s)
    else if s.cfg.outSize < n then FailsWith .outputOverflow n s (exec (.hdrRaw ulen) s)
    else
      ∃ t, exec (.hdrRaw ulen) s = .next t
        ∧ t = { s with
                outLen := BitVec.ofNat 32 n, inUsed := BitVec.ofNat 32 (4 + n), err := .none, errInfo := 0
                run := .done, outMem := t.outMem }
        ∧ (∀ k, k < n → t.outMem.read k = some (inByte s (s.latch.off.toNat + (4 + k))))
        ∧ ∀ k, n ≤ k → t.outMem.read k = none

/-- R242, R243, R131, R181: the header step reports a window shorter than four bytes first, then a method other than 1 under
`LZ_DECOMP` and a type other than 0x00 and 0x10 under `RD_COMP`, with header byte 0 as information. -/
def Obligations.HeaderStepRejectsWhatItsCommandDoesNotTake : Prop :=
  ∀ s : State, s.host = [] → s.run = .busy .header →
    let h0 := inByte s s.latch.off.toNat
    (s.latch.len.toNat < 4 → FailsWith .inputUnderrun s.latch.len.toNat s (step s))
      ∧ (4 ≤ s.latch.len.toNat → s.latch.opc = 1 → h0.toNat / 16 ≠ 1 →
          FailsWith .unsupportedMethod h0.toNat s (step s))
      ∧ (4 ≤ s.latch.len.toNat → s.latch.opc = 3 → h0 ≠ 0x00 → h0 ≠ 0x10 →
          FailsWith .unknownCompressionType h0.toNat s (step s))

/-- R133, R135: in the stream, with output still to come, the step fetches a flag byte at `IP` when no flag bit is left; else
it uses flag bit 7, shifts `FLG`, counts it, and runs a `LIT` or a `REF` fetched at `IP`. -/
def Obligations.StreamStepFollowsTheFlagBits : Prop :=
  ∀ s : State, s.host = [] → s.run = .busy .stream → s.olen.toNat ≠ s.ulen.toNat →
    let at' := fun k => inByte s (s.latch.off.toNat + (s.ip.toNat + k))
    let sel := { s with flg := s.flg <<< 1, fcnt := s.fcnt - 1 }
    let left := s.latch.len.toNat - s.ip.toNat
    (s.fcnt = 0 → 1 ≤ left → step s = exec (.flag (at' 0)) s)
      ∧ (s.fcnt ≠ 0 → s.flg.getLsbD 7 = false → 1 ≤ left → step s = exec (.lit (at' 0)) sel)
      ∧ (s.fcnt ≠ 0 → s.flg.getLsbD 7 = true → 2 ≤ left →
          step s = exec (.ref ((at' 0).extractLsb' 4 4) ((at' 0).extractLsb' 0 4 ++ at' 1)) sel)

/-- R245: a flag byte or a token that the window no longer holds whole raises `InputUnderrun` at the first missing byte. -/
def Obligations.StreamStepReportsMissingBytes : Prop :=
  ∀ s : State, s.host = [] → s.run = .busy .stream → s.olen.toNat ≠ s.ulen.toNat →
    (s.latch.len.toNat ≤ s.ip.toNat → FailsWith .inputUnderrun s.ip.toNat s (step s))
      ∧ (s.fcnt ≠ 0 → s.flg.getLsbD 7 = true → s.latch.len.toNat = s.ip.toNat + 1 →
          FailsWith .inputUnderrun (s.ip.toNat + 1) s (step s))

/-- R140: when `OLEN` = `ULEN` the command ends with `OUT_LEN` = `ULEN` and `IN_USED` = `IP`; bytes at and above `ULEN` hold no value. -/
def Obligations.StreamCompletesAtItsLength : Prop :=
  ∀ s : State, s.host = [] → s.run = .busy .stream → s.olen.toNat = s.ulen.toNat →
    ∃ t, step s = .next t
      ∧ t = { s with
              run := .done, err := .none, errInfo := 0, outLen := s.ulen.setWidth 32, inUsed := s.ip
              outMem := t.outMem }
      ∧ (∀ a, a < s.ulen.toNat → t.outMem.read a = s.outMem.read a)
      ∧ ∀ a, s.ulen.toNat ≤ a → t.outMem.read a = none

/-! ### The data formats -/

/-- R193, R195, R196: `PAL16` stores `floor(c · 255 / 31)` of red, green and blue at `3·EI`, `3·EI + 1` and `3·EI + 2`, counts the
entry, and changes nothing else, whatever bit 15 is. -/
def Obligations.PaletteEntryStoresItsScaledChannels : Prop :=
  ∀ (r5 g5 b5 : BitVec 5) (x : BitVec 1) (s : State), 3 * s.ei.toNat + 3 ≤ s.cfg.outSize →
    ∃ t, exec (.pal16 r5 g5 b5 x) s = .next t
      ∧ t = { s with ei := s.ei + 1, outMem := t.outMem }
      ∧ t.outMem.read (3 * s.ei.toNat) = some (BitVec.ofNat 8 (r5.toNat * 255 / 31))
      ∧ t.outMem.read (3 * s.ei.toNat + 1) = some (BitVec.ofNat 8 (g5.toNat * 255 / 31))
      ∧ t.outMem.read (3 * s.ei.toNat + 2) = some (BitVec.ofNat 8 (b5.toNat * 255 / 31))
      ∧ ∀ a, a < 3 * s.ei.toNat ∨ 3 * s.ei.toNat + 3 ≤ a → t.outMem.read a = s.outMem.read a

/-- R193: `scale(c) = floor(c · 255 / 31)`, exactly: no value is lost in the byte. -/
def Obligations.ScalingIsTruncatingDivision : Prop :=
  ∀ c : BitVec 5, (scale c).toNat = c.toNat * 255 / 31

/-- R194, R198 (the spec's inferences): the scaling table entry by entry, and distinct channels stay distinct. -/
def Obligations.ScalingFollowsItsTable : Prop :=
  (List.range 32).map (fun c => (scale (BitVec.ofNat 5 c)).toNat) =
      [0, 8, 16, 24, 32, 41, 49, 57, 65, 74, 82, 90, 98, 106, 115, 123]
        ++ [131, 139, 148, 156, 164, 172, 180, 189, 197, 205, 213, 222, 230, 238, 246, 255]
    ∧ ∀ c d : BitVec 5, c.toNat < d.toNat → (scale c).toNat < (scale d).toNat

/-- R202, R203: `PIX4` stores its low-nibble pixel at `2·BI` and its high-nibble pixel at `2·BI + 1`; `PIX8` stores its byte at
`BI`; each counts one byte and changes nothing else. -/
def Obligations.PackedPixelsUnpackInOrder : Prop :=
  ∀ s : State,
    (∀ p0 p1 : BitVec 4, 2 * s.bi.toNat + 2 ≤ s.cfg.outSize →
        ∃ t, exec (.pix4 p0 p1) s = .next t
          ∧ t = { s with bi := s.bi + 1, outMem := t.outMem }
          ∧ t.outMem.read (2 * s.bi.toNat) = some (p0.setWidth 8)
          ∧ t.outMem.read (2 * s.bi.toNat + 1) = some (p1.setWidth 8)
          ∧ ∀ a, a < 2 * s.bi.toNat ∨ 2 * s.bi.toNat + 2 ≤ a → t.outMem.read a = s.outMem.read a)
      ∧ (∀ p : Byte, s.bi.toNat < s.cfg.outSize →
          ∃ t, exec (.pix8 p) s = .next t
            ∧ t = { s with bi := s.bi + 1, outMem := t.outMem }
            ∧ t.outMem.read s.bi.toNat = some p
            ∧ ∀ a, a ≠ s.bi.toNat → t.outMem.read a = s.outMem.read a)

/-- R207, R208, R209: `IDX` at 4 bits per pixel keeps the first pixel of a pair, and with the second stores their low
nibbles, the first pixel low, at `BI`; strict, an index of 16 or more raises `EncodingError` at its position; at 8 bits per
pixel it stores the index at `BI`. Nothing else changes. That one pixel is one step is the model's choice (log 9). -/
def Obligations.PixelsPackInOrder : Prop :=
  ∀ (i : Byte) (s : State),
    (s.latch.bpp = 4 → s.latch.mask = 0 → 16 ≤ i.toNat →
        FailsWith .encodingError (2 * s.bi.toNat + (if s.pix.isSome then 1 else 0)) s (exec (.idx i) s))
      ∧ (s.latch.bpp = 4 → (s.latch.mask ≠ 0 ∨ i.toNat < 16) → s.pix = none →
          exec (.idx i) s = .next { s with pix := some i })
      ∧ (∀ a, s.latch.bpp = 4 → (s.latch.mask ≠ 0 ∨ i.toNat < 16) → s.pix = some a →
          s.bi.toNat < s.cfg.outSize →
          ∃ t, exec (.idx i) s = .next t
            ∧ t = { s with bi := s.bi + 1, pix := none, outMem := t.outMem }
            ∧ t.outMem.read s.bi.toNat = some (BitVec.ofNat 8 (i.toNat % 16 * 16 + a.toNat % 16))
            ∧ ∀ b, b ≠ s.bi.toNat → t.outMem.read b = s.outMem.read b)
      ∧ (s.latch.bpp ≠ 4 → s.bi.toNat < s.cfg.outSize →
          ∃ t, exec (.idx i) s = .next t
            ∧ t = { s with bi := s.bi + 1, outMem := t.outMem }
            ∧ t.outMem.read s.bi.toNat = some i
            ∧ ∀ b, b ≠ s.bi.toNat → t.outMem.read b = s.outMem.read b)

/-- The model's choice (log 16): an element that would store at or beyond `OUT_SIZE`, which R69 says never happens, stops
with a fault that names the first such address. -/
def Obligations.StoresBeyondOutStop : Prop :=
  ∀ s : State,
    (∀ b, s.cfg.outSize ≤ s.olen.toNat → exec (.lit b) s = .fault (.storeOutsideOut s.olen.toNat))
      ∧ (∀ (ln : BitVec 4) (disp : BitVec 12), disp.toNat < s.olen.toNat → s.olen.toNat < s.ulen.toNat →
          s.cfg.outSize < s.olen.toNat + min (3 + ln.toNat) (s.ulen.toNat - s.olen.toNat) →
          exec (.ref ln disp) s = .fault (.storeOutsideOut (max s.olen.toNat s.cfg.outSize)))
      ∧ (∀ r5 g5 b5 x, s.cfg.outSize < 3 * s.ei.toNat + 3 →
          exec (.pal16 r5 g5 b5 x) s = .fault (.storeOutsideOut (max (3 * s.ei.toNat) s.cfg.outSize)))
      ∧ (∀ p0 p1, s.cfg.outSize < 2 * s.bi.toNat + 2 →
          exec (.pix4 p0 p1) s = .fault (.storeOutsideOut (max (2 * s.bi.toNat) s.cfg.outSize)))
      ∧ (∀ p, s.cfg.outSize ≤ s.bi.toNat → exec (.pix8 p) s = .fault (.storeOutsideOut s.bi.toNat))
      ∧ (∀ i, s.cfg.outSize ≤ s.bi.toNat → (s.latch.bpp = 4 → s.latch.mask ≠ 0 ∧ s.pix.isSome) →
          exec (.idx i) s = .fault (.storeOutsideOut s.bi.toNat))

/-! ### Errors -/

/-- R253: taking an error writes `ERR`, `ERR_INFO` (saturated), `OUT_LEN`, `IN_USED` and `STATE`, takes every value from OUT, and
changes nothing else. -/
def Obligations.ErrorEntryWritesOnlyTheResultRegisters : Prop :=
  ∀ (e : ErrCode) (info : Nat) (s : State),
    ∃ t, conclude s (.error (.err e info)) = .next t
      ∧ t = { s with
              err := e, errInfo := t.errInfo, outLen := 0, inUsed := 0, run := .error, outMem := t.outMem }
      ∧ t.errInfo.toNat = min info (2 ^ 32 - 1)
      ∧ ∀ a, t.outMem.read a = none

/-- R245: in every state of the invariant, an `InputUnderrun` that a step of the block raises reports `SRC_LEN`. The equality
is the spec's inference in R245. -/
def Obligations.UnderrunReportsTheWindowLength : Prop :=
  ∀ s t : State, s.Inv → s.host = [] → s.busy = true → step s = .next t → t.err = .inputUnderrun →
    t.errInfo = s.srcLen

/-- R141, R169, R184, R197, R204, R252: which errors each command can end with. -/
def Obligations.EachCommandRaisesOnlyItsErrors : Prop :=
  ∀ (c : Config) (bpp : BitVec 4) (mask : BitVec 1) (w : List Byte) (e : ErrCode) (info : Nat),
    (commandResult .lzDecomp c bpp mask w = .error (.err e info) →
        e ∈ [.inputUnderrun, .unsupportedMethod, .outputOverflow, .badBackref])
      ∧ (commandResult .lzComp c bpp mask w = .error (.err e info) → e ∈ [.lengthOverflow, .outputOverflow])
      ∧ (commandResult .rdComp c bpp mask w = .error (.err e info) →
          e ∈ [.inputUnderrun, .unknownCompressionType, .outputOverflow, .badBackref])
      ∧ (commandResult .palDec c bpp mask w = .error (.err e info) → e = .outputOverflow)
      ∧ (commandResult .tileDec c bpp mask w = .error (.err e info) → e = .outputOverflow)
      ∧ (commandResult .tileEnc c bpp mask w = .error (.err e info) →
          e ∈ [.badLength, .outputOverflow, .encodingError])

/-! ### Decoding -/

/-- Words written out from the tables of 30_encoding.md (R91, R93, R95, R99, R101, R105) decode to what they stand for. -/
def Obligations.TableWordsDecode : Prop :=
  decode bgr555 .headerWrapped [0x00, 0x04, 0x00, 0x00] = .ok (.hdrRaw 4, [])
    ∧ decode bgr555 .headerDirect [0x10, 0x0B, 0x00, 0x00] = .ok (.hdrLz 0 11, [])
    ∧ decode bgr555 .headerDirect [0x20, 0x0B, 0x00, 0x00] = .error (.unsupportedMethod 0x20)
    ∧ decode bgr555 .headerWrapped [0x11, 0x03, 0x00, 0x00] = .error (.unknownType 0x11)
    ∧ decode bgr555 .flag [0x80] = .ok (.flag 0x80, [])
    ∧ decode bgr555 .tokenRef [0x60, 0x02] = .ok (.ref 6 2, [])
    ∧ decode bgr555 .pal16 [0x34, 0x12] = .ok (.pal16 20 17 4 0, [])
    ∧ decode bgr555 .pix4 [0x21] = .ok (.pix4 1 2, [])
    ∧ decode bgr555 .command [4] = .ok (.palDec, [])
    ∧ decode bgr555 .command [7] = .error .reservedOpcode

/-- R90 to R105: for every layout of the colour fields, every context and every instruction that may stand in it, decoding
the encoding gives back the instruction, with every operand, and the bytes after it. -/
def Obligations.DecodingInvertsEncoding : Prop :=
  ∀ (l : PalLayout) (c : Ctx) (i : Instr) (rest : List Byte), l.wf → i.fits c = true →
    decode l c (encode l i ++ rest) = .ok (i, rest)

/-- R90 to R105: what a context decodes is an instruction that may stand in it, as long as the context says, and its encoding
is exactly the bytes that were read: each word has one meaning in its context. -/
def Obligations.EncodingInvertsDecoding : Prop :=
  ∀ (l : PalLayout) (c : Ctx) (bytes rest : List Byte) (i : Instr), l.wf →
    decode l c bytes = .ok (i, rest) →
      bytes = encode l i ++ rest ∧ i.fits c = true ∧ (encode l i).length = c.size

/-- The step runs the decoded instruction: when the element the block reads next (its context, position and, after the token
select, its state) is fetched whole and decodes to `i`, the step is `exec i` in that state. -/
def Obligations.StepRunsTheDecodedElement : Prop :=
  ∀ (s t : State) (c : Ctx) (k : Nat) (bytes rest : List Byte) (i : Instr),
    s.host = [] → nextElement s = some (c, k, t) → fetchBytes c.size k t = .ok bytes →
    decode s.cfg.pal c bytes = .ok (i, rest) → step s = exec i t

/-! ### Invariants and whole-machine rules -/

/-- The invariant holds after reset, for all parameters R5 allows. -/
def Obligations.ResetMeetsTheInvariant : Prop :=
  (∀ c : Config, c.wf → (State.resetWith c).Inv) ∧ State.reset.Inv

/-- Every step, of the block or of the host, keeps the invariant (R27 to R31, R35, R37, R45, R69, R77, R220, R221). -/
def Obligations.EveryStepKeepsTheInvariant : Prop :=
  ∀ s t : State, s.Inv → step s = .next t → t.Inv

/-- R69, R280: in a state of the invariant the block never stops: with no host move to make, a step always has a next state;
and no step, whatever the host does, stores outside OUT. -/
def Obligations.BlockNeverStops : Prop :=
  ∀ s : State, s.Inv →
    (s.host = [] → ∃ t, step s = .next t) ∧ ∀ a, step s ≠ .fault (.storeOutsideOut a)

/-- R40, R74, R223, R253: a step of the block changes neither the parameters, nor the registers the host writes, nor IN, nor
the host's own fields, nor the draw of free values (log 4). -/
def Obligations.BlockLeavesTheHostsStateAlone : Prop :=
  ∀ s t : State, s.host = [] → step s = .next t → SameInputs s t ∧ t.draw = s.draw

/-- R46, R224: without a reset nothing returns to `IDLE`; only a `START` write leaves `IDLE`, `DONE` or `ERROR`; and the parameters
never change (R42). That the block's error at `START` is reached in the same step is the model's choice (log 1). -/
def Obligations.StatusChangesOnlyAtStartEndAndReset : Prop :=
  ∀ s t : State, step s = .next t →
    t.cfg = s.cfg
      ∧ (t.run = .idle → s.run = .idle ∨ s.host.head? = some .reset)
      ∧ (s.busy = false → t.run ≠ s.run →
          s.host.head? = some .reset ∨ ∃ v : Word, v.getLsbD 0 = true ∧ s.host.head? = some (.writeReg 0 v))

/-- R277: from every state of the invariant a running command ends, in `DONE` or in `ERROR`. -/
def Obligations.EveryCommandEnds : Prop :=
  ∀ s : State, s.Inv → s.host = [] → s.busy = true →
    ∃ k t, Reaches k s t ∧ (t.run = .done ∨ t.run = .error)

/-! ### Commands: the steps reach what the functions say (R10) -/

/-- R144: run step by step, `LZ_DECOMP` ends with the result of its function on its window. -/
def Obligations.LzDecompStepsReachItsFunction : Prop :=
  ∀ s : State, s.cfg.wf → s.host = [] → CanStart .lzDecomp s →
    RunsTo .lzDecomp s (lzDecompress (inputOf s) s.cfg.outSize)

/-- R160 to R169: run step by step, `LZ_COMP` ends with the header and the groups of the tokens its matcher gives. -/
def Obligations.LzCompStepsReachItsFunction : Prop :=
  ∀ s : State, s.cfg.wf → s.host = [] → CanStart .lzComp s →
    RunsTo .lzComp s (lzCompress s.cfg.matcher (inputOf s) s.cfg.outSize)

/-- R181 to R183: run step by step, `RD_COMP` ends with the result of its function on its window. -/
def Obligations.RdCompStepsReachItsFunction : Prop :=
  ∀ s : State, s.cfg.wf → s.host = [] → CanStart .rdComp s →
    RunsTo .rdComp s (readCompressed (inputOf s) s.cfg.outSize)

/-- R191 to R195: run step by step, `PAL_DEC` ends with one scaled triple per whole entry of its window. -/
def Obligations.PalDecStepsReachItsFunction : Prop :=
  ∀ s : State, s.cfg.wf → s.host = [] → CanStart .palDec s →
    RunsTo .palDec s (decodePalette s.cfg.pal (inputOf s) s.cfg.outSize)

/-- R201 to R204: run step by step, `TILE_DEC` ends with the pixels of the whole tiles of its window. -/
def Obligations.TileDecStepsReachItsFunction : Prop :=
  ∀ s : State, s.cfg.wf → s.host = [] → CanStart .tileDec s →
    RunsTo .tileDec s (decodeTiles s.bpp (inputOf s) s.cfg.outSize)

/-- R206 to R210: run step by step, `TILE_ENC` ends with the packed pixels of its window, or with the error of the lowest
offending pixel. -/
def Obligations.TileEncStepsReachItsFunction : Prop :=
  ∀ s : State, s.cfg.wf → s.host = [] → CanStart .tileEnc s →
    RunsTo .tileEnc s (encodeTiles s.bpp s.mask (inputOf s) s.cfg.outSize)

/-! ### Laws of the codecs -/

/-- R165, R163: the matcher, whichever it is, answers "literal" or a copy that the decompressor reproduces. -/
def Obligations.MatcherAnswersOnlyLegalCopies : Prop :=
  ∀ (m : MatcherChoice) (bytes : List Byte) (i : Nat), i < bytes.length →
    matcher m bytes i = (0, 0)
      ∨ (3 ≤ (matcher m bytes i).1
          ∧ (matcher m bytes i).1 ≤ min 18 (bytes.length - i)
          ∧ (matcher m bytes i).2 < min i 4096
          ∧ ∀ k, k < (matcher m bytes i).1 →
              bytes[i + k]? = bytes[i - (matcher m bytes i).2 - 1 + k]?)

/-- R166: the reference matcher returns the longest match available and, among equally long ones, the nearest; and holding
it to R163 changes nothing. -/
def Obligations.ReferenceMatcherTakesTheLongestNearest : Prop :=
  ∀ (bytes : List Byte) (i : Nat), i < bytes.length →
    matcher .reference bytes i = matcherRef bytes i
      ∧ (matcherRef bytes i = (0, 0) → ∀ d, d < min i 4096 → matchLen bytes i d (min 18 (bytes.length - i)) < 3)
      ∧ (matcherRef bytes i ≠ (0, 0) →
          matchLen bytes i (matcherRef bytes i).2 (min 18 (bytes.length - i)) = (matcherRef bytes i).1
            ∧ ∀ d, d < min i 4096 →
                matchLen bytes i d (min 18 (bytes.length - i)) ≤ (matcherRef bytes i).1
                  ∧ (d < (matcherRef bytes i).2 →
                      matchLen bytes i d (min 18 (bytes.length - i)) < (matcherRef bytes i).1))

/-- R162: for every input below 2^24 bytes and every conforming matcher, decompressing the whole compressed output yields
exactly the input and consumes exactly all of it. -/
def Obligations.DecompressionInvertsCompression : Prop :=
  ∀ (m : MatcherChoice) (bytes : List Byte) (outSize : Nat), bytes.length < 2 ^ 24 → bytes.length ≤ outSize →
    lzDecompress (compressedBytes m bytes) outSize = .ok (bytes, (compressedBytes m bytes).length)

/-- R171 (the spec's inference): the wrapper reads the compressor's output too. -/
def Obligations.WrapperReadsCompressedOutput : Prop :=
  ∀ (m : MatcherChoice) (bytes : List Byte) (outSize : Nat), bytes.length < 2 ^ 24 → bytes.length ≤ outSize →
    readCompressed (compressedBytes m bytes) outSize = .ok (bytes, (compressedBytes m bytes).length)

/-- R186 (the spec's inference), R182: on a window whose byte 0 is 0x10 the two decompressing commands behave identically; on one
with 0x00 the direct command rejects it and the wrapper copies the bytes after the header, or raises its own two errors; on
0x11 to 0x1F the wrapper rejects what the direct command takes; on every other byte 0 each raises its own error. -/
def Obligations.DecompressionCommandsCompare : Prop :=
  ∀ (w : List Byte) (outSize : Nat), 4 ≤ w.length →
    (w.getD 0 0 = 0x10 → readCompressed w outSize = lzDecompress w outSize)
      ∧ (w.getD 0 0 = 0x00 →
          lzDecompress w outSize = .error (.err .unsupportedMethod 0)
            ∧ if w.length < 4 + lengthField w then readCompressed w outSize = .error (.err .inputUnderrun w.length)
              else if outSize < lengthField w then
                readCompressed w outSize = .error (.err .outputOverflow (lengthField w))
              else
                ∃ out, readCompressed w outSize = .ok (out, 4 + lengthField w)
                  ∧ out.length = lengthField w ∧ ∀ k, k < lengthField w → out[k]? = w[4 + k]?)
      ∧ (0x11 ≤ (w.getD 0 0).toNat → (w.getD 0 0).toNat ≤ 0x1F →
          readCompressed w outSize = .error (.err .unknownCompressionType (w.getD 0 0).toNat)
            ∧ lzDecompress w outSize = lzStream w outSize)
      ∧ (w.getD 0 0 ≠ 0x00 → ((w.getD 0 0).toNat < 0x10 ∨ 0x20 ≤ (w.getD 0 0).toNat) →
          lzDecompress w outSize = .error (.err .unsupportedMethod (w.getD 0 0).toNat)
            ∧ readCompressed w outSize = .error (.err .unknownCompressionType (w.getD 0 0).toNat))

/-- R142, R185 (the spec's inference): a decompression that succeeds gives exactly as many bytes as the header says, fits OUT,
and uses no more than the window. -/
def Obligations.DecompressedLengthIsExact : Prop :=
  ∀ (w out : List Byte) (outSize used : Nat),
    (lzDecompress w outSize = .ok (out, used) →
        out.length = lengthField w ∧ out.length ≤ outSize ∧ 4 ≤ used ∧ used ≤ w.length)
      ∧ (readCompressed w outSize = .ok (out, used) →
          out.length = lengthField w ∧ out.length ≤ outSize ∧ 4 ≤ used ∧ used ≤ w.length)

/-- R145 (the spec's inference), R182, R191, R201: window bytes from `IN_USED` on are never read. For the two decompressing
commands, on either path, any bytes in their place give the same result; for `PAL_DEC` and `TILE_DEC`, whose counts come from
the window's length, as many other bytes do. (`LZ_COMP` and `TILE_ENC` use the whole window.) -/
def Obligations.TrailingBytesAreNeverRead : Prop :=
  ∀ (w tail out : List Byte) (outSize used : Nat),
    (lzDecompress w outSize = .ok (out, used) → lzDecompress (w.take used ++ tail) outSize = .ok (out, used))
      ∧ (readCompressed w outSize = .ok (out, used) → readCompressed (w.take used ++ tail) outSize = .ok (out, used))
      ∧ (∀ l : PalLayout, decodePalette l w outSize = .ok (out, used) → used + tail.length = w.length →
          decodePalette l (w.take used ++ tail) outSize = .ok (out, used))
      ∧ (∀ bpp : BitVec 4, decodeTiles bpp w outSize = .ok (out, used) → used + tail.length = w.length →
          decodeTiles bpp (w.take used ++ tail) outSize = .ok (out, used))

/-- R168 (the spec's inference): with `t` tokens of which `r` are copies the compressed size is `4 + ceil(t / 8) + t + r`, and at
most `4 + n + ceil(n / 8)`. -/
def Obligations.CompressedSizeIsBounded : Prop :=
  ∀ (m : MatcherChoice) (bytes : List Byte),
    let ts := compressTokens m bytes bytes.length 0
    (compressedBytes m bytes).length = 4 + (ts.length + 7) / 8 + ts.length + ts.countP isRef
      ∧ (compressedBytes m bytes).length ≤ 4 + bytes.length + (bytes.length + 7) / 8

/-- R211 (the spec's inference): packing, then unpacking, gives back every tile sequence in range; with masking, every index
comes back as its low four bits. -/
def Obligations.UnpackingInvertsPacking : Prop :=
  ∀ (mask : BitVec 1) (n : Nat) (w : List Byte), w.length = 64 * n →
    ((∀ x ∈ w, x.toNat < 16) →
        ∃ p, encodeTiles 4 mask w (32 * n) = .ok (p, 64 * n) ∧ decodeTiles 4 p (64 * n) = .ok (w, 32 * n))
      ∧ (∃ p, encodeTiles 8 mask w (64 * n) = .ok (p, 64 * n) ∧ decodeTiles 8 p (64 * n) = .ok (w, 64 * n))
      ∧ (∃ p, encodeTiles 4 1 w (32 * n) = .ok (p, 64 * n)
          ∧ decodeTiles 4 p (64 * n) = .ok (w.map (fun x => x &&& 0x0F), 32 * n))

/-- R213 (the spec's inference): unpacking, then packing, gives back every packed tile sequence, strict or masking. -/
def Obligations.PackingInvertsUnpacking : Prop :=
  ∀ (mask : BitVec 1) (n : Nat) (p : List Byte),
    (p.length = 32 * n →
        ∃ w, decodeTiles 4 p (64 * n) = .ok (w, 32 * n) ∧ encodeTiles 4 mask w (32 * n) = .ok (p, 64 * n))
      ∧ (p.length = 64 * n →
          ∃ w, decodeTiles 8 p (64 * n) = .ok (w, 64 * n) ∧ encodeTiles 8 mask w (64 * n) = .ok (p, 64 * n))
end

