-- ==== Sys2Proof/Laws/Memory.lean ====
section
/-! SUPPORT. The basic laws of a byte memory: reads after writes, and that every operation keeps the canonical form. -/

namespace Sys2Proof.Machine

@[simp] theorem Memory.read_nil (a : Nat) : Memory.read [] a = none := rfl

/-- A read after a write to the same address gives the value written. -/
@[simp] theorem Memory.read_write_same (m : Memory) (a : Nat) (v : Byte) : (m.write a v).read a = some v := by
  induction m with
  | nil => simp [Memory.write, Memory.read]
  | cons c m ih =>
    obtain ⟨b, u⟩ := c
    unfold Memory.write
    split
    · simp [Memory.read]
    · split
      · simp [Memory.read]
      · rename_i _ hne
        simp [Memory.read, hne, ih]

/-- A write leaves every other address alone. -/
theorem Memory.read_write_other (m : Memory) {a b : Nat} (v : Byte) (h : b ≠ a) :
    (m.write a v).read b = m.read b := by
  induction m with
  | nil => simp [Memory.write, Memory.read, h]
  | cons c m ih =>
    obtain ⟨k, u⟩ := c
    unfold Memory.write
    split
    · simp [Memory.read, h]
    · split
      · rename_i _ heq
        subst heq
        simp [Memory.read, h]
      · simp [Memory.read, ih]

/-- Which addresses are listed after a write. -/
theorem Memory.mem_write {m : Memory} {a : Nat} {v : Byte} {c : Host.Cell} (h : c ∈ m.write a v) :
    c = (a, v) ∨ c ∈ m := by
  induction m with
  | nil => simpa [Memory.write] using h
  | cons d m ih =>
    obtain ⟨k, u⟩ := d
    unfold Memory.write at h
    split at h
    · simpa using h
    · split at h
      · rcases List.mem_cons.1 h with h | h
        · exact .inl h
        · exact .inr (List.mem_cons_of_mem _ h)
      · rcases List.mem_cons.1 h with h | h
        · exact .inr (h ▸ List.mem_cons_self)
        · exact (ih h).imp_right (List.mem_cons_of_mem _)

theorem Memory.wf_cons {b : Nat} {u : Byte} {m : Memory} :
    Memory.wf ((b, u) :: m) ↔ (∀ c ∈ m, b < c.1) ∧ m.wf := by
  simp [Memory.wf]

/-- A write keeps the canonical form. -/
theorem Memory.write_wf {m : Memory} (a : Nat) (v : Byte) (h : m.wf) : (m.write a v).wf := by
  induction m with
  | nil => simp [Memory.write, Memory.wf]
  | cons c m ih =>
    obtain ⟨b, u⟩ := c
    obtain ⟨hb, hm⟩ := Memory.wf_cons.1 h
    unfold Memory.write
    split
    · rename_i hlt
      refine Memory.wf_cons.2 ⟨fun c hc => ?_, h⟩
      rcases List.mem_cons.1 hc with rfl | hc
      · exact hlt
      · exact hlt.trans (hb c hc)
    · split
      · rename_i _ heq
        subst heq
        exact Memory.wf_cons.2 ⟨hb, hm⟩
      · refine Memory.wf_cons.2 ⟨fun c hc => ?_, ih hm⟩
        rcases Memory.mem_write hc with rfl | hc
        · change b < a
          omega
        · exact hb c hc

/-- Storing consecutive bytes keeps the canonical form. -/
theorem Memory.writeAll_wf {m : Memory} (a : Nat) (vs : List Byte) (h : m.wf) : (m.writeAll a vs).wf := by
  induction vs generalizing m a with
  | nil => exact h
  | cons v vs ih => exact ih (a + 1) (Memory.write_wf a v h)

/-- Taking the values above an address away keeps the canonical form. -/
theorem Memory.below_wf {m : Memory} (n : Nat) (h : m.wf) : (m.below n).wf :=
  List.Pairwise.sublist (List.filter_sublist.map _) h

theorem Memory.write_fitsIn {m : Memory} {a size : Nat} (v : Byte) (h : m.fitsIn size) (ha : a < size) :
    (m.write a v).fitsIn size := fun c hc => by
  rcases Memory.mem_write hc with rfl | hc
  · exact ha
  · exact h c hc

theorem Memory.below_fitsIn {m : Memory} {size : Nat} (n : Nat) (h : m.fitsIn size) : (m.below n).fitsIn size :=
  fun c hc => h c (List.mem_of_mem_filter hc)

/-- A read from what is left below an address. -/
theorem Memory.read_below (m : Memory) (n a : Nat) : (m.below n).read a = if a < n then m.read a else none := by
  induction m with
  | nil => simp [Memory.below]
  | cons c m ih =>
    obtain ⟨b, u⟩ := c
    by_cases hb : b < n
    · rw [show Memory.below ((b, u) :: m) n = (b, u) :: Memory.below m n by simp [Memory.below, hb]]
      by_cases hab : a = b
      · subst hab
        simp [Memory.read, hb]
      · simp [Memory.read, hab, ih]
    · rw [show Memory.below ((b, u) :: m) n = Memory.below m n by simp [Memory.below, hb], ih]
      by_cases ha : a < n
      · have hab : a ≠ b := by omega
        simp [Memory.read, hab]
      · simp [ha]

/-- Storing consecutive bytes leaves every address outside them alone. -/
theorem Memory.read_writeAll_other (m : Memory) {a b : Nat} (vs : List Byte) (h : b < a ∨ a + vs.length ≤ b) :
    (m.writeAll a vs).read b = m.read b := by
  induction vs generalizing m a with
  | nil => rfl
  | cons v vs ih =>
    simp only [List.length_cons] at h
    rw [Memory.writeAll, ih _ (by omega), Memory.read_write_other m v (by omega)]

/-- Storing consecutive bytes puts each at its address. -/
theorem Memory.read_writeAll (m : Memory) (a : Nat) (vs : List Byte) {k : Nat} (h : k < vs.length) :
    (m.writeAll a vs).read (a + k) = some vs[k] := by
  induction vs generalizing m a k with
  | nil => simp at h
  | cons v vs ih =>
    cases k with
    | zero => rw [Memory.writeAll, Nat.add_zero, Memory.read_writeAll_other _ vs (by omega)]; simp
    | succ k =>
      simp only [List.length_cons, Nat.add_lt_add_iff_right] at h
      rw [Memory.writeAll, show a + (k + 1) = a + 1 + k by omega, ih _ _ h]
      rfl

/-! ### Memories that hold exactly the bytes below a bound -/

theorem Memory.holdsExactly_nil : Memory.holdsExactly [] 0 := rfl

theorem Memory.holdsExactly_wf {m : Memory} {n : Nat} (h : m.holdsExactly n) : m.wf := by
  unfold Memory.wf
  rw [show m.map (·.1) = List.range n from h]
  exact List.pairwise_lt_range

theorem Memory.holdsExactly_fitsIn {m : Memory} {n size : Nat} (h : m.holdsExactly n) (hn : n ≤ size) :
    m.fitsIn size := fun c hc => by
  have : c.1 ∈ m.map (·.1) := List.mem_map_of_mem hc
  rw [show m.map (·.1) = List.range n from h, List.mem_range] at this
  omega

/-- A write above every listed address goes to the end. -/
theorem Memory.write_above {m : Memory} {a : Nat} (v : Byte) (h : m.fitsIn a) : m.write a v = m ++ [(a, v)] := by
  induction m with
  | nil => rfl
  | cons c m ih =>
    obtain ⟨b, u⟩ := c
    have hb : b < a := h (b, u) List.mem_cons_self
    rw [Memory.write, if_neg (by omega), if_neg (by omega), ih (fun c hc => h c (List.mem_cons_of_mem _ hc))]
    rfl

/-- A write over a listed address lists the same addresses. -/
theorem Memory.write_listed {m : Memory} {a : Nat} (v : Byte) (hw : m.wf) (h : a ∈ m.map (·.1)) :
    (m.write a v).map (·.1) = m.map (·.1) := by
  induction m with
  | nil => simp at h
  | cons c m ih =>
    obtain ⟨b, u⟩ := c
    obtain ⟨hb, hm⟩ := Memory.wf_cons.1 hw
    unfold Memory.write
    rcases List.mem_cons.1 h with rfl | h
    · simp
    · obtain ⟨c, hc, rfl⟩ := List.mem_map.1 h
      have := hb c hc
      rw [if_neg (by omega), if_neg (by omega), List.map_cons, List.map_cons, ih hm h]

/-- Storing the next byte of an output. -/
theorem Memory.holdsExactly_write_next {m : Memory} {n : Nat} (v : Byte) (h : m.holdsExactly n) :
    (m.write n v).holdsExactly (n + 1) := by
  have hf := Memory.holdsExactly_fitsIn h le_rfl
  unfold Memory.holdsExactly
  rw [Memory.write_above v hf, List.map_append, show m.map (·.1) = List.range n from h, List.range_succ]
  rfl

/-- Storing the next bytes of an output. -/
theorem Memory.holdsExactly_writeAll_next {m : Memory} {n : Nat} (vs : List Byte) (h : m.holdsExactly n) :
    (m.writeAll n vs).holdsExactly (n + vs.length) := by
  induction vs generalizing m n with
  | nil => exact h
  | cons v vs ih =>
    have := ih (Memory.holdsExactly_write_next v h)
    rwa [show n + 1 + vs.length = n + (v :: vs).length by simp only [List.length_cons]; omega] at this

/-- Storing over a byte of an output. -/
theorem Memory.holdsExactly_write_old {m : Memory} {n a : Nat} (v : Byte) (h : m.holdsExactly n) (ha : a < n) :
    (m.write a v).holdsExactly n := by
  unfold Memory.holdsExactly
  rw [Memory.write_listed v (Memory.holdsExactly_wf h)
    (by rw [show m.map (·.1) = List.range n from h]; exact List.mem_range.2 ha)]
  exact h

/-- Nothing is taken away from an output of the right length. -/
theorem Memory.below_of_holdsExactly {m : Memory} {n : Nat} (h : m.holdsExactly n) : m.below n = m :=
  List.filter_eq_self.2 fun c hc => by simpa using Memory.holdsExactly_fitsIn h le_rfl c hc

/-- An address above every listed one holds no value. -/
theorem Memory.read_eq_none_of_above {m : Memory} {a : Nat} (h : m.fitsIn a) : m.read a = none := by
  induction m with
  | nil => rfl
  | cons c m ih =>
    obtain ⟨b, u⟩ := c
    have hb : b < a := h (b, u) List.mem_cons_self
    rw [Memory.read, if_neg (by omega), ih fun c hc => h c (List.mem_cons_of_mem _ hc)]

end Sys2Proof.Machine
end

