-- ==== Sys2Proof/Laws/State.lean ====
section
/-! SUPPORT. The small lemmas of the named updates of the state: one per field and update, so that no later proof
unfolds a record update. Updates written as records reduce by themselves. -/

namespace Sys2Proof.Machine

/-! ### raiseError -/

@[simp] theorem raiseError_cfg (e : ErrCode) (info : Nat) (s : State) : (raiseError e info s).cfg = s.cfg := rfl
@[simp] theorem raiseError_opc (e : ErrCode) (info : Nat) (s : State) : (raiseError e info s).opc = s.opc := rfl
@[simp] theorem raiseError_bpp (e : ErrCode) (info : Nat) (s : State) : (raiseError e info s).bpp = s.bpp := rfl
@[simp] theorem raiseError_mask (e : ErrCode) (info : Nat) (s : State) : (raiseError e info s).mask = s.mask := rfl
@[simp] theorem raiseError_srcOff (e : ErrCode) (info : Nat) (s : State) : (raiseError e info s).srcOff = s.srcOff := rfl
@[simp] theorem raiseError_srcLen (e : ErrCode) (info : Nat) (s : State) : (raiseError e info s).srcLen = s.srcLen := rfl
@[simp] theorem raiseError_run (e : ErrCode) (info : Nat) (s : State) : (raiseError e info s).run = .error := rfl
@[simp] theorem raiseError_err (e : ErrCode) (info : Nat) (s : State) : (raiseError e info s).err = e := rfl
@[simp] theorem raiseError_errInfo (e : ErrCode) (info : Nat) (s : State) : (raiseError e info s).errInfo = saturate info := rfl
@[simp] theorem raiseError_outLen (e : ErrCode) (info : Nat) (s : State) : (raiseError e info s).outLen = 0 := rfl
@[simp] theorem raiseError_inUsed (e : ErrCode) (info : Nat) (s : State) : (raiseError e info s).inUsed = 0 := rfl
@[simp] theorem raiseError_latch (e : ErrCode) (info : Nat) (s : State) : (raiseError e info s).latch = s.latch := rfl
@[simp] theorem raiseError_ip (e : ErrCode) (info : Nat) (s : State) : (raiseError e info s).ip = s.ip := rfl
@[simp] theorem raiseError_ulen (e : ErrCode) (info : Nat) (s : State) : (raiseError e info s).ulen = s.ulen := rfl
@[simp] theorem raiseError_olen (e : ErrCode) (info : Nat) (s : State) : (raiseError e info s).olen = s.olen := rfl
@[simp] theorem raiseError_flg (e : ErrCode) (info : Nat) (s : State) : (raiseError e info s).flg = s.flg := rfl
@[simp] theorem raiseError_fcnt (e : ErrCode) (info : Nat) (s : State) : (raiseError e info s).fcnt = s.fcnt := rfl
@[simp] theorem raiseError_crem (e : ErrCode) (info : Nat) (s : State) : (raiseError e info s).crem = s.crem := rfl
@[simp] theorem raiseError_csrc (e : ErrCode) (info : Nat) (s : State) : (raiseError e info s).csrc = s.csrc := rfl
@[simp] theorem raiseError_ci (e : ErrCode) (info : Nat) (s : State) : (raiseError e info s).ci = s.ci := rfl
@[simp] theorem raiseError_eo (e : ErrCode) (info : Nat) (s : State) : (raiseError e info s).eo = s.eo := rfl
@[simp] theorem raiseError_fpos (e : ErrCode) (info : Nat) (s : State) : (raiseError e info s).fpos = s.fpos := rfl
@[simp] theorem raiseError_fk (e : ErrCode) (info : Nat) (s : State) : (raiseError e info s).fk = s.fk := rfl
@[simp] theorem raiseError_facc (e : ErrCode) (info : Nat) (s : State) : (raiseError e info s).facc = s.facc := rfl
@[simp] theorem raiseError_ei (e : ErrCode) (info : Nat) (s : State) : (raiseError e info s).ei = s.ei := rfl
@[simp] theorem raiseError_bi (e : ErrCode) (info : Nat) (s : State) : (raiseError e info s).bi = s.bi := rfl
@[simp] theorem raiseError_pix (e : ErrCode) (info : Nat) (s : State) : (raiseError e info s).pix = s.pix := rfl
@[simp] theorem raiseError_inMem (e : ErrCode) (info : Nat) (s : State) : (raiseError e info s).inMem = s.inMem := rfl
@[simp] theorem raiseError_outMem (e : ErrCode) (info : Nat) (s : State) : (raiseError e info s).outMem = [] := rfl
@[simp] theorem raiseError_draw (e : ErrCode) (info : Nat) (s : State) : (raiseError e info s).draw = s.draw := rfl
@[simp] theorem raiseError_host (e : ErrCode) (info : Nat) (s : State) : (raiseError e info s).host = s.host := rfl
@[simp] theorem raiseError_hostData (e : ErrCode) (info : Nat) (s : State) : (raiseError e info s).hostData = s.hostData := rfl

/-! ### finishDone -/

@[simp] theorem finishDone_cfg (n used : Nat) (s : State) : (finishDone n used s).cfg = s.cfg := rfl
@[simp] theorem finishDone_opc (n used : Nat) (s : State) : (finishDone n used s).opc = s.opc := rfl
@[simp] theorem finishDone_bpp (n used : Nat) (s : State) : (finishDone n used s).bpp = s.bpp := rfl
@[simp] theorem finishDone_mask (n used : Nat) (s : State) : (finishDone n used s).mask = s.mask := rfl
@[simp] theorem finishDone_srcOff (n used : Nat) (s : State) : (finishDone n used s).srcOff = s.srcOff := rfl
@[simp] theorem finishDone_srcLen (n used : Nat) (s : State) : (finishDone n used s).srcLen = s.srcLen := rfl
@[simp] theorem finishDone_run (n used : Nat) (s : State) : (finishDone n used s).run = .done := rfl
@[simp] theorem finishDone_err (n used : Nat) (s : State) : (finishDone n used s).err = .none := rfl
@[simp] theorem finishDone_errInfo (n used : Nat) (s : State) : (finishDone n used s).errInfo = 0 := rfl
@[simp] theorem finishDone_outLen (n used : Nat) (s : State) : (finishDone n used s).outLen = BitVec.ofNat 32 n := rfl
@[simp] theorem finishDone_inUsed (n used : Nat) (s : State) : (finishDone n used s).inUsed = BitVec.ofNat 32 used := rfl
@[simp] theorem finishDone_latch (n used : Nat) (s : State) : (finishDone n used s).latch = s.latch := rfl
@[simp] theorem finishDone_ip (n used : Nat) (s : State) : (finishDone n used s).ip = s.ip := rfl
@[simp] theorem finishDone_ulen (n used : Nat) (s : State) : (finishDone n used s).ulen = s.ulen := rfl
@[simp] theorem finishDone_olen (n used : Nat) (s : State) : (finishDone n used s).olen = s.olen := rfl
@[simp] theorem finishDone_flg (n used : Nat) (s : State) : (finishDone n used s).flg = s.flg := rfl
@[simp] theorem finishDone_fcnt (n used : Nat) (s : State) : (finishDone n used s).fcnt = s.fcnt := rfl
@[simp] theorem finishDone_crem (n used : Nat) (s : State) : (finishDone n used s).crem = s.crem := rfl
@[simp] theorem finishDone_csrc (n used : Nat) (s : State) : (finishDone n used s).csrc = s.csrc := rfl
@[simp] theorem finishDone_ci (n used : Nat) (s : State) : (finishDone n used s).ci = s.ci := rfl
@[simp] theorem finishDone_eo (n used : Nat) (s : State) : (finishDone n used s).eo = s.eo := rfl
@[simp] theorem finishDone_fpos (n used : Nat) (s : State) : (finishDone n used s).fpos = s.fpos := rfl
@[simp] theorem finishDone_fk (n used : Nat) (s : State) : (finishDone n used s).fk = s.fk := rfl
@[simp] theorem finishDone_facc (n used : Nat) (s : State) : (finishDone n used s).facc = s.facc := rfl
@[simp] theorem finishDone_ei (n used : Nat) (s : State) : (finishDone n used s).ei = s.ei := rfl
@[simp] theorem finishDone_bi (n used : Nat) (s : State) : (finishDone n used s).bi = s.bi := rfl
@[simp] theorem finishDone_pix (n used : Nat) (s : State) : (finishDone n used s).pix = s.pix := rfl
@[simp] theorem finishDone_inMem (n used : Nat) (s : State) : (finishDone n used s).inMem = s.inMem := rfl
@[simp] theorem finishDone_outMem (n used : Nat) (s : State) : (finishDone n used s).outMem = s.outMem.below n := rfl
@[simp] theorem finishDone_draw (n used : Nat) (s : State) : (finishDone n used s).draw = s.draw := rfl
@[simp] theorem finishDone_host (n used : Nat) (s : State) : (finishDone n used s).host = s.host := rfl
@[simp] theorem finishDone_hostData (n used : Nat) (s : State) : (finishDone n used s).hostData = s.hostData := rfl

/-! ### beginCommand -/

@[simp] theorem beginCommand_cfg (opc : BitVec 3) (p : Phase) (s : State) : (beginCommand opc p s).cfg = s.cfg := rfl
@[simp] theorem beginCommand_opc (opc : BitVec 3) (p : Phase) (s : State) : (beginCommand opc p s).opc = s.opc := rfl
@[simp] theorem beginCommand_bpp (opc : BitVec 3) (p : Phase) (s : State) : (beginCommand opc p s).bpp = s.bpp := rfl
@[simp] theorem beginCommand_mask (opc : BitVec 3) (p : Phase) (s : State) : (beginCommand opc p s).mask = s.mask := rfl
@[simp] theorem beginCommand_srcOff (opc : BitVec 3) (p : Phase) (s : State) : (beginCommand opc p s).srcOff = s.srcOff := rfl
@[simp] theorem beginCommand_srcLen (opc : BitVec 3) (p : Phase) (s : State) : (beginCommand opc p s).srcLen = s.srcLen := rfl
@[simp] theorem beginCommand_run (opc : BitVec 3) (p : Phase) (s : State) : (beginCommand opc p s).run = .busy p := rfl
@[simp] theorem beginCommand_err (opc : BitVec 3) (p : Phase) (s : State) : (beginCommand opc p s).err = .none := rfl
@[simp] theorem beginCommand_errInfo (opc : BitVec 3) (p : Phase) (s : State) : (beginCommand opc p s).errInfo = 0 := rfl
@[simp] theorem beginCommand_outLen (opc : BitVec 3) (p : Phase) (s : State) : (beginCommand opc p s).outLen = 0 := rfl
@[simp] theorem beginCommand_inUsed (opc : BitVec 3) (p : Phase) (s : State) : (beginCommand opc p s).inUsed = 0 := rfl
@[simp] theorem beginCommand_latch (opc : BitVec 3) (p : Phase) (s : State) : (beginCommand opc p s).latch = ⟨opc, s.bpp, s.mask, s.srcOff, s.srcLen⟩ := rfl
@[simp] theorem beginCommand_ip (opc : BitVec 3) (p : Phase) (s : State) : (beginCommand opc p s).ip = s.ip := rfl
@[simp] theorem beginCommand_ulen (opc : BitVec 3) (p : Phase) (s : State) : (beginCommand opc p s).ulen = s.ulen := rfl
@[simp] theorem beginCommand_olen (opc : BitVec 3) (p : Phase) (s : State) : (beginCommand opc p s).olen = s.olen := rfl
@[simp] theorem beginCommand_flg (opc : BitVec 3) (p : Phase) (s : State) : (beginCommand opc p s).flg = s.flg := rfl
@[simp] theorem beginCommand_fcnt (opc : BitVec 3) (p : Phase) (s : State) : (beginCommand opc p s).fcnt = s.fcnt := rfl
@[simp] theorem beginCommand_crem (opc : BitVec 3) (p : Phase) (s : State) : (beginCommand opc p s).crem = s.crem := rfl
@[simp] theorem beginCommand_csrc (opc : BitVec 3) (p : Phase) (s : State) : (beginCommand opc p s).csrc = s.csrc := rfl
@[simp] theorem beginCommand_ci (opc : BitVec 3) (p : Phase) (s : State) : (beginCommand opc p s).ci = s.ci := rfl
@[simp] theorem beginCommand_eo (opc : BitVec 3) (p : Phase) (s : State) : (beginCommand opc p s).eo = s.eo := rfl
@[simp] theorem beginCommand_fpos (opc : BitVec 3) (p : Phase) (s : State) : (beginCommand opc p s).fpos = s.fpos := rfl
@[simp] theorem beginCommand_fk (opc : BitVec 3) (p : Phase) (s : State) : (beginCommand opc p s).fk = s.fk := rfl
@[simp] theorem beginCommand_facc (opc : BitVec 3) (p : Phase) (s : State) : (beginCommand opc p s).facc = s.facc := rfl
@[simp] theorem beginCommand_ei (opc : BitVec 3) (p : Phase) (s : State) : (beginCommand opc p s).ei = s.ei := rfl
@[simp] theorem beginCommand_bi (opc : BitVec 3) (p : Phase) (s : State) : (beginCommand opc p s).bi = s.bi := rfl
@[simp] theorem beginCommand_pix (opc : BitVec 3) (p : Phase) (s : State) : (beginCommand opc p s).pix = s.pix := rfl
@[simp] theorem beginCommand_inMem (opc : BitVec 3) (p : Phase) (s : State) : (beginCommand opc p s).inMem = s.inMem := rfl
@[simp] theorem beginCommand_outMem (opc : BitVec 3) (p : Phase) (s : State) : (beginCommand opc p s).outMem = [] := rfl
@[simp] theorem beginCommand_draw (opc : BitVec 3) (p : Phase) (s : State) : (beginCommand opc p s).draw = s.draw + 1 := rfl
@[simp] theorem beginCommand_host (opc : BitVec 3) (p : Phase) (s : State) : (beginCommand opc p s).host = s.host := rfl
@[simp] theorem beginCommand_hostData (opc : BitVec 3) (p : Phase) (s : State) : (beginCommand opc p s).hostData = s.hostData := rfl

/-! ### selectToken -/

@[simp] theorem selectToken_cfg (s : State) : (selectToken s).cfg = s.cfg := rfl
@[simp] theorem selectToken_opc (s : State) : (selectToken s).opc = s.opc := rfl
@[simp] theorem selectToken_bpp (s : State) : (selectToken s).bpp = s.bpp := rfl
@[simp] theorem selectToken_mask (s : State) : (selectToken s).mask = s.mask := rfl
@[simp] theorem selectToken_srcOff (s : State) : (selectToken s).srcOff = s.srcOff := rfl
@[simp] theorem selectToken_srcLen (s : State) : (selectToken s).srcLen = s.srcLen := rfl
@[simp] theorem selectToken_run (s : State) : (selectToken s).run = s.run := rfl
@[simp] theorem selectToken_err (s : State) : (selectToken s).err = s.err := rfl
@[simp] theorem selectToken_errInfo (s : State) : (selectToken s).errInfo = s.errInfo := rfl
@[simp] theorem selectToken_outLen (s : State) : (selectToken s).outLen = s.outLen := rfl
@[simp] theorem selectToken_inUsed (s : State) : (selectToken s).inUsed = s.inUsed := rfl
@[simp] theorem selectToken_latch (s : State) : (selectToken s).latch = s.latch := rfl
@[simp] theorem selectToken_ip (s : State) : (selectToken s).ip = s.ip := rfl
@[simp] theorem selectToken_ulen (s : State) : (selectToken s).ulen = s.ulen := rfl
@[simp] theorem selectToken_olen (s : State) : (selectToken s).olen = s.olen := rfl
@[simp] theorem selectToken_flg (s : State) : (selectToken s).flg = s.flg <<< 1 := rfl
@[simp] theorem selectToken_fcnt (s : State) : (selectToken s).fcnt = s.fcnt - 1 := rfl
@[simp] theorem selectToken_crem (s : State) : (selectToken s).crem = s.crem := rfl
@[simp] theorem selectToken_csrc (s : State) : (selectToken s).csrc = s.csrc := rfl
@[simp] theorem selectToken_ci (s : State) : (selectToken s).ci = s.ci := rfl
@[simp] theorem selectToken_eo (s : State) : (selectToken s).eo = s.eo := rfl
@[simp] theorem selectToken_fpos (s : State) : (selectToken s).fpos = s.fpos := rfl
@[simp] theorem selectToken_fk (s : State) : (selectToken s).fk = s.fk := rfl
@[simp] theorem selectToken_facc (s : State) : (selectToken s).facc = s.facc := rfl
@[simp] theorem selectToken_ei (s : State) : (selectToken s).ei = s.ei := rfl
@[simp] theorem selectToken_bi (s : State) : (selectToken s).bi = s.bi := rfl
@[simp] theorem selectToken_pix (s : State) : (selectToken s).pix = s.pix := rfl
@[simp] theorem selectToken_inMem (s : State) : (selectToken s).inMem = s.inMem := rfl
@[simp] theorem selectToken_outMem (s : State) : (selectToken s).outMem = s.outMem := rfl
@[simp] theorem selectToken_draw (s : State) : (selectToken s).draw = s.draw := rfl
@[simp] theorem selectToken_host (s : State) : (selectToken s).host = s.host := rfl
@[simp] theorem selectToken_hostData (s : State) : (selectToken s).hostData = s.hostData := rfl

/-! ### initStream -/

@[simp] theorem initStream_cfg (u : BitVec 24) (s : State) : (initStream u s).cfg = s.cfg := rfl
@[simp] theorem initStream_opc (u : BitVec 24) (s : State) : (initStream u s).opc = s.opc := rfl
@[simp] theorem initStream_bpp (u : BitVec 24) (s : State) : (initStream u s).bpp = s.bpp := rfl
@[simp] theorem initStream_mask (u : BitVec 24) (s : State) : (initStream u s).mask = s.mask := rfl
@[simp] theorem initStream_srcOff (u : BitVec 24) (s : State) : (initStream u s).srcOff = s.srcOff := rfl
@[simp] theorem initStream_srcLen (u : BitVec 24) (s : State) : (initStream u s).srcLen = s.srcLen := rfl
@[simp] theorem initStream_run (u : BitVec 24) (s : State) : (initStream u s).run = .busy .stream := rfl
@[simp] theorem initStream_err (u : BitVec 24) (s : State) : (initStream u s).err = s.err := rfl
@[simp] theorem initStream_errInfo (u : BitVec 24) (s : State) : (initStream u s).errInfo = s.errInfo := rfl
@[simp] theorem initStream_outLen (u : BitVec 24) (s : State) : (initStream u s).outLen = s.outLen := rfl
@[simp] theorem initStream_inUsed (u : BitVec 24) (s : State) : (initStream u s).inUsed = s.inUsed := rfl
@[simp] theorem initStream_latch (u : BitVec 24) (s : State) : (initStream u s).latch = s.latch := rfl
@[simp] theorem initStream_ip (u : BitVec 24) (s : State) : (initStream u s).ip = 4 := rfl
@[simp] theorem initStream_ulen (u : BitVec 24) (s : State) : (initStream u s).ulen = u := rfl
@[simp] theorem initStream_olen (u : BitVec 24) (s : State) : (initStream u s).olen = 0 := rfl
@[simp] theorem initStream_flg (u : BitVec 24) (s : State) : (initStream u s).flg = 0 := rfl
@[simp] theorem initStream_fcnt (u : BitVec 24) (s : State) : (initStream u s).fcnt = 0 := rfl
@[simp] theorem initStream_crem (u : BitVec 24) (s : State) : (initStream u s).crem = 0 := rfl
@[simp] theorem initStream_csrc (u : BitVec 24) (s : State) : (initStream u s).csrc = s.csrc := rfl
@[simp] theorem initStream_ci (u : BitVec 24) (s : State) : (initStream u s).ci = s.ci := rfl
@[simp] theorem initStream_eo (u : BitVec 24) (s : State) : (initStream u s).eo = s.eo := rfl
@[simp] theorem initStream_fpos (u : BitVec 24) (s : State) : (initStream u s).fpos = s.fpos := rfl
@[simp] theorem initStream_fk (u : BitVec 24) (s : State) : (initStream u s).fk = s.fk := rfl
@[simp] theorem initStream_facc (u : BitVec 24) (s : State) : (initStream u s).facc = s.facc := rfl
@[simp] theorem initStream_ei (u : BitVec 24) (s : State) : (initStream u s).ei = s.ei := rfl
@[simp] theorem initStream_bi (u : BitVec 24) (s : State) : (initStream u s).bi = s.bi := rfl
@[simp] theorem initStream_pix (u : BitVec 24) (s : State) : (initStream u s).pix = s.pix := rfl
@[simp] theorem initStream_inMem (u : BitVec 24) (s : State) : (initStream u s).inMem = s.inMem := rfl
@[simp] theorem initStream_outMem (u : BitVec 24) (s : State) : (initStream u s).outMem = s.outMem := rfl
@[simp] theorem initStream_draw (u : BitVec 24) (s : State) : (initStream u s).draw = s.draw := rfl
@[simp] theorem initStream_host (u : BitVec 24) (s : State) : (initStream u s).host = s.host := rfl
@[simp] theorem initStream_hostData (u : BitVec 24) (s : State) : (initStream u s).hostData = s.hostData := rfl

/-! ### resetBlock -/

@[simp] theorem resetBlock_cfg (s : State) : (resetBlock s).cfg = s.cfg := rfl
@[simp] theorem resetBlock_run (s : State) : (resetBlock s).run = .idle := rfl
@[simp] theorem resetBlock_inMem (s : State) : (resetBlock s).inMem = [] := rfl
@[simp] theorem resetBlock_outMem (s : State) : (resetBlock s).outMem = [] := rfl
@[simp] theorem resetBlock_host (s : State) : (resetBlock s).host = s.host := rfl
@[simp] theorem resetBlock_draw (s : State) : (resetBlock s).draw = s.draw := rfl

/-! ### busy -/

/-- Busy says exactly that a phase is running. -/
theorem busy_iff (s : State) : s.busy = true ↔ ∃ p, s.run = .busy p := by
  unfold State.busy
  cases h : s.run <;> simp

theorem not_busy_iff (s : State) : s.busy = false ↔ s.run = .idle ∨ s.run = .done ∨ s.run = .error := by
  unfold State.busy
  cases h : s.run <;> simp

end Sys2Proof.Machine
end

