-- ==== Sys2Proof/Laws/Ops.lean ====
section
/-! SUPPORT. One lemma for each shared operation that says once everything it can do; later proofs cite these
instead of unfolding the operation. -/

namespace Sys2Proof.Machine

/-! ### conclude, raiseError -/

@[simp] theorem conclude_ok (base t : State) : conclude base (.ok t) = .next t := rfl

@[simp] theorem conclude_err (base : State) (e : ErrCode) (info : Nat) :
    conclude base (.error (.err e info)) = .next (raiseError e info base) := rfl

@[simp] theorem conclude_fault (base : State) (f : Fault) : conclude base (.error (.fault f)) = .fault f := rfl

/-- Everything that can lead to a next state: the piece went on, or the block raised an error. -/
theorem conclude_next {base t : State} {a : Attempt State} (h : conclude base a = .next t) :
    a = .ok t ∨ ∃ e info, a = .error (.err e info) ∧ t = raiseError e info base := by
  match a, h with
  | .ok _, h => exact .inl (by simpa using h)
  | .error (.err e info), h => exact .inr ⟨e, info, rfl, by simpa using h.symm⟩
  | .error (.fault _), h => simp at h

/-- A piece of a command never leads to a refusal. -/
theorem conclude_not_refused (base : State) (a : Attempt State) (r : Refusal) : conclude base a ≠ .refused r := by
  match a with
  | .ok _ => simp
  | .error (.err _ _) => simp
  | .error (.fault _) => simp

theorem saturate_toNat (info : Nat) : (saturate info).toNat = min info (2 ^ 32 - 1) := by
  unfold saturate
  rw [BitVec.toNat_ofNat]
  exact Nat.mod_eq_of_lt (by omega)

theorem SameInputs.refl (s : State) : SameInputs s s := ⟨rfl, rfl, rfl, rfl, rfl, rfl, rfl, rfl, rfl⟩

theorem SameInputs.trans {s t u : State} (h : SameInputs s t) (k : SameInputs t u) : SameInputs s u :=
  ⟨k.cfg.trans h.cfg, k.opc.trans h.opc, k.bpp.trans h.bpp, k.mask.trans h.mask, k.srcOff.trans h.srcOff,
    k.srcLen.trans h.srcLen, k.inMem.trans h.inMem, k.host.trans h.host, k.hostData.trans h.hostData⟩

theorem raiseError_same (e : ErrCode) (info : Nat) (s : State) : SameInputs s (raiseError e info s) :=
  ⟨rfl, rfl, rfl, rfl, rfl, rfl, rfl, rfl, rfl⟩

theorem finishDone_same (n used : Nat) (s : State) : SameInputs s (finishDone n used s) :=
  ⟨rfl, rfl, rfl, rfl, rfl, rfl, rfl, rfl, rfl⟩

theorem beginCommand_same (opc : BitVec 3) (p : Phase) (s : State) : SameInputs s (beginCommand opc p s) :=
  ⟨rfl, rfl, rfl, rfl, rfl, rfl, rfl, rfl, rfl⟩

/-- Taking an error is a failure in the sense of the statements. -/
theorem raiseError_failed (e : ErrCode) (info : Nat) (s : State) : Failed e info s (raiseError e info s) :=
  ⟨rfl, rfl, saturate_toNat info, rfl, rfl, fun _ => rfl, raiseError_same e info s⟩

/-! ### Reading the window -/

theorem inRead_ok {k : Nat} {s : State} (h : k < s.latch.len.toNat) :
    inRead k s = .ok (inByte s (s.latch.off.toNat + k)) := if_neg (by omega)

theorem inRead_missing {k : Nat} {s : State} (h : s.latch.len.toNat ≤ k) :
    inRead k s = .error (.err .inputUnderrun k) := if_pos h

/-- A fetch that lies inside the window gives its bytes in order. -/
theorem fetchBytes_ok (n : Nat) {k : Nat} {s : State} (h : n = 0 ∨ k + n ≤ s.latch.len.toNat) :
    fetchBytes n k s = .ok ((List.range' k n).map fun j => inByte s (s.latch.off.toNat + j)) := by
  induction n generalizing k with
  | zero => rfl
  | succ n ih =>
    rw [fetchBytes, inRead_ok (by omega)]
    simp only
    rw [ih (by omega)]
    simp [List.range'_succ]

/-- A fetch that starts inside the window, or at its end, and passes it reports the window's length. -/
theorem fetchBytes_missing (n : Nat) {k : Nat} {s : State} (h : s.latch.len.toNat < k + n)
    (hk : k ≤ s.latch.len.toNat) :
    fetchBytes n k s = .error (.err .inputUnderrun s.latch.len.toNat) := by
  induction n generalizing k with
  | zero => omega
  | succ n ih =>
    rw [fetchBytes]
    by_cases hlt : k < s.latch.len.toNat
    · rw [inRead_ok hlt]
      simp only
      rw [ih (by omega) (by omega)]
    · rw [inRead_missing (by omega)]
      simp [show k = s.latch.len.toNat by omega]

/-- The only thing that can end a fetch early is a missing byte. -/
theorem fetchBytes_error {n k : Nat} {s : State} {e : Stop} (h : fetchBytes n k s = .error e) :
    ∃ j, s.latch.len.toNat ≤ j ∧ e = .err .inputUnderrun j := by
  induction n generalizing k e with
  | zero => simp [fetchBytes] at h
  | succ n ih =>
    rw [fetchBytes] at h
    by_cases hlt : k < s.latch.len.toNat
    · rw [inRead_ok hlt] at h
      simp only at h
      split at h
      · rename_i e' he
        obtain ⟨j, hj, rfl⟩ := ih he
        exact ⟨j, hj, by simpa using h.symm⟩
      · simp at h
    · rw [inRead_missing (by omega)] at h
      exact ⟨k, by omega, by simpa using h.symm⟩

/-! ### Storing to OUT -/

theorem memWrite_ok {a : Nat} (v : Byte) {s : State} (h : a < s.cfg.outSize) :
    memWrite a v s = .ok { s with outMem := s.outMem.write a v } := if_pos h

theorem memWrite_outside {a : Nat} (v : Byte) {s : State} (h : s.cfg.outSize ≤ a) :
    memWrite a v s = .error (.fault (.storeOutsideOut a)) := if_neg (by omega)

/-- Everything a store can do when it goes on. -/
theorem memWrite_next {a : Nat} {v : Byte} {s t : State} (h : memWrite a v s = .ok t) :
    a < s.cfg.outSize ∧ t = { s with outMem := s.outMem.write a v } := by
  by_cases ha : a < s.cfg.outSize
  · rw [memWrite_ok v ha] at h
    exact ⟨ha, by simpa using h.symm⟩
  · rw [memWrite_outside v (by omega)] at h
    simp at h

/-- A store that does not go on is outside OUT. -/
theorem memWrite_error {a : Nat} {v : Byte} {s : State} {e : Stop} (h : memWrite a v s = .error e) :
    s.cfg.outSize ≤ a ∧ e = .fault (.storeOutsideOut a) := by
  by_cases ha : a < s.cfg.outSize
  · rw [memWrite_ok v ha] at h
    simp at h
  · rw [memWrite_outside v (by omega)] at h
    exact ⟨by omega, by simpa using h.symm⟩

/-- Consecutive stores inside OUT all go on. -/
theorem memWriteAll_ok {a : Nat} (vs : List Byte) {s : State} (h : vs = [] ∨ a + vs.length ≤ s.cfg.outSize) :
    memWriteAll a vs s = .ok { s with outMem := s.outMem.writeAll a vs } := by
  induction vs generalizing a s with
  | nil => rfl
  | cons v vs ih =>
    simp only [List.length_cons, reduceCtorEq, false_or] at h
    rw [memWriteAll, memWrite_ok v (by omega)]
    simp only
    rw [ih (by simp only; right; omega)]
    rfl

/-- The compressor's `Emit` inside OUT. -/
theorem emit_ok {v : Byte} {s : State} (h : s.eo.toNat < s.cfg.outSize) :
    emit v s = .ok { s with outMem := s.outMem.write s.eo.toNat v, eo := s.eo + 1 } := by
  rw [emit, if_neg (by omega), memWrite_ok v h]

/-- The compressor's `Emit` at the end of OUT. -/
theorem emit_full {v : Byte} {s : State} (h : s.cfg.outSize ≤ s.eo.toNat) :
    emit v s = .error (.err .outputOverflow s.eo.toNat) := if_pos h

/-- `Emit` of a list that fits OUT. -/
theorem emitAll_ok (vs : List Byte) {s : State} (h : vs = [] ∨ s.eo.toNat + vs.length ≤ s.cfg.outSize)
    (hs : s.cfg.outSize < 2 ^ 32) :
    emitAll vs s =
      .ok { s with
        outMem := s.outMem.writeAll s.eo.toNat vs, eo := s.eo + BitVec.ofNat 32 vs.length } := by
  induction vs generalizing s with
  | nil => simp [emitAll, Memory.writeAll]
  | cons v vs ih =>
    have h : s.eo.toNat + (vs.length + 1) ≤ s.cfg.outSize := by simpa using h
    have he : (s.eo + 1).toNat = s.eo.toNat + 1 := by
      rw [BitVec.toNat_add]
      exact Nat.mod_eq_of_lt (show s.eo.toNat + 1 < 2 ^ 32 by omega)
    have hk := ih (s := { s with outMem := s.outMem.write s.eo.toNat v, eo := s.eo + 1 })
      (Or.inr (show (s.eo + 1).toNat + vs.length ≤ s.cfg.outSize by omega)) hs
    rw [emitAll, emit_ok (by omega)]
    simp only
    rw [hk]
    simp only [he, Memory.writeAll, List.length_cons, Nat.add_comm vs.length 1, BitVec.ofNat_add, BitVec.add_assoc]
    rfl

/-! ### The copy of a back-reference -/

/-- One byte of a copy whose next address lies inside OUT. -/
theorem copyStep_ok {s : State} (h : s.olen.toNat < s.cfg.outSize) :
    copyStep s =
      .ok { s with
        outMem := s.outMem.write s.olen.toNat (outByte s s.csrc.toNat)
        csrc := s.csrc + 1, olen := s.olen + 1, crem := s.crem - 1 } := by
  rw [copyStep, memWrite_ok _ h]

/-- The loop stops when nothing remains to copy or the output is complete. -/
theorem copyLoop_stop (fuel : Nat) {s : State} (h : s.crem.toNat = 0 ∨ s.ulen.toNat ≤ s.olen.toNat) :
    copyLoop fuel s = .ok s := by
  cases fuel with
  | zero => rfl
  | succ fuel => exact if_neg (by omega)

/-- The loop goes on with one byte of the copy. -/
theorem copyLoop_next (fuel : Nat) {s : State} (hr : 0 < s.crem.toNat) (ho : s.olen.toNat < s.ulen.toNat) :
    copyLoop (fuel + 1) s =
      match copyStep s with
      | .error e => .error e
      | .ok t => copyLoop fuel t := if_pos ⟨hr, ho⟩

/-! ### Beginning a command -/

/-- Validation passes exactly under the conditions of R221. -/
theorem validate_ok_iff (tile : Bool) (s : State) :
    validate tile s = .ok () ↔
      (tile = true → legalBpp s.latch.bpp = true)
        ∧ s.latch.off.toNat + s.latch.len.toNat ≤ s.cfg.inSize := by
  unfold validate
  cases tile <;> cases h : legalBpp s.latch.bpp <;> simp

/-- A `START` while `BUSY` changes nothing. -/
theorem launch_busy {opc : BitVec 3} {p : Phase} {tile : Bool} {f : State → Attempt State} {s : State}
    (h : s.busy = true) : launch opc p tile f s = .next s := if_pos h

/-- A `START` that passes validation runs the command's own beginning. -/
theorem launch_valid {opc : BitVec 3} {p : Phase} {tile : Bool} {f : State → Attempt State} {s : State}
    (h : s.busy = false) (hv : validate tile (beginCommand opc p s) = .ok ()) :
    launch opc p tile f s = conclude (beginCommand opc p s) (f (beginCommand opc p s)) := by
  rw [launch, if_neg (by simp [h]), hv]

/-- A register write of the host while `BUSY` changes nothing. -/
theorem writeReg_busy {n : Nat} {v : Word} {s : State} (h : s.busy = true) : writeReg n v s = s := if_pos h

/-- The empty memories of reset are canonical. -/
theorem reset_memories (c : Config) : (State.resetWith c).inMem.wf ∧ (State.resetWith c).outMem.wf := by
  simp [State.resetWith, Memory.wf]

/-- The decoder gives commands, and only commands, for a command byte. -/
theorem decodeCommand_mem {b : Byte} {i : Instr} (h : decodeCommand b = some i) : i ∈ commands := by
  unfold decodeCommand at h
  unfold commands
  repeat' split at h
  all_goals first | (simp only [Option.some.injEq] at h; subst h; simp) | simp at h

end Sys2Proof.Machine
end

