-- ==== Sys2Proof/Laws/PerInstr.lean ====
section
/-! SUPPORT. Facts about every instruction as syntax, one lemma per constructor: the length of its encoding is the length the
opcode table gives its row, in whole bytes (R90). -/

namespace Sys2Proof.Laws

/-- The length the table gives an instruction's row, in whole bytes (R90, R105). -/
def rowBytes : Instr → Nat
  | .hdrRaw _ => 4
  | .hdrLz _ _ => 4
  | .flag _ => 1
  | .lit _ => 1
  | .ref _ _ => 2
  | .pal16 _ _ _ _ => 2
  | .pix4 _ _ => 1
  | .pix8 _ => 1
  | .idx _ => 1
  | .lzDecomp => 1
  | .lzComp => 1
  | .rdComp => 1
  | .palDec => 1
  | .tileDec => 1
  | .tileEnc => 1

/-- The encoding has the row's length, whatever the layout of the colour fields. -/
def EncodedLength.Statement (i : Instr) : Prop := ∀ l : PalLayout, (encode l i).length = rowBytes i

theorem EncodedLength.hdrRaw (ulen : BitVec 24) : EncodedLength.Statement (.hdrRaw ulen) := fun _ => rfl
theorem EncodedLength.hdrLz (sub : BitVec 4) (ulen : BitVec 24) : EncodedLength.Statement (.hdrLz sub ulen) := fun _ => rfl
theorem EncodedLength.flag (f : Byte) : EncodedLength.Statement (.flag f) := fun _ => rfl
theorem EncodedLength.lit (b : Byte) : EncodedLength.Statement (.lit b) := fun _ => rfl
theorem EncodedLength.ref (ln : BitVec 4) (disp : BitVec 12) : EncodedLength.Statement (.ref ln disp) := fun _ => rfl
theorem EncodedLength.pal16 (r5 g5 b5 : BitVec 5) (x : BitVec 1) : EncodedLength.Statement (.pal16 r5 g5 b5 x) :=
  fun _ => rfl
theorem EncodedLength.pix4 (p0 p1 : BitVec 4) : EncodedLength.Statement (.pix4 p0 p1) := fun _ => rfl
theorem EncodedLength.pix8 (p : Byte) : EncodedLength.Statement (.pix8 p) := fun _ => rfl
theorem EncodedLength.idx (i : Byte) : EncodedLength.Statement (.idx i) := fun _ => rfl
theorem EncodedLength.lzDecomp : EncodedLength.Statement .lzDecomp := fun _ => rfl
theorem EncodedLength.lzComp : EncodedLength.Statement .lzComp := fun _ => rfl
theorem EncodedLength.rdComp : EncodedLength.Statement .rdComp := fun _ => rfl
theorem EncodedLength.palDec : EncodedLength.Statement .palDec := fun _ => rfl
theorem EncodedLength.tileDec : EncodedLength.Statement .tileDec := fun _ => rfl
theorem EncodedLength.tileEnc : EncodedLength.Statement .tileEnc := fun _ => rfl

end Sys2Proof.Laws
end

