-- ==== Sys2Proof/Tests/Slice0.lean ====
section
/-! SUPPORT. The model's own tests, each on one small state and one step: what every row of the table decodes to (words
written out from 30_encoding.md), ill-formed terms, worked examples of the rules and vectors of 95_test_vectors.md;
and for every statement with hypotheses, a state and operands that meet them. -/

namespace Sys2Proof.Tests

open Sys2Proof.Machine

/-! ### Helpers -/

/-- A small block after reset. -/
def small (inSize outSize : Nat) : State :=
  State.resetWith { inSize := inSize, outSize := outSize, matcher := .reference, pal := bgr555 }

/-- The outcome is a next state with a property. -/
def nextIs (r : Result) (p : State → Bool) : Bool :=
  match r with
  | .next t => p t
  | .fault _ => false
  | .refused _ => false

def isFault (r : Result) (f : Fault) : Bool :=
  match r with
  | .fault g => g == f
  | .next _ => false
  | .refused _ => false

def isRefused (r : Result) (f : Refusal) : Bool :=
  match r with
  | .refused g => g == f
  | .next _ => false
  | .fault _ => false

/-- The outcome is the state after an error of the block. -/
def failed (r : Result) (e : ErrCode) (info : Nat) : Bool :=
  nextIs r fun t =>
    t.err == e && t.errInfo.toNat == info && t.run == .error && t.outLen == 0 && t.inUsed == 0 && t.outMem == []

/-- The block ready for a command, its input window at the start of IN. -/
def loaded (opc : BitVec 3) (bpp : BitVec 4) (mask : BitVec 1) (bytes : List Byte) : State :=
  { small 64 64 with
    opc := opc, bpp := bpp, mask := mask, srcLen := BitVec.ofNat 32 bytes.length
    inMem := Memory.writeAll [] 0 bytes }

/-- The block in a phase of a command on such a window. -/
def running (p : Phase) (opc : BitVec 3) (bpp : BitVec 4) (mask : BitVec 1) (bytes : List Byte) : State :=
  let s := loaded opc bpp mask bytes
  { s with run := .busy p, latch := ⟨opc, bpp, mask, 0, s.srcLen⟩ }

/-- The block in the token stream with `out` already produced. -/
def inStream (bytes out : List Byte) (ulen : BitVec 24) (flg : Byte) (fcnt : BitVec 4) : State :=
  { running .stream 1 0 0 bytes with
    ip := 4, ulen := ulen, flg := flg, fcnt := fcnt, olen := BitVec.ofNat 32 out.length
    outMem := Memory.writeAll [] 0 out }

/-- The command from `START` to its end, with a bound on the steps. -/
def runAll (i : Instr) (s : State) (steps : Nat) : Result :=
  match exec i s with
  | .next t => Host.Core.run Sys2Proof.core steps t
  | .fault f => .fault f
  | .refused r => .refused r

/-- `DONE` with this output and this many bytes used. -/
def doneWith (r : Result) (out : List Byte) (used : Nat) : Bool :=
  nextIs r fun t =>
    t.run == .done && t.err == .none && t.outLen.toNat == out.length && t.inUsed.toNat == used
      && t.outMem == Memory.writeAll [] 0 out

/-! ### Decoding: every row, from its bits -/

/-- TYPE 0x00, ULEN 4 (R91). -/
theorem test_decode_hdrRaw :
    decode bgr555 .headerWrapped [0b00000000, 0b00000100, 0b00000000, 0b00000000] = .ok (.hdrRaw 4, []) := by decide
/-- METHOD 1, SUB 7, ULEN 0x030201, most significant byte last (R91). -/
theorem test_decode_hdrLz :
    decode bgr555 .headerDirect [0b00010111, 0b00000001, 0b00000010, 0b00000011] = .ok (.hdrLz 7 0x030201, []) := by
  decide
theorem test_decode_hdrLz_wrapped :
    decode bgr555 .headerWrapped [0x10, 0xFF, 0xFF, 0xFF] = .ok (.hdrLz 0 0xFFFFFF, []) := by decide
/-- Under the wrapper the whole type byte counts (R181, vector W5). -/
theorem test_decode_wrapped_rejects_sub :
    decode bgr555 .headerWrapped [0x11, 3, 0, 0] = .error (.unknownType 0x11) := by decide
theorem test_decode_direct_rejects_raw :
    decode bgr555 .headerDirect [0x00, 3, 0, 0] = .error (.unsupportedMethod 0x00) := by decide
theorem test_decode_flag : decode bgr555 .flag [0b10000000, 9] = .ok (.flag 0x80, [9]) := by decide
theorem test_decode_lit : decode bgr555 .tokenLit [0b01000001] = .ok (.lit 0x41, []) := by decide
/-- LLLLDDDDDDDDDDDD = 0110 000000000010, high byte first (R95). -/
theorem test_decode_ref : decode bgr555 .tokenRef [0b01100000, 0b00000010] = .ok (.ref 6 2, []) := by decide
theorem test_decode_ref_far : decode bgr555 .tokenRef [0b00001111, 0b11111111] = .ok (.ref 0 4095, []) := by decide
/-- XBBBBBGGGGGRRRRR = 0 00100 10001 10100, low byte first (R99, vector P-7). -/
theorem test_decode_pal16 : decode bgr555 .pal16 [0b00110100, 0b00010010] = .ok (.pal16 20 17 4 0, []) := by decide
theorem test_decode_pal16_x : decode bgr555 .pal16 [0b00011111, 0b10000000] = .ok (.pal16 31 0 0 1, []) := by decide
/-- SSSSFFFF = 0010 0001: the first pixel is the low nibble (R101). -/
theorem test_decode_pix4 : decode bgr555 .pix4 [0b00100001] = .ok (.pix4 1 2, []) := by decide
theorem test_decode_pix8 : decode bgr555 .pix8 [0b01111111] = .ok (.pix8 0x7F, []) := by decide
theorem test_decode_idx : decode bgr555 .idx [0b00010000] = .ok (.idx 0x10, []) := by decide
theorem test_decode_lzDecomp : decode bgr555 .command [0b001] = .ok (.lzDecomp, []) := by decide
theorem test_decode_lzComp : decode bgr555 .command [0b010] = .ok (.lzComp, []) := by decide
theorem test_decode_rdComp : decode bgr555 .command [0b011] = .ok (.rdComp, []) := by decide
theorem test_decode_palDec : decode bgr555 .command [0b100] = .ok (.palDec, []) := by decide
theorem test_decode_tileDec : decode bgr555 .command [0b101] = .ok (.tileDec, []) := by decide
theorem test_decode_tileEnc : decode bgr555 .command [0b110] = .ok (.tileEnc, []) := by decide
theorem test_decode_reserved :
    decode bgr555 .command [0] = .error .reservedOpcode ∧ decode bgr555 .command [7] = .error .reservedOpcode := by
  decide
theorem test_decode_truncated : decode bgr555 .tokenRef [0x60] = .error .truncated := by decide
/-- One byte is a flag byte, a literal, a pixel pair, a pixel and an index, each in its own context: no function of the
byte alone can decode all five (log 14). -/
theorem test_one_byte_five_meanings :
    decode bgr555 .flag [0x21] = .ok (.flag 0x21, []) ∧ decode bgr555 .tokenLit [0x21] = .ok (.lit 0x21, [])
      ∧ decode bgr555 .pix4 [0x21] = .ok (.pix4 1 2, []) ∧ decode bgr555 .pix8 [0x21] = .ok (.pix8 0x21, [])
      ∧ decode bgr555 .idx [0x21] = .ok (.idx 0x21, []) := by decide
theorem test_table_words :
    decodeTableWord 32 0x00000400 = some (.hdrRaw 4) ∧ decodeTableWord 32 0x00000B10 = some (.hdrLz 0 11)
      ∧ decodeTableWord 16 0x6002 = some (.ref 6 2) ∧ decodeTableWord 8 4 = some .palDec
      ∧ decodeTableWord 8 0x80 = some (.flag 0x80) ∧ decodeTableWord 32 0x20 = none := by decide

/-! ### Ill-formed terms, one for each check of `Instr.fits` -/

/-- A Raw header is no instruction of LZ_DECOMP (R92). -/
theorem smoke_hdrRaw_direct : Instr.fits .headerDirect (.hdrRaw 4) = false := by decide
/-- RD_COMP takes an LZ77 header with SUB = 0 only (R181). -/
theorem smoke_hdrLz_sub_wrapped :
    Instr.fits .headerWrapped (.hdrLz 1 4) = false ∧ Instr.fits .headerWrapped (.hdrLz 0 4) = true := by decide
theorem smoke_header_contexts :
    Instr.fits .headerDirect (.flag 0) = false ∧ Instr.fits .headerWrapped (.lit 0) = false := by decide
theorem smoke_token_contexts :
    Instr.fits .flag (.lit 0) = false ∧ Instr.fits .tokenLit (.ref 0 0) = false
      ∧ Instr.fits .tokenRef (.lit 0) = false := by decide
theorem smoke_format_contexts :
    Instr.fits .pal16 (.ref 0 0) = false ∧ Instr.fits .pix4 (.pix8 0) = false ∧ Instr.fits .pix8 (.pix4 0 0) = false
      ∧ Instr.fits .idx (.pix8 0) = false := by decide
theorem smoke_command_context : Instr.fits .command (.hdrRaw 0) = false ∧ Instr.fits .flag .lzComp = false := by decide

/-! ### Words placed where the next step runs them -/

theorem test_placed_flag :
    nextIs (step (State.reset.withFetchWord 8 0x80)) (fun t => t.flg == 0x80 && t.fcnt == 8 && t.ip == 5) = true := by
  decide
theorem test_placed_header :
    nextIs (step (State.reset.withFetchWord 32 0x00000B10)) (fun t => t.run == .busy .stream && t.ulen == 11) = true := by
  decide
theorem test_placed_ref : failed (step (State.reset.withFetchWord 16 0x6002)) .badBackref 4 = true := by decide
theorem test_placed_command :
    nextIs (step (State.reset.withFetchWord 8 1)) (fun t => t.run == .busy .header && t.latch.opc == 1) = true := by
  decide

/-! ### The stream elements -/

/-- Worked example of R134: byte 80 at IP = 4. -/
theorem test_flag :
    nextIs (step (inStream [0x10, 1, 0, 0, 0x80] [] 1 0 0)) (fun t => t.flg == 0x80 && t.fcnt == 8 && t.ip == 5) = true := by
  decide
/-- Worked example of R135 with R136: FLG shifted, FCNT counted, the byte stored. -/
theorem test_lit :
    nextIs (step (inStream [0x10, 3, 0, 0, 0x41] [] 3 0x40 8))
      (fun t => t.outMem == [(0, 0x41)] && t.olen == 1 && t.ip == 5 && t.flg == 0x80 && t.fcnt == 7) = true := by decide
theorem test_lit_outside : isFault (exec (.lit 1) { small 1 1 with olen := 1 }) (.storeOutsideOut 1) = true := by decide
/-- Worked example of R137: OLEN = 8, OUT[7] = 0x48, bytes 00 00. -/
theorem test_ref :
    nextIs (exec (.ref 0 0) { inStream [0x10, 11, 0, 0, 0, 0] [1, 2, 3, 4, 5, 6, 7, 0x48] 11 0 7 with ip := 4 })
      (fun t => t.outMem.drop 8 == [(8, 0x48), (9, 0x48), (10, 0x48)] && t.olen == 11 && t.ip == 6 && t.crem == 0) = true := by
  decide
/-- Vector D8: a copy of 18 cut short after one byte (R139). -/
theorem test_ref_cut :
    nextIs (exec (.ref 15 0) (inStream [] [0x41] 2 0 7))
      (fun t => t.outMem == [(0, 0x41), (1, 0x41)] && t.olen == 2 && t.ip == 6) = true := by decide
theorem test_ref_underrun : failed (step (inStream [0x10, 4, 0, 0, 0] [] 4 0x80 8)) .inputUnderrun 5 = true := by decide
theorem test_ref_bad : failed (exec (.ref 0 1) (inStream [] [0x41] 4 0 7)) .badBackref 4 = true := by decide

/-! ### The headers -/

theorem test_hdrLz : nextIs (exec (.hdrLz 3 11) (small 64 11)) (fun t => t.ulen == 11 && t.ip == 4) = true := by decide
/-- Vector D20. -/
theorem test_hdrLz_overflow : failed (exec (.hdrLz 0 11) (small 64 8)) .outputOverflow 11 = true := by decide
/-- Vector W2. -/
theorem test_hdrRaw :
    doneWith (exec (.hdrRaw 2) (running .header 3 0 0 [0, 2, 0, 0, 0xAA, 0xBB, 0xCC])) [0xAA, 0xBB] 6 = true := by decide
/-- Vector W8. -/
theorem test_hdrRaw_short :
    failed (exec (.hdrRaw 5) (running .header 3 0 0 [0, 5, 0, 0, 0x41, 0x42])) .inputUnderrun 6 = true := by decide
theorem test_header_method : failed (step (running .header 1 0 0 [0x20, 3, 0, 0])) .unsupportedMethod 0x20 = true := by decide
theorem test_header_type :
    failed (step (running .header 3 0 0 [0x01, 3, 0, 0])) .unknownCompressionType 1 = true := by decide

/-! ### The data formats -/

/-- Vector P-7. -/
theorem test_pal16 :
    nextIs (exec (.pal16 20 17 4 0) (small 64 64))
      (fun t => t.outMem == [(0, 0xA4), (1, 0x8B), (2, 0x20)] && t.ei == 1) = true := by decide
/-- Worked example of R202: byte F0. -/
theorem test_pix4 :
    nextIs (exec (.pix4 0 15) { small 64 64 with bi := 3 }) (fun t => t.outMem == [(6, 0), (7, 0x0F)] && t.bi == 4) = true := by
  decide
theorem test_pix8 :
    nextIs (exec (.pix8 0xFF) { small 64 64 with bi := 3 }) (fun t => t.outMem == [(3, 0xFF)] && t.bi == 4) = true := by
  decide
/-- Worked example of R207: 01 02 packs to 21. -/
theorem test_idx_pair :
    nextIs (exec (.idx 2) { running .pack 6 4 0 [] with pix := some 1, bi := 1 })
      (fun t => t.outMem == [(1, 0x21)] && t.bi == 2 && t.pix == none) = true := by decide
/-- Worked example of R207: 00 10 raises EncodingError(1). -/
theorem test_idx_wide :
    failed (exec (.idx 0x10) { running .pack 6 4 0 [] with pix := some 0 }) .encodingError 1 = true := by decide

/-! ### The commands -/

/-- Vector D11 (program P2). -/
theorem test_lzDecomp :
    doneWith (runAll .lzDecomp (loaded 1 0 0 [0x10, 0x10, 0, 0, 0x14, 0x61, 0x62, 0x63, 0x60, 2, 0x58, 0, 3]) 10)
      [0x61, 0x62, 0x63, 0x61, 0x62, 0x63, 0x61, 0x62, 0x63, 0x61, 0x62, 0x63, 0x58, 0x61, 0x62, 0x63] 13 = true := by
  decide +kernel
/-- Vector W1. -/
theorem test_rdComp :
    doneWith (runAll .rdComp (loaded 3 0 0 [0, 4, 0, 0, 0, 0, 0xFF, 0x7F]) 1) [0, 0, 0xFF, 0x7F] 8 = true := by decide +kernel
/-- Vector C9. -/
theorem test_lzComp :
    doneWith (runAll .lzComp (loaded 2 0 0 [0x41, 0x42, 0x41, 0x42, 0x41, 0x42, 0x41, 0x42, 0x41, 0x42]) 6)
      [0x10, 0x0A, 0, 0, 0x20, 0x41, 0x42, 0x50, 1] 10 = true := by decide +kernel
/-- Vector C17, with less room: the header fits, the flag byte does not. -/
theorem test_lzComp_full :
    failed (runAll .lzComp { loaded 2 0 0 [1, 2] with cfg := (small 64 4).cfg } 1) .outputOverflow 4 = true := by
  decide +kernel
/-- Vector P-3. -/
theorem test_palDec :
    doneWith (runAll .palDec (loaded 4 0 0 [0, 0, 0xFF, 0x7F, 0x12]) 3) [0, 0, 0, 0xFF, 0xFF, 0xFF] 4 = true := by
  decide +kernel
/-- Vector T4. -/
theorem test_tileDec : doneWith (runAll .tileDec (loaded 5 4 0 (List.replicate 31 0x21)) 1) [] 0 = true := by decide +kernel
/-- Vector T11. -/
theorem test_tileEnc_length : failed (exec .tileEnc (loaded 6 4 0 (List.replicate 63 1))) .badLength 63 = true := by
  decide +kernel
/-- Vectors X1, X4 and T13. -/
theorem test_start_errors :
    failed (step { small 64 64 with host := [.writeReg 0 1] }) .badCommand 0 = true
      ∧ failed (exec .lzDecomp { small 64 64 with srcOff := 0xFFFFFFFF, srcLen := 0xFFFFFFFF }) .badCommand 2 = true
      ∧ failed (exec .tileDec (loaded 5 5 0 [])) .badCommand 1 = true := by decide
/-- Vector X9. -/
theorem test_reserved_bits :
    readReg 1 (writeReg 1 0xFFFFFFFF (small 1 1)) = 7 ∧ readReg 2 (writeReg 2 0xFFFFFFFF (small 1 1)) = 0x10F := by decide
theorem test_matcher_tie :
    matcherRef [0x41, 0x42, 0x43, 0x41, 0x42, 0x43, 0x41, 0x42, 0x43] 6 = (3, 2) := by decide +kernel

/-! ### Witnesses: states and operands that meet the hypotheses of the statements

Each is named after its statement; where a statement has several clauses, there is a value for each, at the edge
of its range. -/

/-- A state that is busy. -/
def busyState : State := inStream [0x10, 1, 0, 0] [] 1 0 0

theorem witness_FieldsReadBackAndReservedBitsReadZero : (small 1 1).busy = false := by decide
theorem witness_RegisterWritesTouchOnlyTheirRegister : (2 ≠ 1) ∧ (0 = 0 ∨ 5 ≤ 0) ∧ (5 = 0 ∨ 5 ≤ 5) ∧ 10 ≤ 10 := by decide
/-- The host's moves while not `BUSY`: a write of `MODE` with every bit set, and a read of it. -/
theorem witness_RegisterWritesTouchOnlyTheirRegister_moves :
    (small 1 1).busy = false
      ∧ nextIs (step { small 1 1 with host := [.writeReg 2 0xFFFFFFFF] }) (fun t => t.bpp == 15 && t.mask == 1) = true
      ∧ nextIs (step { loaded 1 4 1 [] with host := [.readReg 2] }) (fun t => t.hostData == 0x104) = true := by decide
theorem witness_ControlWriteStartsTheSelectedCommand :
    (2 : Word).getLsbD 0 = false ∧ (1 : Word).getLsbD 0 = true ∧ Instr.tileEnc ∈ commands
      ∧ (loaded 6 4 0 []).opc = Instr.tileEnc.opc := by decide
theorem witness_BusyBlockIgnoresRegisterWrites : busyState.busy = true ∧ 4 ≠ 5 := by decide
theorem witness_BusyMemoryAccessesAreRefused : busyState.busy = true := by decide
theorem witness_HostMemoryAccessesTouchOneByte :
    (small 64 64).busy = false ∧ 63 < (small 64 64).cfg.inSize ∧ 63 < (small 64 64).cfg.outSize
      ∧ Memory.read [(63, 7)] 63 = some 7 := by decide
theorem witness_PollingLetsTheBlockRun : busyState.busy = true ∧ (small 1 1).busy = false := by decide
theorem witness_StartValidatesInOrder :
    (loaded 7 4 0 []).busy = false ∧ (loaded 7 4 0 []).opc = 7 ∧ (loaded 5 9 0 []).bpp ≠ 8
      ∧ (64 < { loaded 1 0 0 [] with srcOff := 64, srcLen := 1 }.srcOff.toNat + 1)
      ∧ ¬ 64 < { loaded 1 0 0 [] with srcOff := 64 }.srcOff.toNat + 0 := by decide
/-- The clauses of validation in action: the reserved number 7, depth 9, a window one byte too long, an empty window at
the very end of IN (vector X5). -/
theorem witness_StartValidatesInOrder_outcomes :
    failed (step { loaded 7 4 0 [] with host := [.writeReg 0 1] }) .badCommand 0 = true
      ∧ failed (step { loaded 6 9 0 [] with host := [.writeReg 0 1], srcOff := 65 }) .badCommand 1 = true
      ∧ failed (step { loaded 6 4 0 [] with host := [.writeReg 0 1], srcOff := 65 }) .badCommand 2 = true
      ∧ nextIs (step { loaded 4 0 0 [] with host := [.writeReg 0 1], srcOff := 64 }) (fun t => t.busy) = true
      ∧ (0xFFFFFFFF : Word).getLsbD 0 = true
      ∧ failed (step { loaded 0 4 0 [] with host := [.writeReg 0 0xFFFFFFFF] }) .badCommand 0 = true := by decide
theorem witness_canStart_lzDecomp : CanStart .lzDecomp { loaded 1 0 0 [] with srcOff := 64 } :=
  ⟨by decide, by decide, by decide⟩
theorem witness_canStart_rdComp : CanStart .rdComp (loaded 3 0 0 []) := ⟨by decide, by decide, by decide⟩
theorem witness_canStart_lzComp : CanStart .lzComp (loaded 2 0 0 []) := ⟨by decide, by decide, by decide⟩
theorem witness_canStart_palDec : CanStart .palDec (loaded 4 0 0 [1, 2]) := ⟨by decide, by decide, by decide⟩
theorem witness_canStart_tileDec : CanStart .tileDec (loaded 5 4 0 []) := ⟨by decide, by decide, by decide⟩
theorem witness_canStart_tileEnc : CanStart .tileEnc (loaded 6 8 0 []) := ⟨by decide, by decide, by decide⟩
/-- Both sides of the size check of `PAL_DEC`, of `TILE_DEC`, and the three cases of `TILE_ENC`. -/
theorem witness_ConverterCommandsBegin :
    failed (exec .palDec { loaded 4 0 0 [1, 2] with cfg := (small 64 2).cfg }) .outputOverflow 3 = true
      ∧ nextIs (exec .palDec { loaded 4 0 0 [1, 2] with cfg := (small 64 3).cfg }) (·.busy) = true
      ∧ failed (exec .tileDec { loaded 5 4 0 [] with cfg := (small 64 63).cfg, srcLen := 32 }) .outputOverflow 64 = true
      ∧ nextIs (exec .tileDec { loaded 5 4 0 [] with srcLen := 32 }) (·.busy) = true
      ∧ failed (exec .tileEnc { loaded 6 4 0 [] with srcLen := 63 }) .badLength 63 = true
      ∧ failed (exec .tileEnc { loaded 6 4 0 [] with cfg := (small 64 31).cfg, srcLen := 64 }) .outputOverflow 32 = true
      ∧ nextIs (exec .tileEnc { loaded 6 4 0 [] with cfg := (small 64 32).cfg, srcLen := 64 }) (·.busy) = true := by decide
/-- 2^24 bytes, an OUT of 3 bytes, an OUT of 4 bytes. -/
theorem witness_CompressionCommandBegins :
    failed (exec .lzComp { small (2 ^ 32) 64 with srcLen := 0x1000000 }) .lengthOverflow 0x1000000 = true
      ∧ failed (exec .lzComp { loaded 2 0 0 [] with cfg := (small 64 3).cfg }) .outputOverflow 3 = true
      ∧ nextIs (exec .lzComp { loaded 2 0 0 [] with cfg := (small 64 4).cfg })
          (fun t => t.outMem == [(0, 0x10), (1, 0), (2, 0), (3, 0)] && t.eo == 4) = true := by decide
theorem witness_StartForgetsEarlierResults :
    Instr.lzComp ∈ commands ∧ busyState.busy = true ∧ (Run.error = .idle ∨ Run.error = .done ∨ Run.error = .error) := by decide
theorem witness_FlagLoadsEightSelectors :
    busyState.host = [] ∧ busyState.run = .busy .stream ∧ busyState.olen.toNat ≠ busyState.ulen.toNat ∧ busyState.fcnt = 0
      ∧ busyState.latch.len.toNat ≤ busyState.ip.toNat
      ∧ ¬ (inStream [0x10, 1, 0, 0, 0x80] [] 1 0 0).latch.len.toNat ≤ (inStream [0x10, 1, 0, 0, 0x80] [] 1 0 0).ip.toNat := by
  decide
theorem witness_LiteralStoresItsByte :
    { small 1 1 with olen := 0 }.olen.toNat < (small 1 1).cfg.outSize
      ∧ (inStream [0x10, 1, 0, 0] [] 1 0 8).host = [] ∧ (inStream [0x10, 1, 0, 0] [] 1 0 8).run = .busy .stream
      ∧ (inStream [0x10, 1, 0, 0] [] 1 0 8).olen.toNat ≠ (inStream [0x10, 1, 0, 0] [] 1 0 8).ulen.toNat
      ∧ (inStream [0x10, 1, 0, 0] [] 1 0 8).fcnt ≠ 0 ∧ (inStream [0x10, 1, 0, 0] [] 1 0 8).flg.getLsbD 7 = false
      ∧ (inStream [0x10, 1, 0, 0] [] 1 0 8).latch.len.toNat ≤ (inStream [0x10, 1, 0, 0] [] 1 0 8).ip.toNat := by decide
/-- `DISP = OLEN − 1`; once with the output complete, once with the copy filling OUT to its last byte. -/
theorem witness_BackReferenceRepeatsEarlierOutput :
    (0 : BitVec 12).toNat < (inStream [] [7] 1 0 0).olen.toNat
      ∧ min (3 + (0 : BitVec 4).toNat) ((inStream [] [7] 1 0 0).ulen.toNat - 1) = 0
      ∧ 1 + min (3 + (15 : BitVec 4).toNat) ((inStream [] [7] 64 0 0).ulen.toNat - 1) ≤ 19 := by decide
theorem witness_BackReferenceBeforeOutputFails : (small 1 1).olen.toNat ≤ (0 : BitVec 12).toNat := by decide
theorem witness_LzHeaderBeginsTheStream :
    (small 64 8).cfg.outSize < (9 : BitVec 24).toNat ∧ ¬ (small 64 8).cfg.outSize < (8 : BitVec 24).toNat := by decide
/-- A window one byte short, a block one byte too long for OUT, a block that just fits both. -/
theorem witness_RawHeaderCopiesTheBlock :
    failed (exec (.hdrRaw 2) (running .header 3 0 0 [0, 2, 0, 0, 7])) .inputUnderrun 5 = true
      ∧ failed (exec (.hdrRaw 2) { running .header 3 0 0 [0, 2, 0, 0, 7, 8] with cfg := (small 64 1).cfg }) .outputOverflow 2 = true
      ∧ doneWith (exec (.hdrRaw 2) { running .header 3 0 0 [0, 2, 0, 0, 7, 8] with cfg := (small 64 2).cfg }) [7, 8] 6 = true := by
  decide
theorem witness_HeaderStepRejectsWhatItsCommandDoesNotTake :
    (running .header 1 0 0 [0x20, 3, 0]).host = [] ∧ (running .header 1 0 0 [0x20, 3, 0]).run = .busy .header
      ∧ (running .header 1 0 0 [0x20, 3, 0]).latch.len.toNat < 4
      ∧ 4 ≤ (running .header 1 0 0 [0x20, 3, 0, 0]).latch.len.toNat
      ∧ (inByte (running .header 1 0 0 [0x20, 3, 0, 0]) 0).toNat / 16 ≠ 1
      ∧ (running .header 3 0 0 [0x11, 3, 0, 0]).latch.opc = 3
      ∧ inByte (running .header 3 0 0 [0x11, 3, 0, 0]) 0 ≠ 0x10 := by decide
/-- One byte left for a flag byte and for a literal, two for a copy. -/
theorem witness_StreamStepFollowsTheFlagBits :
    1 ≤ (inStream [0x10, 1, 0, 0, 0x80] [] 1 0 0).latch.len.toNat - (inStream [0x10, 1, 0, 0, 0x80] [] 1 0 0).ip.toNat
      ∧ (inStream [0x10, 1, 0, 0, 0x41] [] 1 0x7F 8).fcnt ≠ 0 ∧ (inStream [0x10, 1, 0, 0, 0x41] [] 1 0x7F 8).flg.getLsbD 7 = false
      ∧ (inStream [0x10, 1, 0, 0, 0, 0] [] 1 0x80 1).fcnt ≠ 0 ∧ (inStream [0x10, 1, 0, 0, 0, 0] [] 1 0x80 1).flg.getLsbD 7 = true
      ∧ 2 ≤ (inStream [0x10, 1, 0, 0, 0, 0] [] 1 0x80 1).latch.len.toNat - (inStream [0x10, 1, 0, 0, 0, 0] [] 1 0x80 1).ip.toNat := by
  decide
theorem witness_StreamStepReportsMissingBytes :
    busyState.host = [] ∧ busyState.run = .busy .stream ∧ busyState.olen.toNat ≠ busyState.ulen.toNat
      ∧ busyState.latch.len.toNat ≤ busyState.ip.toNat
      ∧ (inStream [0x10, 1, 0, 0, 0] [] 1 0x80 1).fcnt ≠ 0 ∧ (inStream [0x10, 1, 0, 0, 0] [] 1 0x80 1).flg.getLsbD 7 = true
      ∧ (inStream [0x10, 1, 0, 0, 0] [] 1 0x80 1).latch.len.toNat = (inStream [0x10, 1, 0, 0, 0] [] 1 0x80 1).ip.toNat + 1 := by
  decide
theorem witness_StreamCompletesAtItsLength :
    (inStream [] [7] 1 0 0).host = [] ∧ (inStream [] [7] 1 0 0).run = .busy .stream
      ∧ (inStream [] [7] 1 0 0).olen.toNat = (inStream [] [7] 1 0 0).ulen.toNat := by decide
theorem witness_PaletteEntryStoresItsScaledChannels :
    3 * { small 64 6 with ei := 1 }.ei.toNat + 3 ≤ { small 64 6 with ei := 1 }.cfg.outSize := by decide
theorem witness_PackedPixelsUnpackInOrder :
    2 * { small 64 4 with bi := 1 }.bi.toNat + 2 ≤ { small 64 4 with bi := 1 }.cfg.outSize
      ∧ { small 64 4 with bi := 3 }.bi.toNat < { small 64 4 with bi := 3 }.cfg.outSize := by decide
/-- Index 16 strict, index 15 strict, index 255 masking with a first pixel kept, and 8 bits per pixel. -/
theorem witness_PixelsPackInOrder :
    (running .pack 6 4 0 []).latch.bpp = 4 ∧ (running .pack 6 4 0 []).latch.mask = 0 ∧ 16 ≤ (16 : Byte).toNat
      ∧ (15 : Byte).toNat < 16 ∧ (running .pack 6 4 0 []).pix = none
      ∧ (running .pack 6 4 1 []).latch.mask ≠ 0 ∧ { running .pack 6 4 1 [] with pix := some 0xFF }.pix = some 0xFF
      ∧ (running .pack 6 8 0 []).latch.bpp ≠ 4 ∧ (running .pack 6 8 0 []).bi.toNat < (running .pack 6 8 0 []).cfg.outSize := by
  decide
theorem witness_StoresBeyondOutStop :
    isFault (exec (.lit 7) { small 1 1 with olen := 1 }) (.storeOutsideOut 1) = true
      ∧ isFault (exec (.ref 0 0) { inStream [] [7] 9 0 0 with cfg := (small 64 3).cfg }) (.storeOutsideOut 3) = true
      ∧ isFault (exec (.pal16 1 2 3 0) (small 1 2)) (.storeOutsideOut 2) = true
      ∧ isFault (exec (.pix4 1 2) (small 1 1)) (.storeOutsideOut 1) = true
      ∧ isFault (exec (.pix8 7) { small 1 1 with bi := 1 }) (.storeOutsideOut 1) = true
      ∧ isFault (exec (.idx 7) { running .pack 6 4 1 [] with pix := some 1, bi := 64 }) (.storeOutsideOut 64) = true := by decide

/-- A busy state of the invariant, whose next step reports a missing flag byte. -/
theorem witness_busy_inv : busyState.Inv :=
  { cfg := by decide
    memories := ⟨by decide, by decide, by decide, by decide⟩
    run :=
      ⟨⟨by decide, by decide, by decide, by decide, by decide, by decide, ⟨by decide, by decide, by decide, by decide⟩⟩,
        ⟨by decide, by decide, by decide, by decide, by decide, by decide, by decide, by decide⟩⟩ }
/-- Its step: what the statements about steps of the invariant need. -/
theorem witness_busy_step :
    busyState.host = [] ∧ busyState.busy = true ∧ failed (step busyState) .inputUnderrun 4 = true := by decide
theorem witness_UnderrunReportsTheWindowLength : busyState.Inv ∧ busyState.busy = true := ⟨witness_busy_inv, by decide⟩
theorem witness_EveryStepKeepsTheInvariant :
    busyState.Inv ∧ nextIs (step busyState) (fun t => t.run == .error) = true := ⟨witness_busy_inv, by decide⟩
theorem witness_BlockNeverStops : busyState.Inv ∧ busyState.host = [] := ⟨witness_busy_inv, by decide⟩
theorem witness_BlockLeavesTheHostsStateAlone :
    busyState.host = [] ∧ nextIs (step busyState) (fun t => t.draw == 0) = true := by decide
theorem witness_StatusChangesOnlyAtStartEndAndReset :
    nextIs (step { small 1 1 with run := .done, host := [.reset] }) (fun t => t.run == .idle) = true
      ∧ nextIs (step { loaded 1 0 0 [] with host := [.writeReg 0 1] }) (fun t => t.run == .busy .header) = true := by decide
theorem witness_EveryCommandEnds : busyState.Inv ∧ busyState.host = [] ∧ busyState.busy = true :=
  ⟨witness_busy_inv, by decide, by decide⟩
theorem witness_EachCommandRaisesOnlyItsErrors :
    commandResult .lzDecomp (small 8 8).cfg 0 0 [0x20, 0, 0, 0] = .error (.err .unsupportedMethod 0x20)
      ∧ commandResult .lzComp (small 8 5).cfg 0 0 [1] = .error (.err .outputOverflow 5)
      ∧ commandResult .rdComp (small 8 8).cfg 0 0 [0x20, 0, 0, 0] = .error (.err .unknownCompressionType 0x20)
      ∧ commandResult .palDec (small 8 2).cfg 0 0 [1, 2] = .error (.err .outputOverflow 3)
      ∧ commandResult .tileDec (small 64 63).cfg 8 0 (List.replicate 64 1) = .error (.err .outputOverflow 64)
      ∧ commandResult .tileEnc (small 64 64).cfg 8 0 [1] = .error (.err .badLength 1) := by decide +kernel
theorem witness_DecodingInvertsEncoding :
    PalLayout.wf ⟨10, 5, 0⟩ ∧ Instr.fits .pal16 (.pal16 31 1 2 1) = true ∧ Instr.fits .headerDirect (.hdrLz 15 0) = true := by decide
theorem witness_EncodingInvertsDecoding :
    PalLayout.wf bgr555 ∧ decode bgr555 .tokenRef [0xF0, 0x01, 9] = .ok (.ref 15 1, [9]) := by decide
theorem witness_StepRunsTheDecodedElement :
    (inStream [0x10, 1, 0, 0, 0x41] [] 1 0 8).host = []
      ∧ nextElement (inStream [0x10, 1, 0, 0, 0x41] [] 1 0 8) = some (.tokenLit, 4, inStream [0x10, 1, 0, 0, 0x41] [] 1 0 7)
      ∧ fetchBytes 1 4 (inStream [0x10, 1, 0, 0, 0x41] [] 1 0 7) = .ok [0x41]
      ∧ decode bgr555 .tokenLit [0x41] = .ok (.lit 0x41, []) := by decide
theorem witness_ResetMeetsTheInvariant : defaultConfig.wf ∧ (small 1 1).cfg.wf := by decide
/-- The six statements that the steps reach the functions: parameters, no move of the host, and `CanStart` above. -/
theorem witness_StepsReachFunctions :
    (loaded 4 0 0 [1, 2]).cfg.wf ∧ (loaded 4 0 0 [1, 2]).host = [] ∧ { loaded 1 0 0 [] with srcOff := 64 }.host = []
      ∧ (loaded 3 0 0 []).host = [] ∧ (loaded 2 0 0 []).host = [] ∧ (loaded 5 4 0 []).host = []
      ∧ (loaded 6 8 0 []).host = [] := by decide
theorem witness_MatcherAnswersOnlyLegalCopies : 2 < [(1 : Byte), 1, 1].length := by decide
theorem witness_ReferenceMatcherTakesTheLongestNearest :
    matcherRef [1, 1, 1, 1] 1 = (3, 0) ∧ matcherRef [1, 1, 1, 1] 2 = (0, 0) := by decide +kernel
theorem witness_DecompressionInvertsCompression :
    [(1 : Byte), 1, 1, 1].length < 2 ^ 24 ∧ [(1 : Byte), 1, 1, 1].length ≤ 4 := by decide
theorem witness_WrapperReadsCompressedOutput : ([] : List Byte).length < 2 ^ 24 ∧ ([] : List Byte).length ≤ 0 := by decide
theorem witness_DecompressionCommandsCompare :
    4 ≤ [(0x10 : Byte), 0, 0, 0].length ∧ 0x11 ≤ ([(0x1F : Byte), 0, 0, 0].getD 0 0).toNat
      ∧ ([(0x0F : Byte), 0, 0, 0].getD 0 0).toNat < 0x10 ∧ 0x20 ≤ ([(0x20 : Byte), 0, 0, 0].getD 0 0).toNat := by decide
/-- Type 0x00: a window one byte short, an OUT one byte short, and a block that just fits; and types 0x0F and 0x20. -/
theorem witness_DecompressionCommandsCompare_outcomes :
    readCompressed [0, 2, 0, 0, 7] 2 = .error (.err .inputUnderrun 5)
      ∧ readCompressed [0, 2, 0, 0, 7, 8] 1 = .error (.err .outputOverflow 2)
      ∧ readCompressed [0, 2, 0, 0, 7, 8] 2 = .ok ([7, 8], 6)
      ∧ lzDecompress [0x0F, 0, 0, 0] 2 = .error (.err .unsupportedMethod 0x0F)
      ∧ readCompressed [0x20, 0, 0, 0] 2 = .error (.err .unknownCompressionType 0x20) := by decide +kernel
theorem witness_DecompressedLengthIsExact :
    lzDecompress [0x10, 1, 0, 0, 0, 7] 1 = .ok ([7], 6) ∧ readCompressed [0, 1, 0, 0, 7] 1 = .ok ([7], 5) := by decide +kernel
theorem witness_TrailingBytesAreNeverRead :
    lzDecompress [0x10, 1, 0, 0, 0, 7, 9] 1 = .ok ([7], 6)
      ∧ readCompressed [0, 1, 0, 0, 7, 9] 1 = .ok ([7], 5) ∧ readCompressed [0x10, 1, 0, 0, 0, 7, 9] 1 = .ok ([7], 6)
      ∧ decodePalette bgr555 [0xFF, 0x7F, 9] 3 = .ok ([255, 255, 255], 2) ∧ 2 + [(8 : Byte)].length = 3
      ∧ decodeTiles 4 [9] 0 = .ok ([], 0) ∧ 0 + [(8 : Byte)].length = 1 := by decide +kernel
theorem witness_UnpackingInvertsPacking :
    (List.replicate 64 (15 : Byte)).length = 64 * 1 ∧ ∀ x ∈ List.replicate 64 (15 : Byte), x.toNat < 16 := by decide
theorem witness_PackingInvertsUnpacking :
    (List.replicate 32 (0xFF : Byte)).length = 32 * 1 ∧ (List.replicate 64 (0xFF : Byte)).length = 64 * 1 := by decide

end Sys2Proof.Tests
end

section
/-! PROOFS. The state after reset meets the invariant. -/

namespace Sys2Proof.Machine

/-- The parameters of `State.reset` are among those R5 allows, each size at its upper bound (log 10). -/
theorem defaultConfig_wf : defaultConfig.wf := by decide

theorem Memory.wf_nil : Memory.wf [] := List.Pairwise.nil

theorem Memory.fitsIn_nil (size : Nat) : Memory.fitsIn [] size := List.forall_mem_nil _

/-- Memories that hold no value are in order, whatever their sizes (R40, R41). -/
theorem State.memoriesOk_of_empty {s : State} (hin : s.inMem = []) (hout : s.outMem = []) : s.MemoriesOk where
  inWf := hin ▸ Memory.wf_nil
  inFits := hin ▸ Memory.fitsIn_nil s.cfg.inSize
  outWf := hout ▸ Memory.wf_nil
  outFits := hout ▸ Memory.fitsIn_nil s.cfg.outSize

/-- What a reset must establish for the invariant: `IDLE`, no result and no byte of IN or OUT with a value (R43, R45).
The working registers, the latch and the host's registers may hold anything. -/
theorem State.inv_of_idle {s : State} (hcfg : s.cfg.wf) (hin : s.inMem = []) (hout : s.outMem = [])
    (hrun : s.run = .idle) (hres : s.NoResult) : s.Inv where
  cfg := hcfg
  memories := State.memoriesOk_of_empty hin hout
  run := hrun ▸ ⟨hres, hout⟩

/-- `ERR`, `ERR_INFO`, `OUT_LEN` and `IN_USED` are 0 after reset (R43). -/
theorem resetWith_noResult (c : Config) : (State.resetWith c).NoResult := ⟨rfl, rfl, rfl, rfl⟩

/-- Reset with any parameters R5 allows meets the invariant. -/
theorem resetWith_inv {c : Config} (hc : c.wf) : (State.resetWith c).Inv :=
  State.inv_of_idle hc rfl rfl rfl (resetWith_noResult c)

/-- Settles O38: reset leaves the block idle, without a result and with empty memories, and the default parameters are
among those R5 allows. -/
theorem resetMeetsTheInvariant : Obligations.ResetMeetsTheInvariant :=
  ⟨fun _ hc => resetWith_inv hc, resetWith_inv defaultConfig_wf⟩

end Sys2Proof.Machine
end

section
/-! PROOFS. What a step of the block leaves alone: the parameters, the host's registers, IN and the host's own fields;
and that it never makes the block idle. One frame lemma per operation, composed along the meanings up to `blockStep`. -/

namespace Sys2Proof.Machine

/-- The host's part of the state: what it gave the block (R40, R42, R223), and the model's own fields for it (log 2,
log 4). -/
def hostSide (s : State) :
    Config × BitVec 3 × BitVec 4 × BitVec 1 × Word × Word × Memory × List HostMove × Word × Nat :=
  (s.cfg, s.opc, s.bpp, s.mask, s.srcOff, s.srcLen, s.inMem, s.host, s.hostData, s.draw)

/-- What holds between the state before a piece of a command and the one after: the host's part is the same, and
`STATUS` is `IDLE` only if it was (R46). -/
structure BlockFrame (s t : State) : Prop where
  side : hostSide t = hostSide s
  idle : t.run = .idle → s.run = .idle

namespace BlockFrame

variable {s t u : State}

theorem refl (s : State) : BlockFrame s s := ⟨rfl, id⟩

theorem trans (h : BlockFrame s t) (k : BlockFrame t u) : BlockFrame s u :=
  ⟨k.side.trans h.side, h.idle ∘ k.idle⟩

/-- The frame in the terms of the statements. -/
theorem same (h : BlockFrame s t) : SameInputs s t ∧ t.draw = s.draw := by
  have hs := h.side
  simp only [hostSide, Prod.mk.injEq] at hs
  obtain ⟨hcfg, hopc, hbpp, hmask, hoff, hlen, hin, hhost, hdata, hdraw⟩ := hs
  exact ⟨⟨hcfg, hopc, hbpp, hmask, hoff, hlen, hin, hhost, hdata⟩, hdraw⟩

end BlockFrame

/-! ### Ends of a command -/

theorem raiseError_frame (e : ErrCode) (info : Nat) (s : State) : BlockFrame s (raiseError e info s) := ⟨rfl, nofun⟩

theorem finishDone_frame (n used : Nat) (s : State) : BlockFrame s (finishDone n used s) := ⟨rfl, nofun⟩

theorem raiseReject_frame (r : Reject) (s : State) : BlockFrame s (raiseReject r s) := by
  cases r <;> exact raiseError_frame _ _ s

/-- A step that concludes a piece of a command has the piece's frame. -/
theorem conclude_frame {s t : State} {a : Attempt State} (ha : ∀ u, a = .ok u → BlockFrame s u)
    (h : conclude s a = .next t) : BlockFrame s t := by
  obtain hok | ⟨e, info, -, rfl⟩ := conclude_next h
  · exact ha t hok
  · exact raiseError_frame e info s

/-- A step that concludes an early end does nothing but raise the error. -/
theorem conclude_error_frame {s t : State} {e : Stop} (h : conclude s (.error e) = .next t) : BlockFrame s t :=
  conclude_frame (fun _ hu => by cases hu) h

/-- Two pieces, one after the other. -/
theorem piece_then_frame {s t : State} {a : Attempt State} {f : State → Attempt State}
    (h : (match a with
      | .error e => (.error e : Attempt State)
      | .ok u => f u) = .ok t)
    (ha : ∀ {u}, a = .ok u → BlockFrame s u) (hf : ∀ {u v}, f u = .ok v → BlockFrame u v) : BlockFrame s t := by
  split at h
  · cases h
  · exact (ha rfl).trans (hf h)

/-- A piece, then a last change of the block's own fields. -/
theorem piece_update_frame {s t : State} {a : Attempt State} {g : State → State}
    (h : (match a with
      | .error e => (.error e : Attempt State)
      | .ok u => .ok (g u)) = .ok t)
    (ha : ∀ {u}, a = .ok u → BlockFrame s u) (hg : ∀ u, BlockFrame u (g u)) : BlockFrame s t :=
  piece_then_frame (f := fun u => .ok (g u)) h ha fun {u v} hv => by cases hv; exact hg u

/-- The same as a whole step. -/
theorem step_update_frame {s t : State} {a : Attempt State} {g : State → State}
    (h : (match a with
      | .error e => conclude s (.error e)
      | .ok u => .next (g u)) = .next t)
    (ha : ∀ {u}, a = .ok u → BlockFrame s u) (hg : ∀ u, BlockFrame u (g u)) : BlockFrame s t := by
  split at h
  · exact conclude_error_frame h
  · cases h; exact (ha rfl).trans (hg _)

/-! ### Storing to OUT -/

theorem memWrite_frame {a : Nat} {v : Byte} {s t : State} (h : memWrite a v s = .ok t) : BlockFrame s t := by
  obtain ⟨-, rfl⟩ := memWrite_next h
  exact ⟨rfl, id⟩

theorem memWriteAll_frame {a : Nat} {vs : List Byte} {s t : State} (h : memWriteAll a vs s = .ok t) :
    BlockFrame s t := by
  induction vs generalizing a s t with
  | nil => cases h; exact .refl _
  | cons v vs ih =>
    rw [memWriteAll] at h
    exact piece_then_frame h memWrite_frame ih

theorem emit_frame {v : Byte} {s t : State} (h : emit v s = .ok t) : BlockFrame s t := by
  unfold emit at h
  split at h
  · cases h
  · exact piece_update_frame h memWrite_frame fun _ => ⟨rfl, id⟩

theorem emitAll_frame {vs : List Byte} {s t : State} (h : emitAll vs s = .ok t) : BlockFrame s t := by
  induction vs generalizing s t with
  | nil => cases h; exact .refl _
  | cons v vs ih =>
    rw [emitAll] at h
    exact piece_then_frame h emit_frame ih

/-! ### The elements of a stream -/

theorem rawCopy_frame {left k : Nat} {s t : State} (h : rawCopy left k s = .ok t) : BlockFrame s t := by
  induction left generalizing k s t with
  | zero => cases h; exact .refl _
  | succ left ih =>
    rw [rawCopy] at h
    split at h
    · cases h
    · exact piece_then_frame h memWrite_frame ih

theorem execHdrRaw_frame {ulen : BitVec 24} {s t : State} (h : execHdrRaw ulen s = .next t) : BlockFrame s t := by
  unfold execHdrRaw at h
  split at h
  · cases h; exact raiseError_frame _ _ s
  · split at h
    · cases h; exact raiseError_frame _ _ s
    · exact step_update_frame h rawCopy_frame (finishDone_frame _ _)

theorem execHdrLz_frame {sub : BitVec 4} {ulen : BitVec 24} {s t : State} (h : execHdrLz sub ulen s = .next t) :
    BlockFrame s t := by
  unfold execHdrLz at h
  split at h
  · cases h; exact raiseError_frame _ _ s
  · cases h; exact ⟨rfl, nofun⟩

theorem execFlag_frame {f : Byte} {s t : State} (h : execFlag f s = .next t) : BlockFrame s t := by
  cases h; exact ⟨rfl, id⟩

theorem execLit_frame {b : Byte} {s t : State} (h : execLit b s = .next t) : BlockFrame s t :=
  step_update_frame h memWrite_frame fun _ => ⟨rfl, id⟩

theorem copyStep_frame {s t : State} (h : copyStep s = .ok t) : BlockFrame s t :=
  piece_update_frame h memWrite_frame fun _ => ⟨rfl, id⟩

theorem copyLoop_frame {fuel : Nat} {s t : State} (h : copyLoop fuel s = .ok t) : BlockFrame s t := by
  induction fuel generalizing s t with
  | zero => cases h; exact .refl _
  | succ fuel ih =>
    rw [copyLoop] at h
    split at h
    · exact piece_then_frame h copyStep_frame ih
    · cases h; exact .refl _

theorem copyBytes_frame {src len : Nat} {s t : State} (h : copyBytes src len s = .ok t) : BlockFrame s t := by
  have hset : BlockFrame s { s with csrc := BitVec.ofNat 32 src, crem := BitVec.ofNat 5 len } := ⟨rfl, id⟩
  exact piece_update_frame h (fun hu => hset.trans (copyLoop_frame hu)) fun _ => ⟨rfl, id⟩

theorem execRef_frame {ln : BitVec 4} {disp : BitVec 12} {s t : State} (h : execRef ln disp s = .next t) :
    BlockFrame s t := by
  unfold execRef at h
  split at h
  · cases h; exact raiseError_frame _ _ s
  · have hip : BlockFrame s { s with ip := s.ip + 2 } := ⟨rfl, id⟩
    exact conclude_frame (fun _ hu => hip.trans (copyBytes_frame hu)) h

/-! ### Palette entries and pixels -/

theorem execPal16_frame {r5 g5 b5 : BitVec 5} {x : BitVec 1} {s t : State} (h : execPal16 r5 g5 b5 x s = .next t) :
    BlockFrame s t :=
  step_update_frame h memWriteAll_frame fun _ => ⟨rfl, id⟩

theorem execPix4_frame {p0 p1 : BitVec 4} {s t : State} (h : execPix4 p0 p1 s = .next t) : BlockFrame s t :=
  step_update_frame h memWriteAll_frame fun _ => ⟨rfl, id⟩

theorem execPix8_frame {p : Byte} {s t : State} (h : execPix8 p s = .next t) : BlockFrame s t :=
  step_update_frame h memWrite_frame fun _ => ⟨rfl, id⟩

theorem execIdx_frame {i : Byte} {s t : State} (h : execIdx i s = .next t) : BlockFrame s t := by
  unfold execIdx at h
  split at h
  · split at h
    · cases h; exact raiseError_frame _ _ s
    · split at h
      · cases h; exact ⟨rfl, id⟩
      · exact step_update_frame h memWrite_frame fun _ => ⟨rfl, id⟩
  · exact step_update_frame h memWrite_frame fun _ => ⟨rfl, id⟩

/-! ### The compressor -/

theorem openGroup_frame {s t : State} (h : openGroup s = .ok t) : BlockFrame s t := by
  have hplace : BlockFrame s { s with fpos := s.eo } := ⟨rfl, id⟩
  exact piece_update_frame h (fun hu => hplace.trans (emit_frame hu)) fun _ => ⟨rfl, nofun⟩

theorem emitRefToken_frame {len disp : Nat} {s t : State} (h : emitRefToken len disp s = .ok t) : BlockFrame s t := by
  have hmark : BlockFrame s { s with facc := markRef s.facc s.fk.toNat } := ⟨rfl, id⟩
  exact piece_update_frame h (fun hu => hmark.trans (emitAll_frame hu)) fun _ => ⟨rfl, id⟩

theorem emitLitToken_frame {s t : State} (h : emitLitToken s = .ok t) : BlockFrame s t := by
  unfold emitLitToken at h
  split at h
  · cases h
  · exact piece_update_frame h emitAll_frame fun _ => ⟨rfl, id⟩

theorem emitToken_frame {s t : State} (h : emitToken s = .ok t) : BlockFrame s t := by
  unfold emitToken at h
  dsimp only at h
  split at h
  · exact emitRefToken_frame h
  · exact emitLitToken_frame h

theorem closeGroup_frame {s t : State} (h : closeGroup s = .ok t) : BlockFrame s t :=
  piece_update_frame h memWrite_frame fun _ => ⟨rfl, nofun⟩

theorem groupOpenStep_frame {s t : State} (h : groupOpenStep s = .next t) : BlockFrame s t := by
  unfold groupOpenStep at h
  split at h
  · exact conclude_frame (fun _ => openGroup_frame) h
  · cases h; exact finishDone_frame _ _ s

theorem groupTokensStep_frame {s t : State} (h : groupTokensStep s = .next t) : BlockFrame s t := by
  unfold groupTokensStep at h
  split at h
  · exact conclude_frame (fun _ => emitToken_frame) h
  · exact conclude_frame (fun _ => closeGroup_frame) h

/-! ### Beginning a command -/

/-- `t` comes from `s` by an accepted `START`: the command began, and what it did first kept the frame. -/
def StartFrame (s t : State) : Prop :=
  s.busy = false ∧ ∃ opc p, BlockFrame (beginCommand opc p s) t

/-- An accepted `START` never leads to `IDLE`, and changes no parameter. -/
theorem StartFrame.not_idle {s t : State} (h : StartFrame s t) : t.cfg = s.cfg ∧ t.run ≠ .idle := by
  obtain ⟨-, opc, p, h⟩ := h
  exact ⟨h.same.1.cfg, fun ht => nomatch h.idle ht⟩

theorem headerPrologue_frame {s t : State} (h : headerPrologue s = .ok t) : BlockFrame s t := by
  cases h; exact .refl _

theorem compressPrologue_frame {s t : State} (h : compressPrologue s = .ok t) : BlockFrame s t := by
  unfold compressPrologue at h
  split at h
  · cases h
  · have hzero : BlockFrame s { s with eo := 0 } := ⟨rfl, id⟩
    exact piece_update_frame h (fun hu => hzero.trans (emitAll_frame hu)) fun _ => ⟨rfl, id⟩

theorem palPrologue_frame {s t : State} (h : palPrologue s = .ok t) : BlockFrame s t := by
  unfold palPrologue at h
  split at h
  · cases h
  · cases h; exact ⟨rfl, id⟩

theorem unpackPrologue_frame {s t : State} (h : unpackPrologue s = .ok t) : BlockFrame s t := by
  unfold unpackPrologue at h
  split at h
  · cases h
  · cases h; exact ⟨rfl, id⟩

theorem packPrologue_frame {s t : State} (h : packPrologue s = .ok t) : BlockFrame s t := by
  unfold packPrologue at h
  split at h
  · cases h
  · split at h
    · cases h
    · cases h; exact ⟨rfl, id⟩

/-- Everything a `START` can lead to: nothing while `BUSY` (R225), else the command begins. -/
theorem launch_next {opc : BitVec 3} {p : Phase} {tile : Bool} {f : State → Attempt State} {s t : State}
    (hf : ∀ {u v}, f u = .ok v → BlockFrame u v) (h : launch opc p tile f s = .next t) :
    s.busy = true ∧ t = s ∨ StartFrame s t := by
  unfold launch at h
  split at h
  · next hb => cases h; exact .inl ⟨hb, rfl⟩
  · next hb =>
    refine .inr ⟨by simpa using hb, opc, p, ?_⟩
    split at h
    · exact conclude_error_frame h
    · exact conclude_frame (fun _ => hf) h

/-- Everything a meaning can lead to: an element keeps the frame; a command does, while `BUSY`, and else begins. -/
theorem exec_next {i : Instr} {s t : State} (h : exec i s = .next t) : BlockFrame s t ∨ StartFrame s t := by
  have launched (h : s.busy = true ∧ t = s ∨ StartFrame s t) : BlockFrame s t ∨ StartFrame s t :=
    h.imp_left fun ⟨_, ht⟩ => ht ▸ .refl s
  cases i with
  | hdrRaw _ => exact .inl (execHdrRaw_frame h)
  | hdrLz sub _ => exact .inl (execHdrLz_frame (sub := sub) h)
  | flag _ => exact .inl (execFlag_frame h)
  | lit _ => exact .inl (execLit_frame h)
  | ref _ _ => exact .inl (execRef_frame h)
  | pal16 _ _ _ x => exact .inl (execPal16_frame (x := x) h)
  | pix4 _ _ => exact .inl (execPix4_frame h)
  | pix8 _ => exact .inl (execPix8_frame h)
  | idx _ => exact .inl (execIdx_frame h)
  | lzDecomp => exact launched (launch_next headerPrologue_frame h)
  | lzComp => exact launched (launch_next compressPrologue_frame h)
  | rdComp => exact launched (launch_next headerPrologue_frame h)
  | palDec => exact launched (launch_next palPrologue_frame h)
  | tileDec => exact launched (launch_next unpackPrologue_frame h)
  | tileEnc => exact launched (launch_next packPrologue_frame h)

/-! ### A step of the block -/

/-- With no command running the block reads no element. -/
theorem nextElement_of_not_busy {s : State} (h : s.busy = false) : nextElement s = none := by
  unfold nextElement
  obtain h | h | h := (not_busy_iff s).1 h <;> rw [h]

/-- An element runs in the block's own state or, when it is a token, in the one after the token select (R135). -/
theorem nextElement_state {s u : State} {c : Ctx} {k : Nat} (h : nextElement s = some (c, k, u)) :
    u = s ∨ u = selectToken s := by
  unfold nextElement at h
  split at h
  case h_1 => cases h; exact .inl rfl
  case h_2 =>
    split at h
    · cases h
    · split at h
      · cases h; exact .inl rfl
      · cases h; exact .inr rfl
  case h_3 | h_4 | h_5 =>
    split at h
    · cases h; exact .inl rfl
    · cases h
  all_goals cases h

theorem runElement_frame {c : Ctx} {k : Nat} {s t : State} (hb : s.busy = true) (h : runElement c k s = .next t) :
    BlockFrame s t := by
  unfold runElement at h
  split at h
  · exact conclude_error_frame h
  · split at h
    · cases h; exact raiseReject_frame _ s
    · obtain h | ⟨hidle, -⟩ := exec_next h
      · exact h
      · simp [hb] at hidle

theorem controlStep_frame {s t : State} (h : controlStep s = .next t) : BlockFrame s t := by
  unfold controlStep at h
  split at h
  case h_2 | h_3 | h_4 | h_5 => cases h; exact finishDone_frame _ _ s
  case h_6 => exact groupOpenStep_frame h
  case h_7 => exact groupTokensStep_frame h
  all_goals cases h; exact .refl _

/-- With no command running the block waits (R43, R261). -/
theorem blockStep_of_not_busy {s : State} (h : s.busy = false) : blockStep s = .next s := by
  unfold blockStep controlStep
  rw [nextElement_of_not_busy h]
  obtain h | h | h := (not_busy_iff s).1 h <;> rw [h]

/-- Every step of the block keeps the frame. -/
theorem blockStep_frame {s t : State} (h : blockStep s = .next t) : BlockFrame s t := by
  cases hb : s.busy with
  | false =>
    rw [blockStep_of_not_busy hb] at h
    cases h; exact .refl _
  | true =>
    unfold blockStep at h
    split at h
    · next c k u hu =>
      obtain rfl | rfl := nextElement_state hu
      · exact runElement_frame hb h
      · have hselect : BlockFrame s (selectToken s) := ⟨rfl, id⟩
        exact hselect.trans (runElement_frame hb h)
    · exact controlStep_frame h

/-- Without a move of the host a step is the block's. -/
theorem step_of_no_move {s : State} (h : s.host = []) : step s = blockStep s := by
  unfold step nextStep
  rw [h]

/-- Settles O41: with no host move a step is the block's, and that keeps the frame. -/
theorem blockLeavesTheHostsStateAlone : Obligations.BlockLeavesTheHostsStateAlone := by
  intro s t hhost h
  rw [step_of_no_move hhost] at h
  exact (blockStep_frame h).same

end Sys2Proof.Machine
end

section
/-! PROOFS. The host's registers: what a write by number changes, what a read by number gives, the steps that make these
moves, and the `START` write. -/

namespace Sys2Proof.Machine

/-! ### Writing a register -/

/-- Everything a register write can do: nothing, or set the fields of `OP`, `MODE`, `SRC_OFF` or `SRC_LEN`. -/
theorem writeReg_cases (n : Nat) (v : Word) (s : State) :
    writeReg n v s = s
      ∨ n = 1 ∧ writeReg n v s = { s with opc := v.extractLsb' 0 3 }
      ∨ n = 2 ∧ writeReg n v s = { s with bpp := v.extractLsb' 0 4, mask := v.extractLsb' 8 1 }
      ∨ n = 3 ∧ writeReg n v s = { s with srcOff := v }
      ∨ n = 4 ∧ writeReg n v s = { s with srcLen := v } := by
  cases hb : s.busy with
  | true => exact .inl (writeReg_busy hb)
  | false =>
    unfold writeReg
    rw [hb]
    match n with
    | 1 => exact .inr (.inl ⟨rfl, rfl⟩)
    | 2 => exact .inr (.inr (.inl ⟨rfl, rfl⟩))
    | 3 => exact .inr (.inr (.inr (.inl ⟨rfl, rfl⟩)))
    | 4 => exact .inr (.inr (.inr (.inr ⟨rfl, rfl⟩)))
    | 0 | _ + 5 => exact .inl rfl

section NotBusy
variable {s : State} (h : s.busy = false) (v : Word)
include h

theorem writeReg_op : writeReg 1 v s = { s with opc := v.extractLsb' 0 3 } := by
  simp [writeReg, h]

theorem writeReg_mode : writeReg 2 v s = { s with bpp := v.extractLsb' 0 4, mask := v.extractLsb' 8 1 } := by
  simp [writeReg, h]

theorem writeReg_srcOff : writeReg 3 v s = { s with srcOff := v } := by simp [writeReg, h]

theorem writeReg_srcLen : writeReg 4 v s = { s with srcLen := v } := by simp [writeReg, h]

end NotBusy

/-- `CTRL`, the read-only registers and the numbers from 10 on are not written (R22, R32). -/
theorem writeReg_ignored {n : Nat} (v : Word) (s : State) (h : n = 0 ∨ 5 ≤ n) : writeReg n v s = s := by
  obtain h' | ⟨rfl, -⟩ | ⟨rfl, -⟩ | ⟨rfl, -⟩ | ⟨rfl, -⟩ := writeReg_cases n v s
  · exact h'
  all_goals omega

/-- A write changes at most the fields of `OP`, `MODE`, `SRC_OFF` and `SRC_LEN`. -/
theorem writeReg_frame (n : Nat) (v : Word) (s : State) :
    writeReg n v s =
      { s with opc := (writeReg n v s).opc, bpp := (writeReg n v s).bpp, mask := (writeReg n v s).mask
               srcOff := (writeReg n v s).srcOff, srcLen := (writeReg n v s).srcLen } := by
  obtain h | ⟨-, h⟩ | ⟨-, h⟩ | ⟨-, h⟩ | ⟨-, h⟩ := writeReg_cases n v s <;> rw [h]

@[simp] theorem writeReg_cfg (n : Nat) (v : Word) (s : State) : (writeReg n v s).cfg = s.cfg := by
  rw [writeReg_frame]

@[simp] theorem writeReg_run (n : Nat) (v : Word) (s : State) : (writeReg n v s).run = s.run := by
  rw [writeReg_frame]

@[simp] theorem writeReg_err (n : Nat) (v : Word) (s : State) : (writeReg n v s).err = s.err := by
  rw [writeReg_frame]

/-! ### Reading a register -/

theorem readReg_beyond {n : Nat} (s : State) (h : 10 ≤ n) : readReg n s = 0 := by
  obtain ⟨k, rfl⟩ := Nat.exists_eq_add_of_le' h
  rfl

/-- Every register of another number reads as before a write. -/
theorem readReg_writeReg_other {m n : Nat} (v : Word) (s : State) (h : m ≠ n) :
    readReg m (writeReg n v s) = readReg m s := by
  obtain h' | ⟨rfl, h'⟩ | ⟨rfl, h'⟩ | ⟨rfl, h'⟩ | ⟨rfl, h'⟩ := writeReg_cases n v s <;> rw [h']
  all_goals
    unfold readReg
    split <;> simp at h ⊢

/-! ### Fields of a register -/

/-- A written field of `k` bits from bit `lo` on, read back at its place: the value with all its other bits 0. -/
theorem field_readBack (v : Word) (lo k : Nat) :
    (v.extractLsb' lo k).setWidth 32 <<< lo = v &&& ((BitVec.allOnes k).setWidth 32 <<< lo) := by
  ext i hi
  by_cases hlo : i < lo
  · simp [hlo]
  · have hi' : lo + (i - lo) = i := by omega
    simp [hlo, hi', BitVec.getLsbD_eq_getElem hi, Bool.and_comm]

theorem lowField_readBack (v : Word) (k : Nat) :
    (v.extractLsb' 0 k).setWidth 32 = v &&& (BitVec.allOnes k).setWidth 32 := by
  simpa using field_readBack v 0 k

/-- A field that is read at bit 0 has no bit at or above its width. -/
theorem lowField_reserved {k : Nat} (x : BitVec k) :
    x.setWidth 32 &&& (BitVec.allOnes k).setWidth 32 = x.setWidth 32 := by
  rw [← BitVec.setWidth_and, BitVec.and_allOnes]

/-- The fields of `MODE` read back what was written to them (R24): `MASK` is bit 8, `BPP` bits 3:0. -/
theorem mode_readBack (v : Word) :
    ((v.extractLsb' 8 1).setWidth 32 <<< 8) ||| (v.extractLsb' 0 4).setWidth 32 = v &&& 0x10F := by
  rw [field_readBack, lowField_readBack, ← BitVec.and_or_distrib_left]
  rfl

/-- The word that `MODE` reads as has 0 in every reserved bit (R32). -/
theorem mode_reserved (mask : BitVec 1) (bpp : BitVec 4) :
    ((mask.setWidth 32 <<< 8) ||| bpp.setWidth 32 : Word) &&& 0x10F = (mask.setWidth 32 <<< 8) ||| bpp.setWidth 32 := by
  revert mask bpp
  decide

/-- Settles O2, field by field. -/
theorem fieldsReadBackAndReservedBitsReadZero : Obligations.FieldsReadBackAndReservedBitsReadZero := by
  intro s v
  refine ⟨fun hb => ⟨?op, ?mode, ?off, ?len, fun n => ⟨writeReg_run n v s, writeReg_err n v s⟩⟩, rfl,
    lowField_reserved s.opc, mode_reserved s.mask s.bpp, lowField_reserved s.run.code, lowField_reserved s.err.code⟩
  case op => rw [writeReg_op hb]; exact lowField_readBack v 3
  case mode => rw [writeReg_mode hb]; exact mode_readBack v
  case off => rw [writeReg_srcOff hb]; rfl
  case len => rw [writeReg_srcLen hb]; rfl

/-! ### The host's moves -/

theorem step_writeReg (n : Nat) (v : Word) (s : State) (rest : List HostMove) :
    step { s with host := .writeReg n v :: rest } = hostWriteReg n v { s with host := rest } := rfl

theorem step_readReg (n : Nat) (s : State) (rest : List HostMove) :
    step { s with host := .readReg n :: rest } = hostReadReg n { s with host := rest } := rfl

theorem hostWriteReg_of_ne_zero {n : Nat} (h : n ≠ 0) (v : Word) (s : State) :
    hostWriteReg n v s = .next (writeReg n v s) := if_neg h

theorem hostWriteReg_start {v : Word} (h : v.getLsbD 0 = true) (s : State) :
    hostWriteReg 0 v s = startCommand s := if_pos h

theorem hostWriteReg_no_start {v : Word} (h : v.getLsbD 0 = false) (s : State) :
    hostWriteReg 0 v s = .next s := by
  rw [hostWriteReg, if_pos rfl, startBit, if_neg (by simp only [h]; decide)]

theorem hostReadReg_of_not_busy {s : State} (h : s.busy = false) (n : Nat) :
    hostReadReg n s = .next { s with hostData := readReg n s } := if_neg (by simp [h])

/-- While `BUSY` only `STATUS` may be read (log 3). -/
theorem hostReadReg_of_busy {s : State} (h : s.busy = true) {n : Nat} (hn : n ≠ 5) :
    hostReadReg n s = .refused .regReadWhileBusy := if_pos ⟨h, hn⟩

/-- `STATUS` may be read at any time. -/
theorem hostReadReg_status (s : State) : hostReadReg 5 s = .next { s with hostData := readReg 5 s } := if_neg (by simp)

theorem readReg_status_of_busy {s : State} (h : s.busy = true) : readReg 5 s = 1 := by
  obtain ⟨p, hp⟩ := (busy_iff s).1 h
  unfold readReg
  rw [hp]
  rfl

/-- Settles O3: a write by its cases, and the host's two register moves while not `BUSY`. -/
theorem registerWritesTouchOnlyTheirRegister : Obligations.RegisterWritesTouchOnlyTheirRegister := by
  intro s n v rest
  refine ⟨writeReg_frame n v s, fun m hm => readReg_writeReg_other v s hm, writeReg_ignored v s,
    readReg_beyond s, fun hb => ⟨fun hn => ?write, ?read⟩⟩
  case write => rw [step_writeReg, hostWriteReg_of_ne_zero hn]
  case read => rw [step_readReg]; exact hostReadReg_of_not_busy (s := { s with host := rest }) hb n

/-! ### The `START` write -/

theorem startCommand_of_command {s : State} {i : Instr} (h : decodeCommand (commandByte s) = some i) :
    startCommand s = exec i s := by
  simp [startCommand, decode, h]

theorem startCommand_reserved {s : State} (h : decodeCommand (commandByte s) = none) :
    startCommand s = .next (launchReserved s) := by
  simp [startCommand, decode, h]

/-- The number of a command decodes to the command (R105). -/
theorem decodeCommand_opc : ∀ i ∈ commands, decodeCommand (i.opc.setWidth 8) = some i := by decide

/-- A command does nothing while `BUSY` (R225). -/
theorem exec_command_busy {s : State} (hb : s.busy = true) {i : Instr} (hi : i ∈ commands) : exec i s = .next s := by
  simp only [commands, List.mem_cons, List.not_mem_nil, or_false] at hi
  obtain rfl | rfl | rfl | rfl | rfl | rfl := hi <;> exact launch_busy hb

/-- A `START` while `BUSY` is ignored, whatever `OP` holds (R33, R225). -/
theorem startCommand_busy {s : State} (hb : s.busy = true) : startCommand s = .next s := by
  cases hd : decodeCommand (commandByte s) with
  | some i => rw [startCommand_of_command hd, exec_command_busy hb (decodeCommand_mem hd)]
  | none => rw [startCommand_reserved hd, launchReserved, if_pos hb]

/-- A register write while `BUSY`, `START` included, only leaves the queue (R33). -/
theorem hostWriteReg_busy {s : State} (hb : s.busy = true) (n : Nat) (v : Word) : hostWriteReg n v s = .next s := by
  by_cases hn : n = 0
  · subst hn
    cases hv : v.getLsbD 0 with
    | true => rw [hostWriteReg_start hv, startCommand_busy hb]
    | false => exact hostWriteReg_no_start hv s
  · rw [hostWriteReg_of_ne_zero hn, writeReg_busy hb]

/-- Settles O4: the number in `OP` decodes to the command. -/
theorem controlWriteStartsTheSelectedCommand : Obligations.ControlWriteStartsTheSelectedCommand := by
  intro s v rest
  refine ⟨rfl, fun hv => ?_, fun hv i hi hopc => ?_⟩
  · rw [step_writeReg, hostWriteReg_no_start hv]
  · have hdecode : decodeCommand (commandByte { s with host := rest }) = some i := by
      rw [← decodeCommand_opc i hi, ← hopc]
      rfl
    rw [step_writeReg, hostWriteReg_start hv, startCommand_of_command hdecode]

/-- Settles O5: neither `writeReg` nor a `START` has an effect while `BUSY`. -/
theorem busyBlockIgnoresRegisterWrites : Obligations.BusyBlockIgnoresRegisterWrites := by
  intro s rest n v hb
  have hb' : State.busy { s with host := rest } = true := hb
  refine ⟨?_, ?_, fun hn => ?_⟩
  · rw [step_writeReg, hostWriteReg_busy hb']
  · rw [step_readReg, hostReadReg_status, readReg_status_of_busy hb']
  · rw [step_readReg, hostReadReg_of_busy hb' hn]

end Sys2Proof.Machine
end

section
/-! PROOFS. Which steps change `STATUS` and the parameters: one lemma per move of the host, composed to one about
`step`. -/

namespace Sys2Proof.Machine

/-- What a step may do to the parameters and to `STATUS` when the host's next move is `m`, if it has one
(R42, R46, R224). -/
structure StatusStep (m : Option HostMove) (s t : State) : Prop where
  cfg : t.cfg = s.cfg
  idle : t.run = .idle → s.run = .idle ∨ m = some .reset
  rest : s.busy = false → t.run ≠ s.run →
    m = some .reset ∨ ∃ v : Word, v.getLsbD 0 = true ∧ m = some (.writeReg 0 v)

theorem StatusStep.of_same {m : Option HostMove} {s t : State} (hcfg : t.cfg = s.cfg) (hrun : t.run = s.run) :
    StatusStep m s t :=
  ⟨hcfg, fun h => .inl (hrun ▸ h), fun _ h => absurd hrun h⟩

theorem StatusStep.of_start {v : Word} {s t : State} (hv : v.getLsbD 0 = true) (hcfg : t.cfg = s.cfg)
    (hidle : t.run = .idle → s.run = .idle) : StatusStep (some (.writeReg 0 v)) s t :=
  ⟨hcfg, fun h => .inl (hidle h), fun _ _ => .inr ⟨v, hv, rfl⟩⟩

/-- A step of the block changes `STATUS` only while `BUSY`, and not to `IDLE`. -/
theorem blockStep_statusStep {m : Option HostMove} {s t : State} (h : blockStep s = .next t) : StatusStep m s t := by
  cases hb : s.busy with
  | true =>
    have hf := blockStep_frame h
    exact ⟨hf.same.1.cfg, fun ht => .inl (hf.idle ht), fun hrest => by simp [hb] at hrest⟩
  | false =>
    rw [blockStep_of_not_busy hb] at h
    cases h; exact .of_same rfl rfl

/-- A `START` keeps the frame or begins a command, a reserved number included. -/
theorem startCommand_next {s t : State} (h : startCommand s = .next t) : BlockFrame s t ∨ StartFrame s t := by
  cases hd : decodeCommand (commandByte s) with
  | some i =>
    rw [startCommand_of_command hd] at h
    exact exec_next h
  | none =>
    rw [startCommand_reserved hd] at h
    cases h
    unfold launchReserved
    split
    · exact .inl (.refl s)
    · next hb => exact .inr ⟨by simpa using hb, s.opc, .header, raiseError_frame _ _ _⟩

theorem hostWriteReg_statusStep {n : Nat} {v : Word} {s t : State} (h : hostWriteReg n v s = .next t) :
    StatusStep (some (.writeReg n v)) s t := by
  by_cases hn : n = 0
  · subst hn
    cases hv : v.getLsbD 0 with
    | false =>
      rw [hostWriteReg_no_start hv] at h
      cases h; exact .of_same rfl rfl
    | true =>
      rw [hostWriteReg_start hv] at h
      obtain hf | hf := startCommand_next h
      · exact .of_start hv hf.same.1.cfg hf.idle
      · exact .of_start hv hf.not_idle.1 fun ht => absurd ht hf.not_idle.2
  · rw [hostWriteReg_of_ne_zero hn] at h
    cases h; exact .of_same (writeReg_cfg n v s) (writeReg_run n v s)

theorem hostReadReg_statusStep {m : Option HostMove} {n : Nat} {s t : State} (h : hostReadReg n s = .next t) :
    StatusStep m s t := by
  unfold hostReadReg at h
  split at h
  · cases h
  · cases h; exact .of_same rfl rfl

theorem hostWriteIn_statusStep {m : Option HostMove} {a : Nat} {v : Byte} {s t : State}
    (h : hostWriteIn a v s = .next t) : StatusStep m s t := by
  unfold hostWriteIn at h
  split at h
  · cases h
  · split at h
    · cases h
    · cases h; exact .of_same rfl rfl

theorem hostReadOut_statusStep {m : Option HostMove} {a : Nat} {s t : State} (h : hostReadOut a s = .next t) :
    StatusStep m s t := by
  unfold hostReadOut at h
  split at h
  · cases h
  · split at h
    · cases h
    · split at h <;> cases h <;> exact .of_same rfl rfl

theorem hostMove_statusStep {m : HostMove} {s t : State} (h : hostMove m s = .next t) : StatusStep (some m) s t := by
  cases m with
  | writeReg n v => exact hostWriteReg_statusStep h
  | readReg n => exact hostReadReg_statusStep h
  | writeIn a v => exact hostWriteIn_statusStep h
  | readOut a => exact hostReadOut_statusStep h
  | reset => cases h; exact ⟨rfl, fun _ => .inr rfl, fun _ _ => .inl rfl⟩
  | letRun => exact blockStep_statusStep h
  | poll => cases h; exact .of_same rfl rfl

/-- Everything a step of block and host together may do to `STATUS`. -/
theorem step_statusStep {s t : State} (h : step s = .next t) : StatusStep s.host.head? s t := by
  unfold step nextStep at h
  split at h
  · exact blockStep_statusStep h
  · next m rest hhost =>
    split at h
    · exact blockStep_statusStep h
    · obtain ⟨hcfg, hidle, hrest⟩ := hostMove_statusStep h
      rw [hhost]
      exact ⟨hcfg, hidle, hrest⟩

/-- Settles O42: the cases are those of the host's moves. -/
theorem statusChangesOnlyAtStartEndAndReset : Obligations.StatusChangesOnlyAtStartEndAndReset := by
  intro s t h
  obtain ⟨hcfg, hidle, hrest⟩ := step_statusStep h
  exact ⟨hcfg, hidle, hrest⟩

end Sys2Proof.Machine
end

section
/-! PROOFS. Stores that would leave OUT: the first address at or beyond `OUT_SIZE` is the one the fault names (log 16). -/

namespace Sys2Proof.Machine

/-- Consecutive stores stop at the first that is outside OUT. -/
theorem memWriteAll_outside {a : Nat} {vs : List Byte} {s : State} (hne : vs ≠ [])
    (h : s.cfg.outSize < a + vs.length) :
    memWriteAll a vs s = .error (.fault (.storeOutsideOut (max a s.cfg.outSize))) := by
  induction vs generalizing a s with
  | nil => exact absurd rfl hne
  | cons v vs ih =>
    rw [List.length_cons] at h
    rw [memWriteAll]
    by_cases ha : a < s.cfg.outSize
    · have hrest : vs ≠ [] := by rintro rfl; simp at h; omega
      rw [memWrite_ok v ha]
      simp only
      rw [ih hrest (by simp only; omega), Nat.max_eq_right ha, Nat.max_eq_right ha.le]
    · rw [memWrite_outside v (by omega), Nat.max_eq_left (by omega)]

/-- One byte of a copy whose next address is outside OUT. -/
theorem copyStep_outside {s : State} (h : s.cfg.outSize ≤ s.olen.toNat) :
    copyStep s = .error (.fault (.storeOutsideOut s.olen.toNat)) := by
  rw [copyStep, memWrite_outside _ h]

/-- A copy that would pass the end of OUT, with bytes enough to copy and room for them below `ULEN`, stops there. -/
theorem copyLoop_outside {fuel : Nat} {s : State} (hfuel : s.crem.toNat ≤ fuel) (ho : s.olen.toNat < s.ulen.toNat)
    (hr : 0 < s.crem.toNat)
    (h : s.cfg.outSize < s.olen.toNat + min s.crem.toNat (s.ulen.toNat - s.olen.toNat)) :
    copyLoop fuel s = .error (.fault (.storeOutsideOut (max s.olen.toNat s.cfg.outSize))) := by
  induction fuel generalizing s with
  | zero => omega
  | succ fuel ih =>
    rw [copyLoop_next fuel hr ho]
    by_cases hin : s.olen.toNat < s.cfg.outSize
    · have holen : (s.olen + 1).toNat = s.olen.toNat + 1 := by bv_omega
      have hcrem : (s.crem - 1).toNat = s.crem.toNat - 1 := by bv_omega
      rw [copyStep_ok hin]
      simp only
      rw [ih (by simp only [hcrem]; omega) (by simp only [holen]; omega) (by simp only [hcrem]; omega)
        (by simp only [holen, hcrem]; omega)]
      simp only [holen, Nat.max_eq_right hin, Nat.max_eq_right hin.le]
    · rw [copyStep_outside (by omega), Nat.max_eq_left (by omega)]

theorem copyBytes_outside {src len : Nat} {s : State} (hpos : 0 < len) (hlen : len < 32)
    (ho : s.olen.toNat < s.ulen.toNat)
    (h : s.cfg.outSize < s.olen.toNat + min len (s.ulen.toNat - s.olen.toNat)) :
    copyBytes src len s = .error (.fault (.storeOutsideOut (max s.olen.toNat s.cfg.outSize))) := by
  have hcrem : (BitVec.ofNat 5 len).toNat = len := Nat.mod_eq_of_lt hlen
  rw [copyBytes, copyLoop_outside]
  · simp only [hcrem, le_refl]
  · exact ho
  · simpa only [hcrem] using hpos
  · simpa only [hcrem] using h

/-- A back-reference whose copy would pass the end of OUT. -/
theorem execRef_outside {ln : BitVec 4} {disp : BitVec 12} {s : State} (hdisp : disp.toNat < s.olen.toNat)
    (ho : s.olen.toNat < s.ulen.toNat)
    (h : s.cfg.outSize < s.olen.toNat + min (copyLen ln) (s.ulen.toNat - s.olen.toNat)) :
    execRef ln disp s = .fault (.storeOutsideOut (max s.olen.toNat s.cfg.outSize)) := by
  have hsrc : ¬ sourcePtr s.olen.toNat disp < 0 := by unfold sourcePtr; omega
  have hpos : 0 < copyLen ln := by unfold copyLen; omega
  have hlen : copyLen ln < 32 := by unfold copyLen; omega
  rw [execRef, if_neg hsrc, copyBytes_outside (s := { s with ip := s.ip + 2 }) hpos hlen ho h]
  rfl

/-- One pixel of `TILE_ENC` that is to be stored outside OUT: at 4 bits per pixel the second of a pair that no
strict check rejects. -/
theorem execIdx_outside {i : Byte} {s : State} (h : s.cfg.outSize ≤ s.bi.toNat)
    (hpair : s.latch.bpp = 4 → s.latch.mask ≠ 0 ∧ s.pix.isSome) :
    execIdx i s = .fault (.storeOutsideOut s.bi.toNat) := by
  unfold execIdx
  by_cases hbpp : s.latch.bpp = 4
  · obtain ⟨hmask, hpix⟩ := hpair hbpp
    obtain ⟨a, ha⟩ := Option.isSome_iff_exists.1 hpix
    simp only [hbpp, hmask, ha, memWrite_outside _ h, false_and, if_true, if_false, conclude_fault]
  · simp only [hbpp, memWrite_outside _ h, if_false, conclude_fault]

/-- Settles O30, element by element. -/
theorem storesBeyondOutStop : Obligations.StoresBeyondOutStop := by
  intro s
  refine ⟨fun b h => ?lit, fun ln disp hdisp ho h => execRef_outside hdisp ho h, fun r5 g5 b5 x h => ?pal16,
    fun p0 p1 h => ?pix4, fun p h => ?pix8, fun i h hpair => execIdx_outside h hpair⟩
  case lit => rw [exec, execLit, memWrite_outside b h]; rfl
  case pal16 => rw [exec, execPal16, memWriteAll_outside (List.cons_ne_nil _ _) h]; rfl
  case pix4 => rw [exec, execPix4, memWriteAll_outside (List.cons_ne_nil _ _) h]; rfl
  case pix8 => rw [exec, execPix8, memWrite_outside p h]; rfl

end Sys2Proof.Machine
end

section
/-! PROOFS. The host's accesses to IN and OUT while the block is not `BUSY`. -/

namespace Sys2Proof.Machine

theorem step_writeIn (a : Nat) (v : Byte) (s : State) (rest : List HostMove) :
    step { s with host := .writeIn a v :: rest } = hostWriteIn a v { s with host := rest } := rfl

theorem step_readOut (a : Nat) (s : State) (rest : List HostMove) :
    step { s with host := .readOut a :: rest } = hostReadOut a { s with host := rest } := rfl

section NotBusy
variable {s : State} {a : Nat} (hb : s.busy = false)
include hb

theorem hostWriteIn_inside (v : Byte) (ha : a < s.cfg.inSize) :
    hostWriteIn a v s = .next { s with inMem := s.inMem.write a v } := by
  rw [hostWriteIn, if_neg (by simp [hb]), if_neg (by omega)]

/-- A byte of OUT with a value is read as it stands. -/
theorem hostReadOut_value {w : Byte} (ha : a < s.cfg.outSize) (hw : s.outMem.read a = some w) :
    hostReadOut a s = .next { s with hostData := w.setWidth 32 } := by
  rw [hostReadOut, if_neg (by simp [hb]), if_neg (by omega), hw]

/-- A byte of OUT without a value is drawn afresh (log 5). -/
theorem hostReadOut_free (ha : a < s.cfg.outSize) (hw : s.outMem.read a = none) :
    hostReadOut a s =
      .next { s with draw := s.draw + 1, hostData := (Config.freeOut (s.draw + 1) a).setWidth 32 } := by
  rw [hostReadOut, if_neg (by simp [hb]), if_neg (by omega), hw]

end NotBusy

/-- Settles O7: the write inside IN, and the read inside OUT of a byte with and without a value. -/
theorem hostMemoryAccessesTouchOneByte : Obligations.HostMemoryAccessesTouchOneByte := by
  intro s rest a v hb
  have hb' : State.busy { s with host := rest } = false := hb
  refine ⟨fun ha => ?write, fun ha => ?read⟩
  case write =>
    rw [step_writeIn, hostWriteIn_inside hb' v ha]
    exact ⟨_, rfl, rfl, Memory.read_write_same s.inMem a v, fun b hne => Memory.read_write_other s.inMem v hne⟩
  case read =>
    rw [step_readOut]
    cases hw : s.outMem.read a with
    | some w =>
      rw [hostReadOut_value hb' ha hw]
      refine ⟨_, rfl, rfl, fun w' hw' => ?_⟩
      cases hw'
      exact ⟨rfl, rfl⟩
    | none =>
      rw [hostReadOut_free hb' ha hw]
      exact ⟨_, rfl, rfl, nofun⟩

end Sys2Proof.Machine
end

section
/-! PROOFS. What a step of a running command must establish for the invariant: the outcomes that go on, the part of the
state that no element changes, and the ends of a command. -/

namespace Sys2Proof.Machine

/-! ### Outcomes -/

/-- The step has a next state, and that meets the invariant. -/
def GoesOn (r : Result) : Prop := ∃ t, r = .next t ∧ t.Inv

theorem goesOn_next {t : State} (h : t.Inv) : GoesOn (.next t) := ⟨t, rfl, h⟩

/-- The piece of a command goes on to a state with `P`, or raises an error of the block, with a cause. -/
def Fares (P : State → Prop) (a : Attempt State) : Prop :=
  (∃ t, a = .ok t ∧ P t) ∨ ∃ e info, a = .error (.err e info) ∧ e ≠ .none

theorem fares_ok {P : State → Prop} {t : State} (h : P t) : Fares P (.ok t) := .inl ⟨t, rfl, h⟩

theorem fares_err {P : State → Prop} {e : ErrCode} (info : Nat) (he : e ≠ .none) : Fares P (.error (.err e info)) :=
  .inr ⟨e, info, rfl, he⟩

/-! ### Parameters and IN -/

/-- The parameters are as R5 has them, and IN is canonical and inside its size (R40). -/
structure State.InputsOk (s : State) : Prop where
  cfg : s.cfg.wf
  inWf : s.inMem.wf
  inFits : s.inMem.fitsIn s.cfg.inSize

theorem State.Inv.inputs {s : State} (h : s.Inv) : s.InputsOk := ⟨h.cfg, h.memories.inWf, h.memories.inFits⟩

theorem State.InputsOk.outSize_lt {s : State} (h : s.InputsOk) : s.cfg.outSize < 2 ^ 32 := by
  obtain ⟨-, -, -, hout, -⟩ := h.cfg
  omega

/-- An error with a cause ends in a state of the invariant (R253). -/
theorem raiseError_inv {s : State} {e : ErrCode} (h : s.InputsOk) (he : e ≠ .none) (info : Nat) :
    (raiseError e info s).Inv where
  cfg := h.cfg
  memories := ⟨h.inWf, h.inFits, Memory.wf_nil, Memory.fitsIn_nil _⟩
  run := ⟨he, rfl, rfl, rfl⟩

theorem raiseReject_inv {s : State} (h : s.InputsOk) (r : Reject) : (raiseReject r s).Inv := by
  cases r <;> exact raiseError_inv h (by decide) _

/-- A command that ends with exactly its result in OUT ends in a state of the invariant (R223). -/
theorem finishDone_inv {s : State} {n used : Nat} (h : s.InputsOk) (hout : s.outMem.holdsExactly n)
    (hn : n ≤ s.cfg.outSize) : (finishDone n used s).Inv where
  cfg := h.cfg
  memories := by
    refine ⟨h.inWf, h.inFits, ?_, ?_⟩ <;> rw [finishDone_outMem, Memory.below_of_holdsExactly hout]
    · exact Memory.holdsExactly_wf hout
    · exact Memory.holdsExactly_fitsIn hout hn
  run := by
    have hlen : (BitVec.ofNat 32 n).toNat = n := Nat.mod_eq_of_lt (hn.trans_lt h.outSize_lt)
    refine ⟨rfl, rfl, ?_⟩
    rw [finishDone_outMem, Memory.below_of_holdsExactly hout, finishDone_outLen, hlen]
    exact hout

/-- A piece that fares well leads to a step that goes on. -/
theorem conclude_goesOn {base : State} {a : Attempt State} (hb : base.InputsOk) (h : Fares State.Inv a) :
    GoesOn (conclude base a) := by
  obtain ⟨t, rfl, ht⟩ | ⟨e, info, rfl, he⟩ := h
  · exact goesOn_next ht
  · exact goesOn_next (raiseError_inv hb he info)

/-! ### A running command -/

/-- What holds while a command runs, whatever its phase. -/
structure State.Running (s : State) : Prop where
  inputs : s.InputsOk
  command : s.CommandOk

/-- What no element of a running command changes. -/
def commandSide (s : State) :
    Config × Memory × BitVec 3 × BitVec 4 × BitVec 1 × Word × Word × Latch × ErrCode × Word × Word × Word :=
  (s.cfg, s.inMem, s.opc, s.bpp, s.mask, s.srcOff, s.srcLen, s.latch, s.err, s.errInfo, s.outLen, s.inUsed)

theorem State.Running.of_side {s t : State} (h : s.Running) (hside : commandSide t = commandSide s) : t.Running := by
  obtain ⟨⟨hcfg, hwf, hfits⟩, ⟨hbpp, hmask, hoff, hlen, hopc, hinside, ⟨herr, hinfo, hout, hused⟩⟩⟩ := h
  simp only [commandSide, Prod.mk.injEq] at hside
  obtain ⟨ecfg, ein, eopc, ebpp, emask, eoff, elen, elatch, eerr, einfo, eout, eused⟩ := hside
  exact ⟨⟨by rwa [ecfg], by rwa [ein], by rwa [ein, ecfg]⟩,
    ⟨by rwa [elatch, ebpp], by rwa [elatch, emask], by rwa [elatch, eoff], by rwa [elatch, elen],
      by rwa [elatch, eopc], by rwa [elatch, ecfg], ⟨by rwa [eerr], by rwa [einfo], by rwa [eout], by rwa [eused]⟩⟩⟩

/-- In every phase OUT holds exactly the bytes below some address inside it. -/
theorem exists_holdsExactly_of_phaseOk {s : State} {p : Phase} (h : s.PhaseOk p) :
    ∃ n, n ≤ s.cfg.outSize ∧ s.outMem.holdsExactly n := by
  match p, h with
  | .header, ⟨_, hout⟩ => exact ⟨0, Nat.zero_le _, hout ▸ Memory.holdsExactly_nil⟩
  | .stream, h => exact ⟨_, h.olen.trans h.ulen, h.out⟩
  | .groupOpen, h => exact ⟨_, h.eo, h.out⟩
  | .groupTokens, ⟨h, _, _⟩ => exact ⟨_, h.eo, h.out⟩
  | .palette, h => exact ⟨_, (Nat.mul_le_mul_left 3 h.ei).trans h.size, h.out⟩
  | .unpack, h =>
    refine ⟨_, le_trans ?_ h.size, h.out⟩
    have hbi := h.bi
    unfold unpackBytes tileBytes at hbi
    by_cases hbpp : s.latch.bpp = 4
    · rw [if_pos hbpp] at hbi ⊢; omega
    · rw [if_neg hbpp] at hbi ⊢; exact hbi
  | .pack, h => exact ⟨_, h.bi.trans h.size, h.out⟩

/-- The invariant of a running command, from what holds in every phase and what holds in its own. -/
theorem State.Running.inv {s : State} {p : Phase} (h : s.Running) (hrun : s.run = .busy p) (hp : s.PhaseOk p) :
    s.Inv where
  cfg := h.inputs.cfg
  memories :=
    have ⟨_, hn, hout⟩ := exists_holdsExactly_of_phaseOk hp
    ⟨h.inputs.inWf, h.inputs.inFits, Memory.holdsExactly_wf hout, Memory.holdsExactly_fitsIn hout hn⟩
  run := hrun ▸ ⟨h.command, hp⟩

theorem State.Inv.running {s : State} {p : Phase} (h : s.Inv) (hrun : s.run = .busy p) : s.Running ∧ s.PhaseOk p := by
  have hr := h.run
  rw [hrun] at hr
  exact ⟨⟨h.inputs, hr.1⟩, hr.2⟩

end Sys2Proof.Machine
end

section
/-! PROOFS. Every element that a running command reads leads on to a state of the invariant: fetching and decoding it,
then one lemma for each element in the phase that reads it. -/

namespace Sys2Proof.Machine

/-! ### Fetching and decoding -/

theorem inRead_inside {k : Nat} {s : State} {b : Byte} (h : inRead k s = .ok b) : k < s.latch.len.toNat := by
  by_contra hk
  rw [inRead_missing (by omega)] at h
  cases h

/-- A fetch that gives bytes lies inside the window. -/
theorem fetchBytes_inside {n k : Nat} {s : State} {bs : List Byte} (h : fetchBytes n k s = .ok bs) :
    n = 0 ∨ k + n ≤ s.latch.len.toNat := by
  induction n generalizing k bs with
  | zero => exact .inl rfl
  | succ n ih =>
    rw [fetchBytes] at h
    split at h
    · cases h
    · next hb =>
      have hk := inRead_inside hb
      split at h
      · cases h
      · next hbs =>
        have := ih hbs
        omega

theorem decodeCommand_fits {b : Byte} {i : Instr} (h : decodeCommand b = some i) : i.fits .command = true := by
  have hall : ∀ j ∈ commands, Instr.fits .command j = true := by decide
  exact hall i (decodeCommand_mem h)

/-- The decoder answers only instructions of the context. -/
theorem decode_fits {l : PalLayout} {c : Ctx} {bytes rest : List Byte} {i : Instr}
    (h : decode l c bytes = .ok (i, rest)) : i.fits c = true := by
  unfold decode at h
  split at h
  case h_1 =>
    split at h
    · next hd => cases h; exact decodeCommand_fits hd
    · cases h
  case h_2 =>
    unfold decodeHeaderDirect at h
    split at h <;> cases h
    rfl
  case h_3 =>
    unfold decodeHeaderWrapped at h
    split at h
    · cases h; rfl
    · split at h <;> cases h
      rfl
  case h_11 => cases h
  all_goals cases h; rfl

theorem ctx_size_ne_zero (c : Ctx) : c.size ≠ 0 := by cases c <;> decide

/-- Reading an element leads on when every instruction of the context does, fetched inside the window. -/
theorem runElement_goesOn {c : Ctx} {k : Nat} {s : State} (h : s.Running)
    (hexec : k + c.size ≤ s.latch.len.toNat → ∀ i : Instr, i.fits c = true → GoesOn (exec i s)) :
    GoesOn (runElement c k s) := by
  unfold runElement
  split
  · next he =>
    obtain ⟨j, -, rfl⟩ := fetchBytes_error he
    exact conclude_goesOn h.inputs (fares_err j (by decide))
  · next hf =>
    have hk := (fetchBytes_inside hf).resolve_left (ctx_size_ne_zero c)
    split
    · exact goesOn_next (raiseReject_inv h.inputs _)
    · next hd => exact hexec hk _ (decode_fits hd)

/-! ### Headers -/

theorem rawCopy_ok {left k : Nat} {s : State} (hwin : 4 + k + left ≤ s.latch.len.toNat)
    (hsize : k + left ≤ s.cfg.outSize) (hout : s.outMem.holdsExactly k) :
    ∃ m, rawCopy left k s = .ok { s with outMem := m } ∧ m.holdsExactly (k + left) := by
  induction left generalizing k s with
  | zero => exact ⟨s.outMem, rfl, hout⟩
  | succ left ih =>
    rw [rawCopy, inRead_ok (by omega)]
    simp only
    rw [memWrite_ok _ (by omega)]
    obtain ⟨m, hm, hmout⟩ := ih (k := k + 1)
      (s := { s with outMem := s.outMem.write k (inByte s (s.latch.off.toNat + (4 + k))) })
      (by simp only; omega) (by simp only; omega) (Memory.holdsExactly_write_next _ hout)
    exact ⟨m, hm, by rwa [show k + 1 + left = k + (left + 1) by omega] at hmout⟩

theorem execHdrRaw_goesOn {s : State} (h : s.Running) (hout : s.outMem = []) (ulen : BitVec 24) :
    GoesOn (execHdrRaw ulen s) := by
  unfold execHdrRaw
  split
  · exact goesOn_next (raiseError_inv h.inputs (by decide) _)
  · split
    · exact goesOn_next (raiseError_inv h.inputs (by decide) _)
    · obtain ⟨m, hm, hmout⟩ := rawCopy_ok (left := ulen.toNat) (k := 0) (s := s) (by omega) (by omega)
        (hout ▸ Memory.holdsExactly_nil)
      rw [Nat.zero_add] at hmout
      have hrun : ({ s with outMem := m } : State).Running := h.of_side rfl
      rw [hm]
      exact goesOn_next (finishDone_inv hrun.inputs hmout (by simp only; omega))

theorem execHdrLz_goesOn {s : State} (h : s.Running) (hopc : s.latch.opc = 1 ∨ s.latch.opc = 3)
    (hout : s.outMem = []) (hlen : 4 ≤ s.latch.len.toNat) (sub : BitVec 4) (ulen : BitVec 24) :
    GoesOn (execHdrLz sub ulen s) := by
  unfold execHdrLz
  split
  · exact goesOn_next (raiseError_inv h.inputs (by decide) _)
  · next hsize =>
    have hstream : (initStream ulen s).StreamOk :=
      { opc := hopc
        olen := Nat.zero_le _
        ulen := by rw [initStream_ulen, initStream_cfg]; omega
        ipLow := le_rfl
        ipHigh := hlen
        fcnt := Nat.zero_le _
        crem := rfl
        out := hout ▸ Memory.holdsExactly_nil }
    exact goesOn_next ((h.of_side rfl : (initStream ulen s).Running).inv rfl hstream)

theorem headerStep_goesOn {s : State} (h : s.Running) (hp : s.PhaseOk .header) :
    GoesOn (runElement (headerCtx s.latch.opc) 0 s) := by
  obtain ⟨hopc, hout⟩ := hp
  refine runElement_goesOn h fun hk i hfit => ?_
  unfold headerCtx at hk hfit
  split at hk
  · next hlz =>
    rw [if_pos hlz] at hfit
    match i, hfit with
    | .hdrLz sub ulen, _ => exact execHdrLz_goesOn h hopc hout (by simpa [Ctx.size] using hk) sub ulen
  · next hrd =>
    rw [if_neg hrd] at hfit
    match i, hfit with
    | .hdrRaw ulen, _ => exact execHdrRaw_goesOn h hout ulen
    | .hdrLz sub ulen, _ => exact execHdrLz_goesOn h hopc hout (by simpa [Ctx.size] using hk) sub ulen

end Sys2Proof.Machine
end

section
/-! PROOFS. The elements of the token stream and of the converters keep the invariant of their phase. -/

namespace Sys2Proof.Machine

/-! ### The token stream -/

/-- The token select leaves fewer than eight bits to use (R135). -/
theorem selectToken_streamOk {s : State} (hs : s.StreamOk) (hf : s.fcnt ≠ 0) : (selectToken s).StreamOk :=
  { hs with
    fcnt := by
      have := hs.fcnt
      rw [selectToken_fcnt]
      bv_omega }

section Stream
variable {s : State} (h : s.Running) (hrun : s.run = .busy .stream) (hs : s.StreamOk)
include h hrun hs

theorem execFlag_goesOn (hip : s.ip.toNat + 1 ≤ s.latch.len.toNat) (f : Byte) : GoesOn (execFlag f s) := by
  have hlow := hs.ipLow
  exact goesOn_next (State.Running.inv (h.of_side rfl) hrun
    { hs with
      ipLow := show 4 ≤ (s.ip + 1).toNat by bv_omega
      ipHigh := show (s.ip + 1).toNat ≤ s.latch.len.toNat by bv_omega
      fcnt := le_rfl })

theorem execLit_goesOn (hip : s.ip.toNat + 1 ≤ s.latch.len.toNat) (ho : s.olen.toNat < s.ulen.toNat) (b : Byte) :
    GoesOn (execLit b s) := by
  have hlow := hs.ipLow
  have holen : (s.olen + 1).toNat = s.olen.toNat + 1 := by bv_omega
  rw [execLit, memWrite_ok b (ho.trans_le hs.ulen)]
  exact goesOn_next (State.Running.inv (h.of_side rfl) hrun
    { hs with
      olen := holen ▸ ho
      ipLow := show 4 ≤ (s.ip + 1).toNat by bv_omega
      ipHigh := show (s.ip + 1).toNat ≤ s.latch.len.toNat by bv_omega
      out := holen ▸ Memory.holdsExactly_write_next b hs.out })

end Stream

/-- A copy never passes `ULEN` (R139), so inside OUT it goes on to its end, with every byte below the new `OLEN`
holding a value (R77). -/
theorem copyLoop_ok (fuel : Nat) {s : State} (hu : s.ulen.toNat ≤ s.cfg.outSize) (ho : s.olen.toNat ≤ s.ulen.toNat)
    (hout : s.outMem.holdsExactly s.olen.toNat) :
    ∃ m src o rem, copyLoop fuel s = .ok { s with outMem := m, csrc := src, olen := o, crem := rem }
      ∧ o.toNat ≤ s.ulen.toNat ∧ m.holdsExactly o.toNat := by
  induction fuel generalizing s with
  | zero => exact ⟨_, _, _, _, rfl, ho, hout⟩
  | succ fuel ih =>
    by_cases hmore : 0 < s.crem.toNat ∧ s.olen.toNat < s.ulen.toNat
    · obtain ⟨hr, hlt⟩ := hmore
      have holen : (s.olen + 1).toNat = s.olen.toNat + 1 := by bv_omega
      have hnext := Memory.holdsExactly_write_next (outByte s s.csrc.toNat) hout
      rw [← holen] at hnext
      rw [copyLoop_next fuel hr hlt, copyStep_ok (hlt.trans_le hu)]
      exact ih hu (holen ▸ hlt) hnext
    · rw [copyLoop_stop (fuel + 1) (by omega)]
      exact ⟨_, _, _, _, rfl, ho, hout⟩

theorem execRef_goesOn {s : State} (h : s.Running) (hrun : s.run = .busy .stream) (hs : s.StreamOk)
    (hip : s.ip.toNat + 2 ≤ s.latch.len.toNat) (ln : BitVec 4) (disp : BitVec 12) : GoesOn (execRef ln disp s) := by
  unfold execRef
  split
  · exact goesOn_next (raiseError_inv h.inputs (by decide) _)
  · have hlow := hs.ipLow
    refine conclude_goesOn h.inputs ?_
    obtain ⟨m, src, o, rem, hcopy, ho, hout⟩ := copyLoop_ok (copyLen ln)
      (s := { s with
        ip := s.ip + 2, csrc := BitVec.ofNat 32 (sourcePtr s.olen.toNat disp).toNat
        crem := BitVec.ofNat 5 (copyLen ln) }) hs.ulen hs.olen hs.out
    rw [copyBytes, hcopy]
    exact fares_ok (State.Running.inv (h.of_side rfl) hrun
      { hs with
        olen := ho
        ipLow := show 4 ≤ (s.ip + 2).toNat by bv_omega
        ipHigh := show (s.ip + 2).toNat ≤ s.latch.len.toNat by bv_omega
        crem := rfl
        out := hout })

/-- The token that a flag bit selects. -/
theorem tokenStep_goesOn {s : State} (h : s.Running) (hrun : s.run = .busy .stream) (hs : s.StreamOk)
    (ho : s.olen.toNat < s.ulen.toNat) (bit : Bool) : GoesOn (runElement (tokenCtx bit) s.ip.toNat s) := by
  refine runElement_goesOn h fun hk i hfit => ?_
  match bit, i, hfit with
  | false, .lit b, _ => exact execLit_goesOn h hrun hs hk ho b
  | true, .ref ln disp, _ => exact execRef_goesOn h hrun hs hk ln disp

/-- A step in the token stream (R133): the end, a flag byte, or a token. -/
theorem streamStep_goesOn {s : State} (h : s.Running) (hrun : s.run = .busy .stream) (hs : s.StreamOk) :
    GoesOn (blockStep s) := by
  unfold blockStep nextElement
  rw [hrun]
  by_cases hend : s.olen.toNat = s.ulen.toNat
  · simp only [hend, if_true, controlStep, hrun]
    exact goesOn_next (finishDone_inv h.inputs (hend ▸ hs.out) hs.ulen)
  · have ho := lt_of_le_of_ne hs.olen hend
    by_cases hf : s.fcnt = 0
    · simp only [hend, hf, if_true, if_false]
      refine runElement_goesOn h fun hk i hfit => ?_
      match i, hfit with
      | .flag f, _ => exact execFlag_goesOn h hrun hs hk f
    · simp only [hend, hf, if_false]
      exact tokenStep_goesOn (s := selectToken s) (h.of_side rfl) hrun (selectToken_streamOk hs hf) ho _

/-! ### Palette entries and pixels -/

theorem execPal16_goesOn {s : State} (h : s.Running) (hrun : s.run = .busy .palette) (hs : s.PaletteOk)
    (hei : s.ei.toNat < entryCount s.latch.len.toNat) (r5 g5 b5 : BitVec 5) (x : BitVec 1) :
    GoesOn (execPal16 r5 g5 b5 x s) := by
  have hsize := hs.size
  have hnext : (s.ei + 1).toNat = s.ei.toNat + 1 := by unfold entryCount at hei; bv_omega
  have hout := Memory.holdsExactly_writeAll_next [scale r5, scale g5, scale b5] hs.out
  rw [show 3 * s.ei.toNat + [scale r5, scale g5, scale b5].length = 3 * (s.ei + 1).toNat by
    rw [hnext]; rfl] at hout
  rw [execPal16, memWriteAll_ok _ (.inr (by simp only [List.length_cons, List.length_nil]; omega))]
  exact goesOn_next (State.Running.inv (h.of_side rfl) hrun { hs with ei := hnext ▸ hei, out := hout })

theorem paletteStep_goesOn {s : State} (h : s.Running) (hrun : s.run = .busy .palette) (hs : s.PaletteOk) :
    GoesOn (blockStep s) := by
  unfold blockStep nextElement
  rw [hrun]
  by_cases hei : s.ei.toNat < entryCount s.latch.len.toNat
  · simp only [hei, if_true]
    refine runElement_goesOn h fun _ i hfit => ?_
    match i, hfit with
    | .pal16 r5 g5 b5 x, _ => exact execPal16_goesOn h hrun hs hei r5 g5 b5 x
  · have hend : s.ei.toNat = entryCount s.latch.len.toNat := Nat.le_antisymm hs.ei (by omega)
    simp only [hei, if_false, controlStep, hrun]
    exact goesOn_next (finishDone_inv h.inputs (hend ▸ hs.out) hs.size)

/-- The pixels of all the bytes that `TILE_DEC` reads: two for each at 4 bits per pixel, one at 8 (R202, R203). -/
theorem pixels_unpackBytes (s : State) :
    (if s.latch.bpp = 4 then 2 * unpackBytes s else unpackBytes s) = 64 * tileCount s.latch.bpp s.latch.len.toNat := by
  unfold unpackBytes tileBytes
  split <;> omega

theorem execPix4_goesOn {s : State} (h : s.Running) (hrun : s.run = .busy .unpack) (hs : s.UnpackOk)
    (hbpp : s.latch.bpp = 4) (hbi : s.bi.toNat < unpackBytes s) (p0 p1 : BitVec 4) : GoesOn (execPix4 p0 p1 s) := by
  have hpixels := pixels_unpackBytes s
  have hsize := hs.size
  have hlt := h.inputs.outSize_lt
  have hout := hs.out
  rw [if_pos hbpp] at hpixels hout
  have hnext : (s.bi + 1).toNat = s.bi.toNat + 1 := by bv_omega
  have hout := Memory.holdsExactly_writeAll_next [p0.setWidth 8, p1.setWidth 8] hout
  rw [execPix4, memWriteAll_ok _ (.inr (by simp only [List.length_cons, List.length_nil]; omega))]
  exact goesOn_next (State.Running.inv (h.of_side rfl) hrun
    { hs with
      bi := hnext ▸ hbi
      out := by
        simp only [hbpp, if_true, hnext]
        exact hout })

theorem execPix8_goesOn {s : State} (h : s.Running) (hrun : s.run = .busy .unpack) (hs : s.UnpackOk)
    (hbpp : s.latch.bpp ≠ 4) (hbi : s.bi.toNat < unpackBytes s) (p : Byte) : GoesOn (execPix8 p s) := by
  have hpixels := pixels_unpackBytes s
  have hsize := hs.size
  have hlt := h.inputs.outSize_lt
  have hout := hs.out
  rw [if_neg hbpp] at hpixels hout
  have hnext : (s.bi + 1).toNat = s.bi.toNat + 1 := by bv_omega
  rw [execPix8, memWrite_ok p (by omega)]
  exact goesOn_next (State.Running.inv (h.of_side rfl) hrun
    { hs with
      bi := hnext ▸ hbi
      out := by
        simp only [hbpp, if_false, hnext]
        exact Memory.holdsExactly_write_next p hout })

theorem unpackStep_goesOn {s : State} (h : s.Running) (hrun : s.run = .busy .unpack) (hs : s.UnpackOk) :
    GoesOn (blockStep s) := by
  unfold blockStep nextElement
  rw [hrun]
  by_cases hbi : s.bi.toNat < unpackBytes s
  · simp only [hbi, if_true]
    refine runElement_goesOn h fun _ i hfit => ?_
    unfold pixelCtx at hfit
    by_cases hbpp : s.latch.bpp = 4
    · rw [if_pos hbpp] at hfit
      match i, hfit with
      | .pix4 p0 p1, _ => exact execPix4_goesOn h hrun hs hbpp hbi p0 p1
    · rw [if_neg hbpp] at hfit
      match i, hfit with
      | .pix8 p, _ => exact execPix8_goesOn h hrun hs hbpp hbi p
  · have hend : s.bi.toNat = unpackBytes s := Nat.le_antisymm hs.bi (by omega)
    have hout : s.outMem.holdsExactly (64 * tileCount s.latch.bpp s.latch.len.toNat) := by
      rw [← pixels_unpackBytes s, ← hend]
      exact hs.out
    simp only [hbi, if_false, controlStep, hrun]
    exact goesOn_next (finishDone_inv h.inputs hout hs.size)

/-- The state after a packed byte: the second pixel of a pair, or a whole pixel, in both cases with no pixel kept. -/
theorem packed_inv {s : State} (h : s.Running) (hrun : s.run = .busy .pack) (hs : s.PackOk)
    (hbi : s.bi.toNat < packBytes s) (v : Byte) :
    ({ s with outMem := s.outMem.write s.bi.toNat v, bi := s.bi + 1, pix := none } : State).Inv := by
  have hsize := hs.size
  have hlt := h.inputs.outSize_lt
  have hnext : (s.bi + 1).toNat = s.bi.toNat + 1 := by bv_omega
  exact State.Running.inv (h.of_side rfl) hrun
    { hs with bi := hnext ▸ hbi, pix := nofun, out := hnext ▸ Memory.holdsExactly_write_next v hs.out }

theorem execIdx_goesOn {s : State} (h : s.Running) (hrun : s.run = .busy .pack) (hs : s.PackOk)
    (hbi : s.bi.toNat < packBytes s) (i : Byte) : GoesOn (execIdx i s) := by
  have hin := hbi.trans_le hs.size
  unfold execIdx
  split
  · next hbpp =>
    split
    · exact goesOn_next (raiseError_inv h.inputs (by decide) _)
    · split
      · exact goesOn_next (State.Running.inv (h.of_side rfl) hrun { hs with pix := fun _ => ⟨hbpp, hbi⟩ })
      · rw [memWrite_ok _ hin]
        exact goesOn_next (packed_inv h hrun hs hbi _)
  · next hbpp =>
    have hpix : s.pix = none := by
      rw [← Option.not_isSome_iff_eq_none]
      exact fun hsome => hbpp (hs.pix hsome).1
    have hinv := packed_inv h hrun hs hbi i
    rw [← hpix] at hinv
    rw [memWrite_ok _ hin]
    exact goesOn_next hinv

theorem packStep_goesOn {s : State} (h : s.Running) (hrun : s.run = .busy .pack) (hs : s.PackOk) :
    GoesOn (blockStep s) := by
  unfold blockStep nextElement
  rw [hrun]
  by_cases hbi : s.bi.toNat < packBytes s
  · simp only [hbi, if_true]
    refine runElement_goesOn h fun _ i hfit => ?_
    match i, hfit with
    | .idx k, _ => exact execIdx_goesOn h hrun hs hbi k
  · have hend : s.bi.toNat = packBytes s := Nat.le_antisymm hs.bi (by omega)
    simp only [hbi, if_false, controlStep, hrun]
    exact goesOn_next (finishDone_inv h.inputs (hend ▸ hs.out) hs.size)

end Sys2Proof.Machine
end

section
/-! PROOFS. The compressor's steps keep the invariant: what it emits goes to the end of the output or raises
`OutputOverflow`, and a token never passes the end of the input. -/

namespace Sys2Proof.Machine

/-! ### Emitting -/

/-- `Emit` of a list that does not fit OUT: the first address that does not exist (R169). -/
theorem emitAll_full {vs : List Byte} {s : State} (hs : s.cfg.outSize < 2 ^ 32) (heo : s.eo.toNat ≤ s.cfg.outSize)
    (h : s.cfg.outSize < s.eo.toNat + vs.length) :
    emitAll vs s = .error (.err .outputOverflow s.cfg.outSize) := by
  induction vs generalizing s with
  | nil => simp only [List.length_nil] at h; omega
  | cons v vs ih =>
    rw [List.length_cons] at h
    rw [emitAll]
    by_cases hin : s.eo.toNat < s.cfg.outSize
    · have hnext : (s.eo + 1).toNat = s.eo.toNat + 1 := by bv_omega
      rw [emit_ok hin]
      exact ih hs (hnext ▸ hin) (by simp only [hnext]; omega)
    · rw [emit_full (by omega), show s.eo.toNat = s.cfg.outSize by omega]

/-- `t` is `s` after some bytes were put at the end of its output. -/
def Emitted (s t : State) : Prop :=
  ∃ m e, t = { s with outMem := m, eo := e } ∧ s.eo.toNat ≤ e.toNat ∧ e.toNat ≤ s.cfg.outSize ∧ m.holdsExactly e.toNat

/-- Everything that `Emit` of a list can do to an output so far. -/
theorem emitAll_fares (vs : List Byte) {s : State} (hs : s.cfg.outSize < 2 ^ 32) (heo : s.eo.toNat ≤ s.cfg.outSize)
    (hout : s.outMem.holdsExactly s.eo.toNat) : Fares (Emitted s) (emitAll vs s) := by
  by_cases hfit : s.eo.toNat + vs.length ≤ s.cfg.outSize
  · have hend : (s.eo + BitVec.ofNat 32 vs.length).toNat = s.eo.toNat + vs.length := by bv_omega
    rw [emitAll_ok vs (.inr hfit) hs]
    exact fares_ok ⟨_, _, rfl, hend ▸ Nat.le_add_right _ _, hend ▸ hfit,
      hend ▸ Memory.holdsExactly_writeAll_next vs hout⟩
  · rw [emitAll_full hs heo (by omega)]
    exact fares_err _ (by decide)

/-- Emitting, then a last change `g` of the state. -/
theorem emit_then_fares {vs : List Byte} {s : State} {g : State → State} {Q : State → Prop}
    (hs : s.cfg.outSize < 2 ^ 32) (heo : s.eo.toNat ≤ s.cfg.outSize) (hout : s.outMem.holdsExactly s.eo.toNat)
    (hg : ∀ t, Emitted s t → Q (g t)) :
    Fares Q (match emitAll vs s with
      | .error e => .error e
      | .ok t => .ok (g t)) := by
  obtain ⟨t, ht, hem⟩ | ⟨e, info, he, hne⟩ := emitAll_fares vs hs heo hout
  · rw [ht]; exact fares_ok (hg t hem)
  · rw [he]; exact fares_err info hne

/-! ### Tokens -/

/-- A copy that the matcher answers ends inside the input (R163). -/
theorem matcher_le (m : MatcherChoice) (bytes : List Byte) (i : Nat) : (matcher m bytes i).1 ≤ bytes.length - i := by
  unfold matcher
  split
  · next h =>
    simp only [legalMatch, Bool.and_eq_true, decide_eq_true_eq] at h
    obtain ⟨⟨⟨-, hmax⟩, -⟩, -⟩ := h
    exact hmax.trans (Nat.min_le_right _ _)
  · exact Nat.zero_le _

theorem window_length (s : State) : (window s).length = s.latch.len.toNat := by simp [window]

section Tokens
variable {s : State} (h : s.Running) (hrun : s.run = .busy .groupTokens) (hs : s.CompressOk) (hfk : s.fk.toNat < 8)
  (hfpos : s.fpos.toNat < s.eo.toNat)
include h hrun hs hfk hfpos

/-- The state after a token of `len` input bytes. -/
theorem token_inv {t : State} {facc : Byte} (hem : Emitted { s with facc := facc } t) {len : Nat}
    (hlen : s.ci.toNat + len ≤ s.latch.len.toNat) :
    ({ t with ci := s.ci + BitVec.ofNat 32 len, fk := s.fk + 1 } : State).Inv := by
  obtain ⟨m, e, rfl, hle, he, hout⟩ := hem
  have hci : (s.ci + BitVec.ofNat 32 len).toNat = s.ci.toNat + len := by bv_omega
  have hfk' : (s.fk + 1).toNat ≤ 8 := by bv_omega
  exact State.Running.inv (h.of_side rfl) hrun
    ⟨{ hs with ci := hci ▸ hlen, eo := he, out := hout }, hfk', hfpos.trans_le hle⟩

theorem emitToken_fares (hci : s.ci.toNat < s.latch.len.toNat) : Fares State.Inv (emitToken s) := by
  have hlt := h.inputs.outSize_lt
  unfold emitToken
  dsimp only
  split
  · have hm := matcher_le s.cfg.matcher (window s) s.ci.toNat
    rw [window_length] at hm
    exact emit_then_fares hlt hs.eo hs.out fun t hem => token_inv h hrun hs hfk hfpos hem (by omega)
  · rw [emitLitToken, inRead_ok hci]
    exact emit_then_fares hlt hs.eo hs.out fun t hem => token_inv h hrun hs hfk hfpos (facc := s.facc) hem hci

end Tokens

/-! ### Groups -/

theorem openGroup_fares {s : State} (h : s.Running) (hs : s.CompressOk) : Fares State.Inv (openGroup s) := by
  have hlt := h.inputs.outSize_lt
  unfold openGroup
  by_cases hin : s.eo.toNat < s.cfg.outSize
  · have hnext : (s.eo + 1).toNat = s.eo.toNat + 1 := by bv_omega
    have hpos : s.eo.toNat < (s.eo + 1).toNat := by omega
    rw [emit_ok (s := { s with fpos := s.eo }) hin]
    exact fares_ok (State.Running.inv (h.of_side rfl) rfl
      ⟨{ hs with eo := hnext ▸ hin, out := hnext ▸ Memory.holdsExactly_write_next 0x00 hs.out }, Nat.zero_le _, hpos⟩)
  · rw [emit_full (s := { s with fpos := s.eo }) (show s.cfg.outSize ≤ s.eo.toNat by omega)]
    exact fares_err _ (by decide)

theorem closeGroup_fares {s : State} (h : s.Running) (hs : s.CompressOk) (hfpos : s.fpos.toNat < s.eo.toNat) :
    Fares State.Inv (closeGroup s) := by
  rw [closeGroup, memWrite_ok s.facc (hfpos.trans_le hs.eo)]
  exact fares_ok (State.Running.inv (h.of_side rfl) rfl
    { hs with out := Memory.holdsExactly_write_old s.facc hs.out hfpos })

theorem groupOpenStep_goesOn {s : State} (h : s.Running) (hs : s.CompressOk) : GoesOn (groupOpenStep s) := by
  unfold groupOpenStep
  split
  · exact conclude_goesOn h.inputs (openGroup_fares h hs)
  · exact goesOn_next (finishDone_inv h.inputs hs.out hs.eo)

theorem groupTokensStep_goesOn {s : State} (h : s.Running) (hrun : s.run = .busy .groupTokens)
    (hp : s.PhaseOk .groupTokens) : GoesOn (groupTokensStep s) := by
  obtain ⟨hs, -, hfpos⟩ := hp
  unfold groupTokensStep
  split
  · next hmore => exact conclude_goesOn h.inputs (emitToken_fares h hrun hs hmore.1 hfpos hmore.2)
  · exact conclude_goesOn h.inputs (closeGroup_fares h hs hfpos)

/-! ### A step of the block -/

/-- From every state of the invariant the block goes on. -/
theorem blockStep_goesOn {s : State} (h : s.Inv) : GoesOn (blockStep s) := by
  cases hb : s.busy with
  | false => exact ⟨s, blockStep_of_not_busy hb, h⟩
  | true =>
    obtain ⟨p, hrun⟩ := (busy_iff s).1 hb
    obtain ⟨hr, hp⟩ := h.running hrun
    cases p with
    | header =>
      unfold blockStep nextElement
      rw [hrun]
      exact headerStep_goesOn hr hp
    | stream => exact streamStep_goesOn hr hrun hp
    | groupOpen =>
      unfold blockStep nextElement controlStep
      rw [hrun]
      exact groupOpenStep_goesOn hr hp
    | groupTokens =>
      unfold blockStep nextElement controlStep
      rw [hrun]
      exact groupTokensStep_goesOn hr hrun hp
    | palette => exact paletteStep_goesOn hr hrun hp
    | unpack => exact unpackStep_goesOn hr hrun hp
    | pack => exact packStep_goesOn hr hrun hp

end Sys2Proof.Machine
end

section
/-! PROOFS. A `START` in a state of the invariant leads to one (R220, R221). -/

namespace Sys2Proof.Machine

theorem beginCommand_inputs {s : State} (h : s.InputsOk) (opc : BitVec 3) (p : Phase) :
    (beginCommand opc p s).InputsOk := ⟨h.cfg, h.inWf, h.inFits⟩

/-- A window inside IN is all a begun command needs beside its number (R221). -/
theorem beginCommand_running {s : State} (h : s.InputsOk) {opc : BitVec 3} (hopc : opc = s.opc) (p : Phase)
    (hin : s.srcOff.toNat + s.srcLen.toNat ≤ s.cfg.inSize) : (beginCommand opc p s).Running where
  inputs := beginCommand_inputs h opc p
  command := ⟨rfl, rfl, rfl, rfl, hopc, hin, ⟨rfl, rfl, rfl, rfl⟩⟩

/-- Validation passes or raises an error with a cause (R221). -/
theorem validate_cases (tile : Bool) (s : State) : validate tile s = .ok () ∨
    ∃ e info, validate tile s = .error (.err e info) ∧ e ≠ .none := by
  unfold validate
  split
  · exact .inr ⟨_, _, rfl, by decide⟩
  · split
    · exact .inr ⟨_, _, rfl, by decide⟩
    · exact .inl rfl

theorem legalBpp_iff (bpp : BitVec 4) : legalBpp bpp = true ↔ bpp = 4 ∨ bpp = 8 := by simp [legalBpp]

/-- A `START` leads on when the command's own beginning does, from a valid window and depth. -/
theorem launch_goesOn {opc : BitVec 3} {p : Phase} {tile : Bool} {f : State → Attempt State} {s : State} (h : s.Inv)
    (hopc : opc = s.opc)
    (hf : (beginCommand opc p s).Running → (tile = true → s.bpp = 4 ∨ s.bpp = 8) →
      Fares State.Inv (f (beginCommand opc p s))) : GoesOn (launch opc p tile f s) := by
  have hbase := beginCommand_inputs h.inputs opc p
  cases hb : s.busy with
  | true => exact ⟨s, launch_busy hb, h⟩
  | false =>
    obtain hv | ⟨e, info, hv, he⟩ := validate_cases tile (beginCommand opc p s)
    · obtain ⟨htile, hin⟩ := (validate_ok_iff tile _).1 hv
      rw [launch_valid hb hv]
      exact conclude_goesOn hbase (hf (beginCommand_running h.inputs hopc p hin)
        fun ht => (legalBpp_iff s.bpp).1 (htile ht))
    · rw [launch, hb, hv]
      exact conclude_goesOn hbase (fares_err info he)

/-! ### What each command does first -/

section Prologues
variable {s : State} (h : s.Running) (hout : s.outMem = [])
include h hout

theorem headerPrologue_fares (hrun : s.run = .busy .header) (hopc : s.latch.opc = 1 ∨ s.latch.opc = 3) :
    Fares State.Inv (headerPrologue s) := fares_ok (h.inv hrun ⟨hopc, hout⟩)

theorem compressPrologue_fares (hrun : s.run = .busy .groupOpen) (hopc : s.latch.opc = 2) :
    Fares State.Inv (compressPrologue s) := by
  unfold compressPrologue
  split
  · exact fares_err _ (by decide)
  · next hlen =>
    refine emit_then_fares h.inputs.outSize_lt (Nat.zero_le _) (hout ▸ Memory.holdsExactly_nil) fun t hem => ?_
    obtain ⟨m, e, rfl, -, he, hm⟩ := hem
    exact State.Running.inv (h.of_side rfl) hrun
      { opc := hopc, len := by simp only; omega, ci := Nat.zero_le _, eo := he, out := hm }

theorem palPrologue_fares (hrun : s.run = .busy .palette) (hopc : s.latch.opc = 4) :
    Fares State.Inv (palPrologue s) := by
  unfold palPrologue
  split
  · exact fares_err _ (by decide)
  · exact fares_ok (State.Running.inv (h.of_side rfl) hrun
      { opc := hopc, size := by simp only; omega, ei := Nat.zero_le _, out := hout ▸ Memory.holdsExactly_nil })

theorem unpackPrologue_fares (hrun : s.run = .busy .unpack) (hopc : s.latch.opc = 5)
    (hdepth : s.latch.bpp = 4 ∨ s.latch.bpp = 8) : Fares State.Inv (unpackPrologue s) := by
  unfold unpackPrologue
  split
  · exact fares_err _ (by decide)
  · exact fares_ok (State.Running.inv (h.of_side rfl) hrun
      { opc := hopc, depth := hdepth, size := by simp only; omega, bi := Nat.zero_le _
        out := by simp [hout, Memory.holdsExactly] })

theorem packPrologue_fares (hrun : s.run = .busy .pack) (hopc : s.latch.opc = 6)
    (hdepth : s.latch.bpp = 4 ∨ s.latch.bpp = 8) : Fares State.Inv (packPrologue s) := by
  unfold packPrologue
  split
  · exact fares_err _ (by decide)
  · next hwhole =>
    split
    · exact fares_err _ (by decide)
    · next hsize =>
      exact fares_ok (State.Running.inv (h.of_side rfl) hrun
        { opc := hopc, depth := hdepth, whole := not_not.1 hwhole, size := not_lt.1 hsize, bi := Nat.zero_le _
          pix := nofun, out := hout ▸ Memory.holdsExactly_nil })

end Prologues

/-- The command that a number decodes to has that number (R105). -/
theorem opc_of_decodeCommand {s : State} {i : Instr} (h : decodeCommand (commandByte s) = some i) : i.opc = s.opc := by
  have hall : ∀ b : BitVec 3, ∀ j ∈ decodeCommand (b.setWidth 8), j.opc = b := by decide
  exact hall s.opc i h

/-- The `START` of every command leads on. -/
theorem exec_command_goesOn {s : State} (h : s.Inv) {i : Instr} (hi : i ∈ commands) (hopc : i.opc = s.opc) :
    GoesOn (exec i s) := by
  simp only [commands, List.mem_cons, List.not_mem_nil, or_false] at hi
  obtain rfl | rfl | rfl | rfl | rfl | rfl := hi
  · exact launch_goesOn h hopc fun hr _ => headerPrologue_fares hr rfl rfl (.inl rfl)
  · exact launch_goesOn h hopc fun hr _ => compressPrologue_fares hr rfl rfl rfl
  · exact launch_goesOn h hopc fun hr _ => headerPrologue_fares hr rfl rfl (.inr rfl)
  · exact launch_goesOn h hopc fun hr _ => palPrologue_fares hr rfl rfl rfl
  · exact launch_goesOn h hopc fun hr hd => unpackPrologue_fares hr rfl rfl rfl (hd rfl)
  · exact launch_goesOn h hopc fun hr hd => packPrologue_fares hr rfl rfl rfl (hd rfl)

theorem launchReserved_inv {s : State} (h : s.Inv) : (launchReserved s).Inv := by
  unfold launchReserved
  split
  · exact h
  · exact raiseError_inv (beginCommand_inputs h.inputs _ _) (by decide) _

theorem startCommand_goesOn {s : State} (h : s.Inv) : GoesOn (startCommand s) := by
  cases hd : decodeCommand (commandByte s) with
  | some i =>
    rw [startCommand_of_command hd]
    exact exec_command_goesOn h (decodeCommand_mem hd) (opc_of_decodeCommand hd)
  | none =>
    rw [startCommand_reserved hd]
    exact goesOn_next (launchReserved_inv h)

end Sys2Proof.Machine
end

section
/-! PROOFS. Every move of the host keeps the invariant and stores nothing outside OUT; with the steps of the block this
settles the statements about every step. -/

namespace Sys2Proof.Machine

/-! ### What a step of the machine keeps -/

/-- A next state meets the invariant, and a fault is no store outside OUT. -/
def KeepsInv : Result → Prop
  | .next t => t.Inv
  | .fault f => ∀ a, f ≠ .storeOutsideOut a
  | .refused _ => True

theorem GoesOn.keepsInv {r : Result} (h : GoesOn r) : KeepsInv r := by
  obtain ⟨t, rfl, ht⟩ := h
  exact ht

/-! ### The host's moves -/

/-- `STATUS.STATE` with the results and the memory that it makes a promise about (R27 to R31, R45). -/
def resultSide (s : State) : Run × ErrCode × Word × Word × Word × Memory :=
  (s.run, s.err, s.errInfo, s.outLen, s.inUsed, s.outMem)

/-- While no command runs, the invariant depends on nothing but the parameters, the memories and the results. -/
theorem State.Inv.of_not_busy {s t : State} (h : s.Inv) (hb : s.busy = false) (ht : t.InputsOk)
    (hcfg : t.cfg = s.cfg) (hside : resultSide t = resultSide s) : t.Inv := by
  have hrun := h.run
  have hmem := h.memories
  simp only [resultSide, Prod.mk.injEq] at hside
  obtain ⟨erun, eerr, einfo, elen, eused, eout⟩ := hside
  refine ⟨ht.cfg, ⟨ht.inWf, ht.inFits, by rw [eout]; exact hmem.outWf, by rw [eout, hcfg]; exact hmem.outFits⟩, ?_⟩
  rw [erun]
  obtain hs | hs | hs := (not_busy_iff s).1 hb <;> rw [hs] at hrun ⊢
  · obtain ⟨⟨herr, hinfo, hlen, hused⟩, hout⟩ := hrun
    exact ⟨⟨by rwa [eerr], by rwa [einfo], by rwa [elen], by rwa [eused]⟩, by rwa [eout]⟩
  · obtain ⟨herr, hinfo, hout⟩ := hrun
    exact ⟨by rwa [eerr], by rwa [einfo], by rwa [eout, elen]⟩
  · obtain ⟨herr, hlen, hused, hout⟩ := hrun
    exact ⟨by rwa [eerr], by rwa [elen], by rwa [eused], by rwa [eout]⟩

/-- The host's queue, what it last read and the count of draws have no part in the invariant. -/
theorem State.Inv.with_host {s : State} (h : s.Inv) (q : List HostMove) (d : Word) (n : Nat) :
    ({ s with host := q, hostData := d, draw := n } : State).Inv := by
  cases hb : s.busy with
  | false => exact h.of_not_busy hb { h.inputs with } rfl rfl
  | true =>
    obtain ⟨p, hrun⟩ := (busy_iff s).1 hb
    obtain ⟨hr, hp⟩ := h.running hrun
    refine State.Running.inv (p := p) (hr.of_side rfl) hrun ?_
    match p, hp with
    | .header, hp => exact hp
    | .stream, hp => exact { hp with }
    | .groupOpen, hp => exact { hp with }
    | .groupTokens, ⟨hs, hgroup⟩ => exact ⟨{ hs with }, hgroup⟩
    | .palette, hp => exact { hp with }
    | .unpack, hp => exact { hp with }
    | .pack, hp => exact { hp with }

theorem writeReg_inv {s : State} (h : s.Inv) (n : Nat) (v : Word) : (writeReg n v s).Inv := by
  cases hb : s.busy with
  | true => rwa [writeReg_busy hb]
  | false =>
    rw [writeReg_frame n v s]
    exact h.of_not_busy hb { h.inputs with } rfl rfl

theorem hostWriteReg_goesOn {s : State} (h : s.Inv) (n : Nat) (v : Word) : GoesOn (hostWriteReg n v s) := by
  unfold hostWriteReg
  split
  · split
    · exact startCommand_goesOn h
    · exact goesOn_next h
  · exact goesOn_next (writeReg_inv h n v)

theorem hostReadReg_keepsInv {s : State} (h : s.Inv) (n : Nat) : KeepsInv (hostReadReg n s) := by
  unfold hostReadReg
  split
  · trivial
  · exact h.with_host s.host _ s.draw

theorem hostWriteIn_keepsInv {s : State} (h : s.Inv) (a : Nat) (v : Byte) : KeepsInv (hostWriteIn a v s) := by
  unfold hostWriteIn
  split
  · trivial
  · next hb =>
    split
    · exact nofun
    · next ha =>
      have hin : ({ s with inMem := s.inMem.write a v } : State).InputsOk :=
        ⟨h.cfg, Memory.write_wf a v h.memories.inWf, Memory.write_fitsIn v h.memories.inFits (not_le.1 ha)⟩
      exact h.of_not_busy (by simpa using hb) hin rfl rfl

theorem hostReadOut_keepsInv {s : State} (h : s.Inv) (a : Nat) : KeepsInv (hostReadOut a s) := by
  unfold hostReadOut
  split
  · trivial
  · split
    · exact nofun
    · split
      · exact h.with_host s.host _ s.draw
      · exact h.with_host s.host _ _

/-- Reset leads to the invariant from any state with legal parameters (R270). -/
theorem resetBlock_inv {s : State} (hcfg : s.cfg.wf) : (resetBlock s).Inv :=
  State.inv_of_idle hcfg rfl rfl rfl ⟨rfl, rfl, rfl, rfl⟩

theorem hostMove_keepsInv {s : State} (h : s.Inv) (m : HostMove) : KeepsInv (hostMove m s) := by
  cases m with
  | writeReg n v => exact (hostWriteReg_goesOn h n v).keepsInv
  | readReg n => exact hostReadReg_keepsInv h n
  | writeIn a v => exact hostWriteIn_keepsInv h a v
  | readOut a => exact hostReadOut_keepsInv h a
  | reset => exact resetBlock_inv h.cfg
  | letRun => exact (blockStep_goesOn h).keepsInv
  | poll => exact h.with_host s.host _ s.draw

/-- Every step, the block's or the host's, keeps the invariant and stores nothing outside OUT. -/
theorem step_keepsInv {s : State} (h : s.Inv) : KeepsInv (step s) := by
  unfold step nextStep
  split
  · exact (blockStep_goesOn h).keepsInv
  · next rest _ =>
    split
    · exact (blockStep_goesOn h).keepsInv
    · exact hostMove_keepsInv (h.with_host rest s.hostData s.draw) _

/-- Settles O39: a step's next state, whatever the host's move. -/
theorem everyStepKeepsTheInvariant : Obligations.EveryStepKeepsTheInvariant := by
  intro s t h ht
  have hstep := step_keepsInv h
  rwa [ht] at hstep

/-- Settles O40: without a host move the step is the block's, which goes on; and no step of the invariant stores
outside OUT. -/
theorem blockNeverStops : Obligations.BlockNeverStops := by
  intro s h
  refine ⟨fun hhost => ?_, fun a ha => ?_⟩
  · obtain ⟨t, ht, -⟩ := blockStep_goesOn h
    exact ⟨t, (step_of_no_move hhost).trans ht⟩
  · have hstep := step_keepsInv h
    rw [ha] at hstep
    exact hstep a rfl

end Sys2Proof.Machine
end

section
/-! PROOFS. A step that reads an element: its bytes are fetched, decoded and run, or the error is raised; and what each
element of the token stream does by itself (R131 to R140). -/

namespace Sys2Proof.Machine

/-! ### Reading one element -/

/-- The state in which an element runs has the block's parameters. -/
theorem nextElement_cfg {s t : State} {c : Ctx} {k : Nat} (h : nextElement s = some (c, k, t)) : t.cfg = s.cfg := by
  obtain rfl | rfl := nextElement_state h <;> rfl

theorem step_reads {s t : State} {c : Ctx} {k : Nat} (hhost : s.host = []) (h : nextElement s = some (c, k, t)) :
    step s = runElement c k t := by
  rw [step_of_no_move hhost, blockStep, h]

/-- Settles O37: reading an element is fetching, decoding and running it. -/
theorem stepRunsTheDecodedElement : Obligations.StepRunsTheDecodedElement := by
  intro s t c k bytes rest i hhost hnext hfetch hdecode
  rw [← nextElement_cfg hnext] at hdecode
  rw [step_reads hhost hnext, runElement, hfetch]
  simp only [hdecode]

/-- An element that the window does not hold whole is reported by the step that would run it. -/
theorem step_fetch_error {s t : State} {c : Ctx} {k info : Nat} {e : ErrCode} (hhost : s.host = [])
    (hnext : nextElement s = some (c, k, t)) (hfetch : fetchBytes c.size k t = .error (.err e info)) :
    step s = .next (raiseError e info t) := by
  rw [step_reads hhost hnext, runElement, hfetch]
  rfl

/-- Bytes that are no instruction of their context are reported by the step that would run them (R107). -/
theorem step_reject {s t : State} {c : Ctx} {k : Nat} {bytes : List Byte} {r : Reject} (hhost : s.host = [])
    (hnext : nextElement s = some (c, k, t)) (hfetch : fetchBytes c.size k t = .ok bytes)
    (hdecode : decode t.cfg.pal c bytes = .error r) : step s = .next (raiseReject r t) := by
  rw [step_reads hhost hnext, runElement, hfetch]
  simp only [hdecode]

/-- A fetch whose first byte is missing reports that byte. -/
theorem fetchBytes_first_missing (n : Nat) {k : Nat} {s : State} (h : s.latch.len.toNat ≤ k) :
    fetchBytes (n + 1) k s = .error (.err .inputUnderrun k) := by
  rw [fetchBytes, inRead_missing h]

/-- An error raised in a state with the same inputs is a failure of the first. -/
theorem failsWith_of_same {s t : State} {r : Result} {e : ErrCode} {info : Nat} (hsame : SameInputs s t)
    (h : r = .next (raiseError e info t)) : FailsWith e info s r :=
  ⟨_, h, { raiseError_failed e info t with same := hsame.trans (raiseError_same e info t) }⟩

theorem selectToken_same (s : State) : SameInputs s (selectToken s) := ⟨rfl, rfl, rfl, rfl, rfl, rfl, rfl, rfl, rfl⟩

/-! ### The step in the token stream -/

section Stream
variable {s : State} (hrun : s.run = .busy .stream)
include hrun

theorem nextElement_complete (h : s.olen.toNat = s.ulen.toNat) : nextElement s = none := by
  simp only [nextElement, hrun, h, if_true]

theorem nextElement_flag (h : s.olen.toNat ≠ s.ulen.toNat) (hf : s.fcnt = 0) :
    nextElement s = some (.flag, s.ip.toNat, s) := by
  simp only [nextElement, hrun, h, hf, if_true, if_false]

theorem nextElement_token (h : s.olen.toNat ≠ s.ulen.toNat) (hf : s.fcnt ≠ 0) {bit : Bool}
    (hbit : s.flg.getLsbD 7 = bit) : nextElement s = some (tokenCtx bit, s.ip.toNat, selectToken s) := by
  simp only [nextElement, hrun, h, hf, if_false, flagBit, hbit]

variable (hhost : s.host = [])
include hhost

/-- The stream is complete (R140). -/
theorem step_complete (h : s.olen.toNat = s.ulen.toNat) :
    step s = .next (finishDone s.ulen.toNat s.ip.toNat s) := by
  rw [step_of_no_move hhost, blockStep, nextElement_complete hrun h]
  simp only [controlStep, hrun]

variable (h : s.olen.toNat ≠ s.ulen.toNat)
include h

theorem step_flag (hf : s.fcnt = 0) (hip : s.ip.toNat < s.latch.len.toNat) :
    step s = exec (.flag (inByte s (s.latch.off.toNat + s.ip.toNat))) s :=
  stepRunsTheDecodedElement s s .flag _ _ [] _ hhost (nextElement_flag hrun h hf) (fetchBytes_ok 1 (.inr hip)) rfl

theorem step_flag_missing (hf : s.fcnt = 0) (hip : s.latch.len.toNat ≤ s.ip.toNat) :
    step s = .next (raiseError .inputUnderrun s.ip.toNat s) :=
  step_fetch_error hhost (nextElement_flag hrun h hf) (fetchBytes_first_missing 0 hip)

variable (hf : s.fcnt ≠ 0)
include hf

theorem step_lit (hbit : s.flg.getLsbD 7 = false) (hip : s.ip.toNat < s.latch.len.toNat) :
    step s = exec (.lit (inByte s (s.latch.off.toNat + s.ip.toNat))) (selectToken s) :=
  stepRunsTheDecodedElement s _ .tokenLit _ _ [] _ hhost (nextElement_token hrun h hf hbit)
    (fetchBytes_ok 1 (.inr hip)) rfl

theorem step_ref (hbit : s.flg.getLsbD 7 = true) (hip : s.ip.toNat + 1 < s.latch.len.toNat) :
    step s = exec (decodeRef (inByte s (s.latch.off.toNat + s.ip.toNat))
      (inByte s (s.latch.off.toNat + (s.ip.toNat + 1)))) (selectToken s) :=
  stepRunsTheDecodedElement s _ .tokenRef _ _ [] _ hhost (nextElement_token hrun h hf hbit)
    (fetchBytes_ok 2 (.inr hip)) rfl

/-- A token whose first byte is missing, whichever the flag bit selects. -/
theorem step_token_missing (hip : s.latch.len.toNat ≤ s.ip.toNat) :
    step s = .next (raiseError .inputUnderrun s.ip.toNat (selectToken s)) := by
  refine step_fetch_error hhost (nextElement_token hrun h hf rfl) ?_
  cases s.flg.getLsbD 7 with
  | false => exact fetchBytes_first_missing 0 hip
  | true => exact fetchBytes_first_missing 1 hip

/-- A back-reference whose second byte is missing. -/
theorem step_ref_missing (hbit : s.flg.getLsbD 7 = true) (hip : s.latch.len.toNat = s.ip.toNat + 1) :
    step s = .next (raiseError .inputUnderrun (s.ip.toNat + 1) (selectToken s)) := by
  refine step_fetch_error hhost (nextElement_token hrun h hf hbit) ?_
  rw [← hip]
  exact fetchBytes_missing 2 (show s.latch.len.toNat < s.ip.toNat + 2 by omega)
    (show s.ip.toNat ≤ s.latch.len.toNat by omega)

end Stream

/-! ### The elements -/

/-- A literal that fits OUT. -/
theorem execLit_ok (b : Byte) {s : State} (h : s.olen.toNat < s.cfg.outSize) :
    execLit b s = .next { s with ip := s.ip + 1, olen := s.olen + 1, outMem := s.outMem.write s.olen.toNat b } := by
  rw [execLit, memWrite_ok b h]

/-- The fields of a `REF` in its two bytes, most significant first (R95). -/
theorem decodeRef_eq (r0 r1 : Byte) : decodeRef r0 r1 = .ref (r0.extractLsb' 4 4) (r0.extractLsb' 0 4 ++ r1) := by
  have hln : (r0 ++ r1).extractLsb' 12 4 = r0.extractLsb' 4 4 :=
    BitVec.extractLsb'_append_eq_of_le (by decide)
  have hdisp : (r0 ++ r1).extractLsb' 0 12 = r0.extractLsb' 0 4 ++ r1 := by
    rw [BitVec.extractLsb'_append_eq_ite]
    simp
  exact congrArg₂ Instr.ref hln hdisp

/-- Settles O15: the meaning of `FLAG`, and the step that fetches it. -/
theorem flagLoadsEightSelectors : Obligations.FlagLoadsEightSelectors := by
  refine ⟨fun _ _ => rfl, fun s hhost hrun h hf => ?_⟩
  split
  · next hip => exact failsWith_of_same (.refl s) (step_flag_missing hrun hhost h hf hip)
  · next hip => exact step_flag hrun hhost h hf (by omega)

/-- Settles O16: the store of the literal, and the step that lacks its byte. -/
theorem literalStoresItsByte : Obligations.LiteralStoresItsByte := by
  refine ⟨fun b s h => ⟨_, execLit_ok b h, rfl, Memory.read_write_same _ _ b, fun a ha => ?_⟩,
    fun s hhost hrun h hf _ hip => ?_⟩
  · exact Memory.read_write_other _ b ha
  · exact failsWith_of_same (selectToken_same s) (step_token_missing hrun hhost h hf hip)

/-- Settles O19: the size check, then the working registers of the stream. -/
theorem lzHeaderBeginsTheStream : Obligations.LzHeaderBeginsTheStream := by
  intro sub ulen s
  split
  · next hsize => exact failsWith_of_same (.refl s) (if_pos hsize)
  · next hsize => exact if_neg hsize

/-- Settles O22: the flag byte, or the token that flag bit 7 selects. -/
theorem streamStepFollowsTheFlagBits : Obligations.StreamStepFollowsTheFlagBits := by
  intro s hhost hrun h
  refine ⟨fun hf hleft => ?flag, fun hf hbit hleft => ?lit, fun hf hbit hleft => ?ref⟩
  case flag => exact step_flag hrun hhost h hf (by omega)
  case lit => exact step_lit hrun hhost h hf hbit (by omega)
  case ref => exact decodeRef_eq _ _ ▸ step_ref hrun hhost h hf hbit (by omega)

/-- Settles O24: the end of the stream is `done(ULEN, IP)`. -/
theorem streamCompletesAtItsLength : Obligations.StreamCompletesAtItsLength := by
  intro s hhost hrun h
  have hlen : BitVec.ofNat 32 s.ulen.toNat = s.ulen.setWidth 32 := BitVec.ofNat_toNat 32 s.ulen
  have hused : BitVec.ofNat 32 s.ip.toNat = s.ip := by simp
  refine ⟨_, step_complete hrun hhost h, ?_, fun a ha => ?_, fun a ha => ?_⟩
  · rw [← hlen, finishDone, hused]
  · rw [finishDone_outMem, Memory.read_below, if_pos ha]
  · rw [finishDone_outMem, Memory.read_below, if_neg (by omega)]

end Sys2Proof.Machine
end

section
/-! PROOFS. The copy of a back-reference: byte by byte, it repeats the earlier output as a pattern (R137
to R139). -/

namespace Sys2Proof.Machine

theorem outByte_write_same (s : State) (a : Nat) (v : Byte) :
    outByte { s with outMem := s.outMem.write a v } a = v := by
  simp [outByte]

theorem outByte_write_other {s : State} {a b : Nat} (v : Byte) (h : b ≠ a) :
    outByte { s with outMem := s.outMem.write a v } b = outByte s b := by
  simp [outByte, Memory.read_write_other _ v h]

/-- OUT after `n` bytes from `src` on were repeated from `o` on: byte `j` of the copy is the byte of `s` in place
`j mod (o − src)` of the pattern, and nothing else changed (R138). -/
def Repeats (s : State) (src o n : Nat) (m : Memory) : Prop :=
  (∀ j, j < n → m.read (o + j) = some (outByte s (src + j % (o - src))))
    ∧ ∀ a, a < o ∨ o + n ≤ a → m.read a = s.outMem.read a

theorem Repeats.zero (s : State) (src o : Nat) : Repeats s src o 0 s.outMem := ⟨nofun, fun _ _ => rfl⟩

/-- One byte of the copy, then a copy from the next byte on: the byte just stored stands where the pattern begins
again. -/
theorem Repeats.succ {s : State} {src o n : Nat} {m : Memory} (hsrc : src < o)
    (h : Repeats { s with outMem := s.outMem.write o (outByte s src) } (src + 1) (o + 1) n m) :
    Repeats s src o (n + 1) m := by
  obtain ⟨hcopied, hframe⟩ := h
  refine ⟨fun j hj => ?_, fun a ha => ?_⟩
  · cases j with
    | zero => rw [hframe _ (by omega)]; exact Memory.read_write_same _ _ _
    | succ j =>
      have hj := hcopied j (by omega)
      have hmod : j % (o - src) < o - src := Nat.mod_lt j (by omega)
      rw [show o + 1 - (src + 1) = o - src by omega] at hj
      rw [show o + (j + 1) = o + 1 + j by omega, hj, ← Nat.mod_add_mod]
      by_cases hwrap : src + 1 + j % (o - src) = o
      · rw [hwrap, outByte_write_same, show j % (o - src) + 1 = o - src by omega, Nat.mod_self, Nat.add_zero]
      · rw [outByte_write_other _ hwrap, Nat.mod_eq_of_lt (show j % (o - src) + 1 < o - src by omega),
          Nat.add_right_comm, Nat.add_assoc]
  · rw [hframe a (by omega)]
    exact Memory.read_write_other _ _ (by omega)

/-- The copy loop from a source inside the output copies what remains to copy, but not past `ULEN` (R139). -/
theorem copyLoop_repeats {fuel n : Nat} {s : State} (hr : s.crem.toNat = fuel) (hsrc : s.csrc.toNat < s.olen.toNat)
    (hn : n = min fuel (s.ulen.toNat - s.olen.toNat)) (hfit : n = 0 ∨ s.olen.toNat + n ≤ s.cfg.outSize) :
    ∃ m rem, Repeats s s.csrc.toNat s.olen.toNat n m
      ∧ copyLoop fuel s = .ok { s with
          outMem := m, crem := rem, csrc := s.csrc + BitVec.ofNat 32 n, olen := s.olen + BitVec.ofNat 32 n } := by
  induction fuel generalizing s n with
  | zero =>
    obtain rfl : n = 0 := by omega
    exact ⟨s.outMem, s.crem, .zero s _ _, by simp [copyLoop]⟩
  | succ fuel ih =>
    by_cases ho : s.olen.toNat < s.ulen.toNat
    · obtain ⟨n, rfl⟩ : ∃ k, n = k + 1 := ⟨n - 1, by omega⟩
      have holen : (s.olen + 1).toNat = s.olen.toNat + 1 := by bv_omega
      have hcsrc : (s.csrc + 1).toNat = s.csrc.toNat + 1 := by bv_omega
      have hcrem : (s.crem - 1).toNat = fuel := by bv_omega
      rw [copyLoop_next fuel (by omega) ho, copyStep_ok (by omega)]
      obtain ⟨m, rem, hrep, hloop⟩ := ih (n := n) (s := { s with
          outMem := s.outMem.write s.olen.toNat (outByte s s.csrc.toNat)
          csrc := s.csrc + 1, olen := s.olen + 1, crem := s.crem - 1 }) hcrem
        (by simp only [holen, hcsrc]; omega) (by simp only [holen]; omega) (by simp only [holen]; omega)
      simp only [holen, hcsrc] at hrep
      refine ⟨m, rem, .succ hsrc hrep, ?_⟩
      simp only
      rw [hloop, Nat.add_comm n 1]
      simp only [BitVec.ofNat_add, BitVec.add_assoc]
      rfl
    · obtain rfl : n = 0 := by omega
      rw [copyLoop_stop (fuel + 1) (by omega)]
      exact ⟨s.outMem, s.crem, .zero s _ _, by simp⟩

/-- A back-reference whose source pointer is not negative: `IP` moves on and the copy runs (R137). -/
theorem execRef_of_lt {ln : BitVec 4} {disp : BitVec 12} {s : State} (h : disp.toNat < s.olen.toNat) :
    execRef ln disp s =
      conclude s (copyBytes (s.olen.toNat - disp.toNat - 1) (copyLen ln) { s with ip := s.ip + 2 }) := by
  have hnonneg : ¬ sourcePtr s.olen.toNat disp < 0 := by unfold sourcePtr; omega
  have hptr : (sourcePtr s.olen.toNat disp).toNat = s.olen.toNat - disp.toNat - 1 := by unfold sourcePtr; omega
  rw [execRef, if_neg hnonneg, hptr]

/-- The longest copy, of 18 bytes, can be counted in the five bits of `CREM` (R37). -/
theorem crem_copyLen (ln : BitVec 4) : (BitVec.ofNat 5 (copyLen ln)).toNat = copyLen ln :=
  Nat.mod_eq_of_lt (by unfold copyLen; omega)

/-- A source pointer below `OLEN` can be held in `CSRC`. -/
theorem csrc_of_lt {src : Nat} {o : Word} (h : src < o.toNat) : (BitVec.ofNat 32 src).toNat = src :=
  Nat.mod_eq_of_lt (h.trans o.isLt)

/-- Settles O17: the source pointer is not negative, so the copy loop runs from it. -/
theorem backReferenceRepeatsEarlierOutput : Obligations.BackReferenceRepeatsEarlierOutput := by
  intro ln disp s o n hdisp hfit
  have hlt : o - disp.toNat - 1 < s.olen.toNat := by omega
  have hcsrc := csrc_of_lt hlt
  obtain ⟨m, rem, hrep, hloop⟩ := copyLoop_repeats (n := n) (s := { s with
    ip := s.ip + 2, csrc := BitVec.ofNat 32 (o - disp.toNat - 1), crem := BitVec.ofNat 5 (copyLen ln) })
    (crem_copyLen ln) (by simpa only [hcsrc] using hlt) rfl hfit
  simp only [hcsrc] at hrep
  obtain ⟨hcopied, hframe⟩ := hrep
  have hperiod : o - (o - disp.toNat - 1) = disp.toNat + 1 := by omega
  refine ⟨{ s with
      ip := s.ip + 2, olen := s.olen + BitVec.ofNat 32 n, crem := 0
      csrc := BitVec.ofNat 32 (o - disp.toNat - 1 + n), outMem := m }, ?_, rfl, hperiod ▸ hcopied, hframe⟩
  rw [exec, execRef_of_lt hdisp, copyBytes, hloop]
  simp only [conclude_ok, BitVec.ofNat_add]

end Sys2Proof.Machine
end

section
/-! PROOFS. The functions of the decompressing commands: what one token and the token loop give, the exact length of a
result (R142, R185), and that window bytes not used are never read (R145). -/

namespace Sys2Proof.Machine

/-! ### The copy and the token -/

theorem lzCopy_complete {ulen : Nat} (left src : Nat) {out : List Byte} (h : out.length = ulen) :
    lzCopy ulen left src out = out := by
  cases left with
  | zero => rfl
  | succ left => exact if_pos h

theorem lzCopy_next {ulen : Nat} (left src : Nat) {out : List Byte} (h : out.length ≠ ulen) :
    lzCopy ulen (left + 1) src out = lzCopy ulen left (src + 1) (out ++ [out.getD src 0]) := if_neg h

/-- A copy never shortens the output, nor takes it past `ULEN` (R139). -/
theorem lzCopy_length {ulen : Nat} (left src : Nat) {out : List Byte} (h : out.length ≤ ulen) :
    out.length ≤ (lzCopy ulen left src out).length ∧ (lzCopy ulen left src out).length ≤ ulen := by
  induction left generalizing src out with
  | zero => exact ⟨le_rfl, h⟩
  | succ left ih =>
    by_cases hc : out.length = ulen
    · rw [lzCopy_complete _ _ hc]; exact ⟨le_rfl, h⟩
    · have hnext := ih (src + 1) (out := out ++ [out.getD src 0])
        (by rw [List.length_append, List.length_singleton]; omega)
      rw [List.length_append] at hnext
      rw [lzCopy_next left src hc]
      omega

/-- The word of a `REF` from its two bytes (R95). -/
def refWord (r0 r1 : Byte) : Nat := 256 * r0.toNat + r1.toNat

section Token
variable {w : List Byte} {ip : Nat} (ulen : Nat)

theorem lzToken_missing (bit : Bool) (out : List Byte) (h : w[ip]? = none) :
    lzToken w ulen ip bit out = .error (.err .inputUnderrun ip) := by
  unfold lzToken
  rw [h]

theorem lzToken_lit {b : Byte} (out : List Byte) (h : w[ip]? = some b) :
    lzToken w ulen ip false out = .ok (ip + 1, out ++ [b]) := by
  unfold lzToken
  rw [h]

variable {r0 : Byte} (h0 : w[ip]? = some r0)
include h0

theorem lzToken_ref_missing (out : List Byte) (h1 : w[ip + 1]? = none) :
    lzToken w ulen ip true out = .error (.err .inputUnderrun (ip + 1)) := by
  unfold lzToken
  rw [h0, h1]

variable {r1 : Byte} {out : List Byte} (h1 : w[ip + 1]? = some r1)
include h1

theorem lzToken_ref_bad (h : out.length ≤ refWord r0 r1 % 4096) :
    lzToken w ulen ip true out = .error (.err .badBackref ip) := by
  unfold lzToken
  rw [h0, h1]
  exact if_pos (Nat.lt_succ_of_le h)

theorem lzToken_ref (h : refWord r0 r1 % 4096 < out.length) :
    lzToken w ulen ip true out =
      .ok (ip + 2, lzCopy ulen (3 + refWord r0 r1 / 4096) (out.length - refWord r0 r1 % 4096 - 1) out) := by
  unfold lzToken
  rw [h0, h1]
  exact if_neg (Nat.not_lt_of_le h)

end Token

/-- Everything a token that goes on can be: a literal, or a back-reference with its source in the output. -/
theorem lzToken_cases {w out out' : List Byte} {ulen ip ip' : Nat} {bit : Bool}
    (h : lzToken w ulen ip bit out = .ok (ip', out')) :
    (∃ b, w[ip]? = some b ∧ bit = false ∧ ip' = ip + 1 ∧ out' = out ++ [b])
      ∨ ∃ r0 r1, w[ip]? = some r0 ∧ w[ip + 1]? = some r1 ∧ bit = true ∧ refWord r0 r1 % 4096 < out.length
          ∧ ip' = ip + 2
          ∧ out' = lzCopy ulen (3 + refWord r0 r1 / 4096) (out.length - refWord r0 r1 % 4096 - 1) out := by
  cases h0 : w[ip]? with
  | none => rw [lzToken_missing ulen bit out h0] at h; cases h
  | some r0 =>
    cases bit with
    | false =>
      rw [lzToken_lit ulen out h0] at h
      cases h
      exact .inl ⟨r0, rfl, rfl, rfl, rfl⟩
    | true =>
      cases h1 : w[ip + 1]? with
      | none => rw [lzToken_ref_missing ulen h0 out h1] at h; cases h
      | some r1 =>
        by_cases hd : refWord r0 r1 % 4096 < out.length
        · rw [lzToken_ref ulen h0 h1 hd] at h
          cases h
          exact .inr ⟨r0, r1, rfl, rfl, rfl, hd, rfl, rfl⟩
        · rw [lzToken_ref_bad ulen h0 h1 (by omega)] at h; cases h

/-- A copy of at least one byte lengthens an incomplete output, up to `ULEN` at most (R139). -/
theorem lzCopy_lengthens {ulen left : Nat} (src : Nat) {out : List Byte} (hleft : 0 < left) (h : out.length < ulen) :
    out.length < (lzCopy ulen left src out).length ∧ (lzCopy ulen left src out).length ≤ ulen := by
  obtain ⟨k, rfl⟩ : ∃ k, left = k + 1 := ⟨left - 1, by omega⟩
  have hlen := lzCopy_length k (src + 1) (out := out ++ [out.getD src 0]) (ulen := ulen)
    (by rw [List.length_append]; exact h)
  rw [lzCopy_next k src h.ne]
  rw [List.length_append, List.length_singleton] at hlen
  omega

/-- A token that goes on lies inside the window and lengthens the output, up to `ULEN` at most. -/
theorem lzToken_ok {w out out' : List Byte} {ulen ip ip' : Nat} {bit : Bool} (ho : out.length < ulen)
    (h : lzToken w ulen ip bit out = .ok (ip', out')) :
    (ip < ip' ∧ ip' ≤ w.length) ∧ out.length < out'.length ∧ out'.length ≤ ulen := by
  obtain ⟨b, h0, -, rfl, rfl⟩ | ⟨r0, r1, -, h1, -, -, rfl, rfl⟩ := lzToken_cases h
  · obtain ⟨hip, -⟩ := List.getElem?_eq_some_iff.1 h0
    rw [List.length_append, List.length_singleton]
    omega
  · obtain ⟨hip, -⟩ := List.getElem?_eq_some_iff.1 h1
    exact ⟨by omega, lzCopy_lengthens _ (by omega) ho⟩

/-! ### Windows with the same first bytes -/

/-- The first `n` bytes of two windows are the same. -/
def AgreeBelow (n : Nat) (w w' : List Byte) : Prop := ∀ k, k < n → w'[k]? = w[k]?

namespace AgreeBelow
variable {n : Nat} {w w' : List Byte}

theorem take_append (tail : List Byte) (h : n ≤ w.length) : AgreeBelow n w (w.take n ++ tail) := fun k hk => by
  rw [List.getElem?_append_left (by rw [List.length_take]; omega), List.getElem?_take_of_lt hk]

variable (h : AgreeBelow n w w')
include h

theorem getD_eq {k : Nat} (hk : k < n) : w'.getD k 0 = w.getD k 0 := by
  rw [List.getD_eq_getElem?_getD, List.getD_eq_getElem?_getD, h k hk]

theorem take_eq : w'.take n = w.take n := by
  refine List.ext_getElem? fun k => ?_
  by_cases hk : k < n
  · rw [List.getElem?_take_of_lt hk, List.getElem?_take_of_lt hk, h k hk]
  · rw [List.getElem?_take_eq_none (by omega), List.getElem?_take_eq_none (by omega)]

theorem length_le (hn : n ≤ w.length) : n ≤ w'.length := by
  have hlen := congrArg List.length h.take_eq
  rw [List.length_take, List.length_take] at hlen
  omega

/-- The length field is in the header. -/
theorem lengthField_eq (hn : 4 ≤ n) : lengthField w' = lengthField w := by
  unfold lengthField
  rw [h.getD_eq (by omega), h.getD_eq (by omega), h.getD_eq (by omega)]

/-- A token that goes on reads no byte from its end on. -/
theorem lzToken_eq {out out' : List Byte} {ulen ip : Nat} {bit : Bool}
    (ht : lzToken w ulen ip bit out = .ok (n, out')) : lzToken w' ulen ip bit out = .ok (n, out') := by
  obtain ⟨b, h0, rfl, rfl, rfl⟩ | ⟨r0, r1, h0, h1, rfl, hd, rfl, rfl⟩ := lzToken_cases ht
  · exact lzToken_lit ulen out ((h _ (by omega)).trans h0)
  · exact lzToken_ref ulen ((h _ (by omega)).trans h0) ((h _ (by omega)).trans h1) hd

end AgreeBelow

theorem AgreeBelow.mono {m n : Nat} {w w' : List Byte} (h : AgreeBelow n w w') (hm : m ≤ n) : AgreeBelow m w w' :=
  fun k hk => h k (hk.trans_le hm)

/-! ### The token loop -/

section Loop
variable {w : List Byte} {ulen : Nat} {out : List Byte}

theorem lzLoop_complete (fuel ip : Nat) (flg : Byte) (fcnt : Nat) (h : out.length = ulen) :
    lzLoop w ulen fuel ip flg fcnt out = .ok (out, ip) := by
  cases fuel with
  | zero => rfl
  | succ fuel => exact if_pos h

variable (h : out.length ≠ ulen) (fuel : Nat) {ip : Nat}
include h

theorem lzLoop_flag_missing (flg : Byte) (hw : w[ip]? = none) :
    lzLoop w ulen (fuel + 1) ip flg 0 out = .error (.err .inputUnderrun ip) := by
  rw [lzLoop, if_neg h, if_pos rfl, hw]

/-- Loading a flag byte: the loop goes on with eight flag bits, one byte further. -/
theorem lzLoop_flag {f : Byte} (flg : Byte) (hw : w[ip]? = some f) :
    lzLoop w ulen (fuel + 1) ip flg 0 out = lzLoop w ulen (fuel + 1) (ip + 1) f 8 out := by
  rw [lzLoop, if_neg h, if_pos rfl, hw, lzLoop, if_neg h, if_neg (by decide)]

variable {flg : Byte} {fcnt : Nat} (hf : fcnt ≠ 0)
include hf

theorem lzLoop_token_error {e : Stop} (ht : lzToken w ulen ip (flg.getLsbD 7) out = .error e) :
    lzLoop w ulen (fuel + 1) ip flg fcnt out = .error e := by
  rw [lzLoop, if_neg h, if_neg hf, ht]

theorem lzLoop_token {ip' : Nat} {out' : List Byte} (ht : lzToken w ulen ip (flg.getLsbD 7) out = .ok (ip', out')) :
    lzLoop w ulen (fuel + 1) ip flg fcnt out = lzLoop w ulen fuel ip' (flg <<< 1) (fcnt - 1) out' := by
  rw [lzLoop, if_neg h, if_neg hf, ht]

end Loop

/-- The loop ended well: its output is complete, it used bytes of the window only, and it gives the same from every
window with those bytes. -/
structure LoopEnds (w : List Byte) (ulen fuel ip : Nat) (flg : Byte) (fcnt : Nat) (out out' : List Byte) (used : Nat) :
    Prop where
  length : out'.length = ulen
  low : ip ≤ used
  high : used ≤ w.length
  reads : ∀ w', AgreeBelow used w w' → lzLoop w' ulen fuel ip flg fcnt out = .ok (out', used)

section Loop
variable {w out out' : List Byte} {ulen fuel ip used : Nat} {flg : Byte} {fcnt : Nat}

/-- A token, and then a loop that ends well. -/
theorem lzLoop_token_ends
    (ih : ∀ {ip flg fcnt out}, lzLoop w ulen fuel ip flg fcnt out = .ok (out', used) → ip ≤ w.length →
      out.length ≤ ulen → ulen < out.length + fuel → LoopEnds w ulen fuel ip flg fcnt out out' used)
    (h : lzLoop w ulen (fuel + 1) ip flg fcnt out = .ok (out', used)) (ho : out.length < ulen)
    (hfuel : ulen < out.length + (fuel + 1)) (hf : fcnt ≠ 0) :
    LoopEnds w ulen (fuel + 1) ip flg fcnt out out' used := by
  cases ht : lzToken w ulen ip (flg.getLsbD 7) out with
  | error e => rw [lzLoop_token_error ho.ne fuel hf ht] at h; cases h
  | ok r =>
    obtain ⟨ip1, out1⟩ := r
    obtain ⟨⟨hlow, hhigh⟩, hmore, hfit⟩ := lzToken_ok ho ht
    rw [lzLoop_token ho.ne fuel hf ht] at h
    have hrest := ih h hhigh hfit (by omega)
    refine ⟨hrest.length, hlow.le.trans hrest.low, hrest.high, fun w' hw => ?_⟩
    rw [lzLoop_token ho.ne fuel hf ((hw.mono hrest.low).lzToken_eq ht)]
    exact hrest.reads w' hw

/-- With fuel for every missing byte the loop ends well, if it ends without an error. -/
theorem lzLoop_ends (h : lzLoop w ulen fuel ip flg fcnt out = .ok (out', used)) (hip : ip ≤ w.length)
    (ho : out.length ≤ ulen) (hfuel : ulen < out.length + fuel) : LoopEnds w ulen fuel ip flg fcnt out out' used := by
  induction fuel generalizing ip flg fcnt out with
  | zero => omega
  | succ fuel ih =>
    by_cases hc : out.length = ulen
    · rw [lzLoop_complete _ _ _ _ hc] at h
      cases h
      exact ⟨hc, le_rfl, hip, fun w' _ => lzLoop_complete _ _ _ _ hc⟩
    have ho' := lt_of_le_of_ne ho hc
    by_cases hf : fcnt = 0
    · subst hf
      cases hw : w[ip]? with
      | none => rw [lzLoop_flag_missing hc fuel flg hw] at h; cases h
      | some f =>
        rw [lzLoop_flag hc fuel flg hw] at h
        have hrest := lzLoop_token_ends ih h ho' hfuel (by decide)
        have hlow := hrest.low
        refine ⟨hrest.length, by omega, hrest.high, fun w' hagree => ?_⟩
        rw [lzLoop_flag hc fuel flg ((hagree ip (by omega)).trans hw)]
        exact hrest.reads w' hagree
    · exact lzLoop_token_ends ih h ho' hfuel hf

end Loop

/-! ### The commands -/

/-- What a decompression that succeeds gives: as many bytes as the header says, inside OUT, from bytes of the window,
the header among them; and the same from every window with the bytes it used. -/
structure Decompresses (f : List Byte → Nat → CommandResult) (w : List Byte) (outSize : Nat) (out : List Byte)
    (used : Nat) : Prop where
  length : out.length = lengthField w
  fits : out.length ≤ outSize
  low : 4 ≤ used
  high : used ≤ w.length
  reads : ∀ w', AgreeBelow used w w' → f w' outSize = .ok (out, used)

section Commands
variable {w out : List Byte} {outSize used : Nat}

theorem lzStream_decompresses (h : lzStream w outSize = .ok (out, used)) (hw : 4 ≤ w.length) :
    Decompresses lzStream w outSize out used := by
  unfold lzStream at h
  split at h
  · cases h
  · next hsize =>
    have hloop := lzLoop_ends h hw (Nat.zero_le _) (by simp)
    refine ⟨hloop.length, by have := hloop.length; omega, hloop.low, hloop.high, fun w' hagree => ?_⟩
    rw [lzStream, hagree.lengthField_eq hloop.low, if_neg hsize]
    exact hloop.reads w' hagree

theorem lzDecompress_decompresses (h : lzDecompress w outSize = .ok (out, used)) :
    Decompresses lzDecompress w outSize out used := by
  unfold lzDecompress at h
  split at h
  · cases h
  · split at h
    · cases h
    · next hw hmethod =>
      have hs := lzStream_decompresses h (by omega)
      refine { hs with reads := fun w' hagree => ?_ }
      have hw' := (hagree.mono hs.low).length_le (by omega)
      rw [lzDecompress, if_neg (by omega), hagree.getD_eq (by have := hs.low; omega), if_neg hmethod]
      exact hs.reads w' hagree

/-- The Raw path of `RD_COMP` (R182). -/
theorem readCompressed_raw {w : List Byte} (h0 : w.getD 0 0 = 0x00) (hw : 4 + lengthField w ≤ w.length)
    (hsize : lengthField w ≤ outSize) :
    readCompressed w outSize = .ok ((w.take (4 + lengthField w)).drop 4, 4 + lengthField w) := by
  rw [readCompressed, if_neg (by omega), if_pos h0, if_neg (by omega), if_neg (by omega), List.take_drop]

/-- The LZ77 path of `RD_COMP` (R183). -/
theorem readCompressed_lz {w : List Byte} (h0 : w.getD 0 0 = 0x10) (hw : 4 ≤ w.length) :
    readCompressed w outSize = lzStream w outSize := by
  rw [readCompressed, if_neg (by omega), h0, if_neg (by decide), if_pos rfl]

theorem readCompressed_decompresses (h : readCompressed w outSize = .ok (out, used)) :
    Decompresses readCompressed w outSize out used := by
  have h' := h
  unfold readCompressed at h'
  split at h'
  · cases h'
  next hw =>
  split at h'
  · next h0 =>
    split at h'
    · cases h'
    split at h'
    · cases h'
    next hlen hsize =>
    rw [readCompressed_raw h0 (by omega) (by omega)] at h
    cases h
    refine ⟨by rw [List.length_drop, List.length_take]; omega, by rw [List.length_drop, List.length_take]; omega,
      by omega, by omega, fun w' hagree => ?_⟩
    have hfield := hagree.lengthField_eq (by omega)
    have hw' := hagree.length_le (by omega)
    rw [readCompressed_raw ((hagree.getD_eq (by omega)).trans h0) (by omega) (by omega), hfield, hagree.take_eq]
  · split at h'
    · next h0 =>
      have hs := lzStream_decompresses h' (by omega)
      have hlow := hs.low
      refine { hs with reads := fun w' hagree => ?_ }
      rw [readCompressed_lz ((hagree.getD_eq (by omega)).trans h0) ((hagree.mono hlow).length_le (by omega))]
      exact hs.reads w' hagree
    · cases h'

/-- Entries of the palette below the bytes used read no others. -/
theorem decodePalette_congr {l : PalLayout} {w' : List Byte} (h : decodePalette l w outSize = .ok (out, used))
    (hlen : w'.length = w.length) (hagree : AgreeBelow used w w') : decodePalette l w' outSize = .ok (out, used) := by
  unfold decodePalette at h ⊢
  rw [hlen]
  split at h
  · cases h
  · next hsize =>
    cases h
    have hentries : (List.range (entryCount w.length)).flatMap (paletteEntry l w')
        = (List.range (entryCount w.length)).flatMap (paletteEntry l w) := by
      refine List.flatMap_congr fun e he => ?_
      have he := List.mem_range.1 he
      unfold paletteEntry
      rw [hagree.getD_eq (by omega), hagree.getD_eq (by omega)]
    rw [if_neg hsize, hentries]

theorem decodeTiles_congr {bpp : BitVec 4} {w' : List Byte} (h : decodeTiles bpp w outSize = .ok (out, used))
    (hlen : w'.length = w.length) (hagree : AgreeBelow used w w') : decodeTiles bpp w' outSize = .ok (out, used) := by
  have hused : used = tileBytes bpp * tileCount bpp w.length := by
    unfold decodeTiles at h
    dsimp only at h
    split at h
    · cases h
    · split at h <;> cases h <;> rfl
  subst hused
  rw [← h]
  unfold decodeTiles
  simp only [hlen, hagree.take_eq]

end Commands

/-- Settles O55: both commands from what their functions give. -/
theorem decompressedLengthIsExact : Obligations.DecompressedLengthIsExact := by
  intro w out outSize used
  exact ⟨fun h => have ⟨hlen, hfit, hlow, hhigh, _⟩ := lzDecompress_decompresses h; ⟨hlen, hfit, hlow, hhigh⟩,
    fun h => have ⟨hlen, hfit, hlow, hhigh, _⟩ := readCompressed_decompresses h; ⟨hlen, hfit, hlow, hhigh⟩⟩

/-- Settles O56: each function reads only bytes it uses, and the converters the length of the window besides. -/
theorem trailingBytesAreNeverRead : Obligations.TrailingBytesAreNeverRead := by
  intro w tail out outSize used
  have hlength (hlen : used + tail.length = w.length) : (w.take used ++ tail).length = w.length := by
    rw [List.length_append, List.length_take]
    omega
  refine ⟨fun h => ?lz, fun h => ?rd, fun l h hlen => ?pal, fun bpp h hlen => ?tile⟩
  case lz =>
    have hd := lzDecompress_decompresses h
    exact hd.reads _ (.take_append tail hd.high)
  case rd =>
    have hd := readCompressed_decompresses h
    exact hd.reads _ (.take_append tail hd.high)
  case pal => exact decodePalette_congr h (hlength hlen) (.take_append tail (by omega))
  case tile => exact decodeTiles_congr h (hlength hlen) (.take_append tail (by omega))

end Sys2Proof.Machine
end

section
/-! PROOFS. `LZ_DECOMP` run step by step reaches what its function says: each step of the block is one unfolding of the
function, with the output so far in OUT (R131 to R140, R144). -/

namespace Sys2Proof.Machine

/-! ### Running to the end of a command -/

/-- Some number of steps from `s` end the command with result `r`. -/
def Ends (s : State) (r : CommandResult) : Prop := ∃ k t, Reaches k s t ∧ t.EndedWith r

theorem Ends.of_ended {s : State} {r : CommandResult} (h : s.EndedWith r) : Ends s r := ⟨0, s, rfl, h⟩

theorem reaches_succ_iff {k : Nat} {s t : State} :
    Reaches (k + 1) s t ↔ ∃ u, step s = .next u ∧ Reaches k u t := by
  simp only [Reaches, Host.Core.run, show Sys2Proof.core.step s = step s from rfl]
  cases step s <;> simp

theorem Ends.of_step {s u : State} {r : CommandResult} (h : step s = .next u) (hu : Ends u r) : Ends s r := by
  obtain ⟨k, t, hk, ht⟩ := hu
  exact ⟨k + 1, t, reaches_succ_iff.2 ⟨u, h, hk⟩, ht⟩

theorem raiseError_ended (e : ErrCode) (info : Nat) (s : State) :
    (raiseError e info s).EndedWith (.error (.err e info)) := ⟨rfl, rfl, rfl, rfl, rfl, rfl⟩

theorem Ends.of_error {s u : State} {e : ErrCode} {info : Nat} (h : step s = .next (raiseError e info u)) :
    Ends s (.error (.err e info)) := .of_step h (.of_ended (raiseError_ended e info u))

/-- Without moves of the host the steps change nothing that the host wrote. -/
theorem reaches_same {k : Nat} {s t : State} (hhost : s.host = []) (h : Reaches k s t) : SameInputs s t := by
  induction k generalizing s with
  | zero => cases h; exact .refl _
  | succ k ih =>
    obtain ⟨u, hstep, hu⟩ := reaches_succ_iff.1 h
    obtain ⟨hsame, -⟩ := blockLeavesTheHostsStateAlone s u hhost hstep
    exact hsame.trans (ih (hsame.host.trans hhost) hu)

/-- A command whose `START` is one step runs to the result its steps end with. -/
theorem runsTo_of_ends {i : Instr} {s s' : State} {r : CommandResult} (hstart : exec i s = .next s')
    (hsame : SameInputs s s') (hhost : s.host = []) (h : Ends s' r) : RunsTo i s r := by
  obtain ⟨k, t, hk, ht⟩ := h
  exact ⟨s', k, t, hstart, hk, ht, hsame.trans (reaches_same (hsame.host.trans hhost) hk)⟩

/-! ### The window and the output as lists -/

theorem window_getElem?_of_lt {s : State} {k : Nat} (h : k < s.latch.len.toNat) :
    (window s)[k]? = some (inByte s (s.latch.off.toNat + k)) := by
  simp [window, h]

theorem window_getElem?_of_ge {s : State} {k : Nat} (h : s.latch.len.toNat ≤ k) : (window s)[k]? = none :=
  List.getElem?_eq_none (by rwa [window_length])

/-- The bytes of a memory that hold a value are those of a list, from address 0 on. -/
def Memory.Spells (m : Memory) (out : List Byte) : Prop := ∀ a, m.read a = out[a]?

theorem Memory.spells_nil : Memory.Spells [] [] := fun _ => rfl

/-- Storing the next byte of an output. -/
theorem Memory.Spells.snoc {m : Memory} {out : List Byte} (h : m.Spells out) (v : Byte) :
    (m.write out.length v).Spells (out ++ [v]) := fun a => by
  by_cases ha : a = out.length
  · subst ha
    simp
  · rw [Memory.read_write_other m v ha, h a]
    by_cases hlt : a < out.length
    · rw [List.getElem?_append_left hlt]
    · have hlen : (out ++ [v]).length ≤ a := by rw [List.length_append, List.length_singleton]; omega
      rw [List.getElem?_eq_none hlen, List.getElem?_eq_none (by omega)]

/-- In the token stream: the output so far is `out`, it does not pass `ULEN`, and that fits OUT. -/
structure State.StreamAt (s : State) (out : List Byte) : Prop where
  host : s.host = []
  run : s.run = .busy .stream
  spells : s.outMem.Spells out
  olen : s.olen.toNat = out.length
  fits : out.length ≤ s.ulen.toNat
  size : s.ulen.toNat ≤ s.cfg.outSize
  ip : s.ip.toNat ≤ s.latch.len.toNat

/-- What the token loop of the function gives from the block's place in the stream. -/
def streamResult (fuel : Nat) (s : State) (out : List Byte) : CommandResult :=
  lzLoop (window s) s.ulen.toNat fuel s.ip.toNat s.flg s.fcnt.toNat out

/-! ### The elements -/

/-- A byte of the output is read back by the copy (R137). -/
theorem outByte_of_spells {s : State} {out : List Byte} (h : s.outMem.Spells out) {a : Nat} (ha : a < out.length) :
    outByte s a = out.getD a 0 := by
  rw [outByte, h a, List.getD_eq_getElem?_getD, List.getElem?_eq_getElem ha]
  rfl

/-- The copy loop is the copy of the function. -/
theorem copyLoop_lzCopy {fuel : Nat} {s : State} {out : List Byte} (hr : s.crem.toNat = fuel)
    (hout : s.outMem.Spells out) (holen : s.olen.toNat = out.length) (hfits : out.length ≤ s.ulen.toNat)
    (hsize : s.ulen.toNat ≤ s.cfg.outSize) (hsrc : s.csrc.toNat < out.length) :
    ∃ m src o rem, copyLoop fuel s = .ok { s with outMem := m, csrc := src, olen := o, crem := rem }
      ∧ m.Spells (lzCopy s.ulen.toNat fuel s.csrc.toNat out)
      ∧ o.toNat = (lzCopy s.ulen.toNat fuel s.csrc.toNat out).length := by
  induction fuel generalizing s out with
  | zero => exact ⟨_, _, _, _, rfl, hout, holen⟩
  | succ fuel ih =>
    by_cases hc : out.length = s.ulen.toNat
    · rw [copyLoop_stop (fuel + 1) (by omega), lzCopy_complete _ _ hc]
      exact ⟨_, _, _, _, rfl, hout, holen⟩
    · have holen' : (s.olen + 1).toNat = s.olen.toNat + 1 := by bv_omega
      have hcsrc' : (s.csrc + 1).toNat = s.csrc.toNat + 1 := by bv_omega
      have hcrem' : (s.crem - 1).toNat = fuel := by bv_omega
      have hsnoc := hout.snoc (out.getD s.csrc.toNat 0)
      rw [copyLoop_next fuel (by omega) (by omega), copyStep_ok (by omega), outByte_of_spells hout hsrc,
        lzCopy_next _ _ hc, ← hcsrc', holen]
      exact ih hcrem' hsnoc (by rw [List.length_append, List.length_singleton, holen', holen])
        (by rw [List.length_append, List.length_singleton]; simp only; omega) hsize
        (by rw [List.length_append, List.length_singleton]; simp only [hcsrc']; omega)

section Elements
variable {s : State} {out : List Byte} (h : s.StreamAt out)
include h

theorem State.StreamAt.flag (f : Byte) (hip : s.ip.toNat < s.latch.len.toNat) :
    State.StreamAt { s with flg := f, fcnt := 8, ip := s.ip + 1 } out :=
  { h with ip := show (s.ip + 1).toNat ≤ s.latch.len.toNat by bv_omega }

theorem State.StreamAt.selectToken : (selectToken s).StreamAt out := { h with }

/-- A literal is one byte more of the output. -/
theorem execLit_streamAt (b : Byte) (ho : out.length < s.ulen.toNat) (hip : s.ip.toNat < s.latch.len.toNat) :
    ∃ m o, execLit b s = .next { s with ip := s.ip + 1, olen := o, outMem := m }
      ∧ State.StreamAt { s with ip := s.ip + 1, olen := o, outMem := m } (out ++ [b]) := by
  have holen : (s.olen + 1).toNat = s.olen.toNat + 1 := by have := h.olen; bv_omega
  refine ⟨_, _, execLit_ok b (by have := h.olen; have := h.size; omega), { h with
    spells := by rw [h.olen]; exact h.spells.snoc b
    olen := by rw [List.length_append, List.length_singleton, ← h.olen]; exact holen
    fits := by rw [List.length_append]; exact ho
    ip := show (s.ip + 1).toNat ≤ s.latch.len.toNat by bv_omega }⟩

/-- A back-reference to the output is the copy of the function. -/
theorem execRef_streamAt (ln : BitVec 4) (disp : BitVec 12) (hdisp : disp.toNat < out.length)
    (hip : s.ip.toNat + 1 < s.latch.len.toNat) :
    ∃ m src o, execRef ln disp s = .next { s with ip := s.ip + 2, outMem := m, csrc := src, olen := o, crem := 0 }
      ∧ State.StreamAt { s with ip := s.ip + 2, outMem := m, csrc := src, olen := o, crem := 0 }
          (lzCopy s.ulen.toNat (3 + ln.toNat) (out.length - disp.toNat - 1) out) := by
  have hlt : out.length - disp.toNat - 1 < s.olen.toNat := by rw [h.olen]; omega
  have hcsrc := csrc_of_lt hlt
  obtain ⟨m, src, o, rem, hloop, hm, ho⟩ := copyLoop_lzCopy (s := { s with
    ip := s.ip + 2, csrc := BitVec.ofNat 32 (out.length - disp.toNat - 1), crem := BitVec.ofNat 5 (copyLen ln) })
    (crem_copyLen ln) h.spells h.olen h.fits h.size (by rw [hcsrc]; omega)
  simp only [hcsrc] at hm ho
  refine ⟨m, src, o, ?_, { h with
    spells := hm
    olen := ho
    fits := (lzCopy_length _ _ h.fits).2
    ip := show (s.ip + 2).toNat ≤ s.latch.len.toNat by bv_omega }⟩
  rw [execRef_of_lt (by rwa [h.olen]), h.olen, copyBytes, hloop]
  rfl

end Elements

/-- A back-reference before the start of the output (R246). -/
theorem execRef_bad {ln : BitVec 4} {disp : BitVec 12} {s : State} (h : s.olen.toNat ≤ disp.toNat) :
    execRef ln disp s = .next (raiseError .badBackref s.ip.toNat s) :=
  if_pos (by unfold sourcePtr; omega)

/-- The fields of a `REF` are the quotient and the remainder of its word (R95). -/
theorem decodeRef_word (r0 r1 : Byte) : ∃ ln disp, decodeRef r0 r1 = .ref ln disp
    ∧ ln.toNat = refWord r0 r1 / 4096 ∧ disp.toNat = refWord r0 r1 % 4096 := by
  have hword : (r0 ++ r1).toNat = refWord r0 r1 := by
    rw [BitVec.toNat_append, ← Nat.shiftLeft_add_eq_or_of_lt r1.isLt, Nat.shiftLeft_eq, refWord, Nat.mul_comm]
  have hlt : refWord r0 r1 / 4096 < 16 := by unfold refWord; omega
  refine ⟨_, _, rfl, ?_, ?_⟩
  · rw [BitVec.extractLsb'_toNat, hword, Nat.shiftRight_eq_div_pow]
    exact Nat.mod_eq_of_lt hlt
  · rw [BitVec.extractLsb'_toNat, hword]
    rfl

/-! ### The steps of the stream -/

section Steps
variable {s : State} {out : List Byte} (h : s.StreamAt out)
include h

/-- A complete output ends the command with it (R140). -/
theorem complete_ends (fuel : Nat) (hc : out.length = s.ulen.toNat) : Ends s (streamResult fuel s out) := by
  have hended : (finishDone s.ulen.toNat s.ip.toNat s).EndedWith (.ok (out, s.ip.toNat)) := by
    refine ⟨rfl, rfl, rfl, by rw [hc, finishDone_outLen], rfl, fun a => ?_⟩
    rw [finishDone_outMem, Memory.read_below, h.spells a]
    split
    · rfl
    · rw [List.getElem?_eq_none (by omega)]
  rw [streamResult, lzLoop_complete _ _ _ _ hc]
  exact .of_step (step_complete h.run h.host (h.olen.trans hc)) (.of_ended hended)

variable {fuel : Nat} (hc : out.length ≠ s.ulen.toNat) (hf : s.fcnt ≠ 0)
include hc hf

omit h in
/-- A token at which the step and the function fail alike. -/
theorem token_error_ends {e : ErrCode} {info : Nat} {u : State} (hstep : step s = .next (raiseError e info u))
    (ht : lzToken (window s) s.ulen.toNat s.ip.toNat (s.flg.getLsbD 7) out = .error (.err e info)) :
    Ends s (streamResult (fuel + 1) s out) := by
  rw [streamResult, lzLoop_token_error hc fuel (by bv_omega) ht]
  exact .of_error hstep

variable (hfuel : s.ulen.toNat < out.length + (fuel + 1))
  (ih : ∀ {t : State} {out' : List Byte}, t.StreamAt out' → t.ulen.toNat < out'.length + fuel →
    Ends t (streamResult fuel t out'))
include hfuel ih

/-- A token at which the step and the function go on alike. -/
theorem token_next_ends {t : State} {out' : List Byte} (hstep : step s = .next t) (hat : t.StreamAt out')
    (hside : (window t, t.ulen, t.flg, t.fcnt) = (window s, s.ulen, s.flg <<< 1, s.fcnt - 1))
    (ht : lzToken (window s) s.ulen.toNat s.ip.toNat (s.flg.getLsbD 7) out = .ok (t.ip.toNat, out')) :
    Ends s (streamResult (fuel + 1) s out) := by
  simp only [Prod.mk.injEq] at hside
  obtain ⟨hwindow, hulen, hflg, hfcnt⟩ := hside
  have hcount : t.fcnt.toNat = s.fcnt.toNat - 1 := by bv_omega
  obtain ⟨-, hmore, -⟩ := lzToken_ok (lt_of_le_of_ne h.fits hc) ht
  have hrest := ih hat (by rw [hulen]; omega)
  rw [streamResult, hwindow, hulen, hflg, hcount] at hrest
  rw [streamResult, lzLoop_token hc fuel (by bv_omega) ht]
  exact .of_step hstep hrest

theorem lit_ends (hbit : s.flg.getLsbD 7 = false) (hip : s.ip.toNat < s.latch.len.toNat) :
    Ends s (streamResult (fuel + 1) s out) := by
  have hip' : (s.ip + 1).toNat = s.ip.toNat + 1 := by bv_omega
  have ht := lzToken_lit s.ulen.toNat out (window_getElem?_of_lt hip)
  have hstep := step_lit h.run h.host (h.olen ▸ hc) hf hbit hip
  obtain ⟨m, o, hexec, hat⟩ := execLit_streamAt h.selectToken (inByte s (s.latch.off.toNat + s.ip.toNat))
    (lt_of_le_of_ne h.fits hc) hip
  rw [← hbit, ← hip'] at ht
  exact token_next_ends h hc hf hfuel ih (hstep.trans hexec) hat rfl ht

theorem ref_ends (hbit : s.flg.getLsbD 7 = true) (hip : s.ip.toNat + 1 < s.latch.len.toNat) :
    Ends s (streamResult (fuel + 1) s out) := by
  have hip' : (s.ip + 2).toNat = s.ip.toNat + 2 := by bv_omega
  have h0 := window_getElem?_of_lt (Nat.lt_of_succ_lt hip)
  have h1 := window_getElem?_of_lt hip
  have hstep := step_ref h.run h.host (h.olen ▸ hc) hf hbit hip
  obtain ⟨ln, disp, hdecode, hln, hdisp⟩ := decodeRef_word (inByte s (s.latch.off.toNat + s.ip.toNat))
    (inByte s (s.latch.off.toNat + (s.ip.toNat + 1)))
  rw [hdecode] at hstep
  by_cases hd : disp.toNat < out.length
  · obtain ⟨m, src, o, hexec, hat⟩ := execRef_streamAt h.selectToken ln disp hd hip
    have ht := lzToken_ref s.ulen.toNat h0 h1 (hdisp ▸ hd)
    rw [← hbit, ← hdisp, ← hln, ← hip'] at ht
    exact token_next_ends h hc hf hfuel ih (hstep.trans hexec) hat rfl ht
  · have hbad : (selectToken s).olen.toNat ≤ disp.toNat := by rw [selectToken_olen, h.olen]; omega
    exact token_error_ends hc hf (hstep.trans (execRef_bad hbad)) (hbit ▸ lzToken_ref_bad _ h0 h1 (by omega))

/-- A step that runs a token is one turn of the function's loop. -/
theorem token_ends : Ends s (streamResult (fuel + 1) s out) := by
  have ho : s.olen.toNat ≠ s.ulen.toNat := by rwa [h.olen]
  by_cases hip : s.ip.toNat < s.latch.len.toNat
  · cases hbit : s.flg.getLsbD 7 with
    | false => exact lit_ends h hc hf hfuel ih hbit hip
    | true =>
      by_cases hip1 : s.ip.toNat + 1 < s.latch.len.toNat
      · exact ref_ends h hc hf hfuel ih hbit hip1
      · exact token_error_ends hc hf (step_ref_missing h.run h.host ho hf hbit (by omega))
          (hbit ▸ lzToken_ref_missing _ (window_getElem?_of_lt hip) out (window_getElem?_of_ge (by omega)))
  · exact token_error_ends hc hf (step_token_missing h.run h.host ho hf (by omega))
      (lzToken_missing _ _ _ (window_getElem?_of_ge (by omega)))

end Steps

/-- From any place in the stream the steps reach what the function's loop gives. -/
theorem stream_ends {fuel : Nat} {s : State} {out : List Byte} (h : s.StreamAt out)
    (hfuel : s.ulen.toNat < out.length + fuel) : Ends s (streamResult fuel s out) := by
  induction fuel generalizing s out with
  | zero => have := h.fits; omega
  | succ fuel ih =>
    by_cases hc : out.length = s.ulen.toNat
    · exact complete_ends h _ hc
    by_cases hf : s.fcnt = 0
    case neg => exact token_ends h hc hf hfuel ih
    have ho : s.olen.toNat ≠ s.ulen.toNat := by rwa [h.olen]
    have hf' : s.fcnt.toNat = 0 := by rw [hf]; rfl
    rw [streamResult, hf']
    by_cases hip : s.ip.toNat < s.latch.len.toNat
    · have hip' : (s.ip + 1).toNat = s.ip.toNat + 1 := by bv_omega
      rw [lzLoop_flag hc fuel s.flg (window_getElem?_of_lt hip), ← hip']
      exact .of_step (step_flag h.run h.host ho hf hip) (token_ends (h.flag _ hip) hc
        (show (8 : BitVec 4) ≠ 0 by decide) hfuel ih)
    · rw [lzLoop_flag_missing hc fuel s.flg (window_getElem?_of_ge (by omega))]
      exact .of_error (step_flag_missing h.run h.host ho hf (by omega))

/-! ### The header -/

theorem methodOf_eq_one_iff (h0 : Byte) : methodOf h0 = 1 ↔ h0.toNat / 16 = 1 := by
  rw [methodOf, ← BitVec.toNat_inj, BitVec.extractLsb'_toNat, Nat.shiftRight_eq_div_pow, Nat.mod_eq_of_lt (by omega)]
  rfl

theorem ulenOf_toNat (h1 h2 h3 : Byte) : (ulenOf h1 h2 h3).toNat = h1.toNat + 256 * h2.toNat + 65536 * h3.toNat := by
  rw [ulenOf, BitVec.toNat_append, BitVec.toNat_append, ← Nat.shiftLeft_add_eq_or_of_lt h2.isLt,
    ← Nat.shiftLeft_add_eq_or_of_lt h1.isLt, Nat.shiftLeft_eq, Nat.shiftLeft_eq]
  omega

/-- The byte of the header at a place in it. -/
def headerByte (s : State) (k : Nat) : Byte := inByte s (s.latch.off.toNat + k)

theorem window_getD_header {s : State} {k : Nat} (hk : k < s.latch.len.toNat) :
    (window s).getD k 0 = headerByte s k := by
  rw [List.getD_eq_getElem?_getD, window_getElem?_of_lt hk]
  rfl

/-- The length field of the header that the block reads. -/
def headerLength (s : State) : BitVec 24 := ulenOf (headerByte s 1) (headerByte s 2) (headerByte s 3)

section Header
variable {s : State} (hlen : 4 ≤ s.latch.len.toNat)
include hlen

theorem lengthField_window : lengthField (window s) = (headerLength s).toNat := by
  rw [lengthField, headerLength, ulenOf_toNat, window_getD_header (by omega), window_getD_header (by omega),
    window_getD_header (by omega)]

theorem fetchBytes_header :
    fetchBytes 4 0 s = .ok [headerByte s 0, headerByte s 1, headerByte s 2, headerByte s 3] :=
  fetchBytes_ok 4 (.inr (by omega))

variable (hhost : s.host = []) (hout : s.outMem = [])
include hhost hout

/-- A step that runs an LZ77 header leads to what the function gives of the stream (R132, R144). -/
theorem lzHeader_ends {sub : BitVec 4} (hstep : step s = exec (.hdrLz sub (headerLength s)) s) :
    Ends s (lzStream (window s) s.cfg.outSize) := by
  rw [lzStream, lengthField_window hlen]
  split
  · next hsize => exact .of_error (hstep.trans (if_pos hsize))
  · next hsize =>
    have hat : (initStream (headerLength s) s).StreamAt [] :=
      { host := hhost
        run := rfl
        spells := by rw [initStream_outMem, hout]; exact Memory.spells_nil
        olen := rfl
        fits := Nat.zero_le _
        size := Nat.le_of_not_lt hsize
        ip := hlen }
    exact .of_step (hstep.trans (if_neg hsize)) (stream_ends hat (by rw [initStream_ulen]; simp))

end Header

theorem nextElement_header {s : State} (hrun : s.run = .busy .header) :
    nextElement s = some (headerCtx s.latch.opc, 0, s) := by
  simp only [nextElement, hrun]

/-- From the header on, `LZ_DECOMP` ends with what its function gives of the window. -/
theorem lzDecomp_header_ends {s : State} (hhost : s.host = []) (hrun : s.run = .busy .header)
    (hopc : s.latch.opc = Instr.lzDecomp.opc) (hout : s.outMem = []) :
    Ends s (lzDecompress (window s) s.cfg.outSize) := by
  have hnext := nextElement_header hrun
  rw [headerCtx, if_pos hopc] at hnext
  rw [lzDecompress, window_length]
  by_cases hlen : s.latch.len.toNat < 4
  · rw [if_pos hlen]
    exact .of_error (step_fetch_error hhost hnext (fetchBytes_missing 4 (by omega) (Nat.zero_le _)))
  have hfetch := fetchBytes_header (s := s) (by omega)
  rw [if_neg hlen, window_getD_header (by omega)]
  by_cases hmethod : (headerByte s 0).toNat / 16 = 1
  · have hdecode : decode s.cfg.pal .headerDirect [headerByte s 0, headerByte s 1, headerByte s 2, headerByte s 3]
        = .ok (.hdrLz (subOf (headerByte s 0)) (headerLength s), []) := by
      rw [decode, decodeHeaderDirect, if_pos ((methodOf_eq_one_iff _).2 hmethod)]
      rfl
    rw [if_neg (not_not_intro hmethod)]
    exact lzHeader_ends (by omega) hhost hout (stepRunsTheDecodedElement _ _ _ _ _ _ _ hhost hnext hfetch hdecode)
  · have hdecode : decode s.cfg.pal .headerDirect [headerByte s 0, headerByte s 1, headerByte s 2, headerByte s 3]
        = .error (.unsupportedMethod (headerByte s 0)) := by
      rw [decode, decodeHeaderDirect, if_neg (mt (methodOf_eq_one_iff _).1 hmethod)]
      rfl
    rw [if_pos hmethod]
    exact .of_error (step_reject hhost hnext hfetch hdecode)

/-- A valid `START` of a command that does nothing before its header (R130, R220). -/
theorem launch_header {opc : BitVec 3} {s : State} (hb : s.busy = false)
    (hin : s.srcOff.toNat + s.srcLen.toNat ≤ s.cfg.inSize) :
    launch opc .header false headerPrologue s = .next (beginCommand opc .header s) :=
  launch_valid hb ((validate_ok_iff _ _).2 ⟨nofun, hin⟩)

/-- The window of a command that has just begun is the input of its function. -/
theorem window_beginCommand (opc : BitVec 3) (p : Phase) (s : State) : window (beginCommand opc p s) = inputOf s := rfl

/-- Settles O44: the `START`, then the header, then the stream. -/
theorem lzDecompStepsReachItsFunction : Obligations.LzDecompStepsReachItsFunction := by
  intro s _ hhost hstart
  refine runsTo_of_ends (launch_header hstart.notBusy hstart.inside) (beginCommand_same _ _ s) hhost ?_
  rw [← window_beginCommand Instr.lzDecomp.opc .header s]
  exact lzDecomp_header_ends (s := beginCommand Instr.lzDecomp.opc .header s) hhost rfl rfl rfl

end Sys2Proof.Machine
end

section
/-! PROOFS. The matchers: what one answers is a copy that R163 allows, and the reference takes the longest match and the
nearest among equals (R163, R165, R166). -/

namespace Sys2Proof.Machine

/-! ### Matches -/

theorem commonLen_le (limit : Nat) (xs ys : List Byte) : commonLen limit xs ys ≤ limit := by
  fun_induction commonLen <;> omega

/-- The bytes that a match counts agree. -/
theorem getElem?_eq_of_lt_commonLen {limit k : Nat} {xs ys : List Byte} (h : k < commonLen limit xs ys) :
    xs[k]? = ys[k]? := by
  fun_induction commonLen generalizing k with
  | case1 => omega
  | case2 => omega
  | case3 => omega
  | case4 limit x xs ys ih =>
    cases k with
    | zero => rfl
    | succ k => exact ih (by omega)
  | case5 => omega

/-- A match measured again up to its own length is as long. -/
theorem commonLen_commonLen (limit : Nat) (xs ys : List Byte) :
    commonLen (commonLen limit xs ys) xs ys = commonLen limit xs ys := by
  fun_induction commonLen with
  | case1 => rfl
  | case2 => rfl
  | case3 => rfl
  | case4 limit x xs ys ih => rw [Nat.add_comm 1, commonLen, if_pos rfl, ih, Nat.add_comm]
  | case5 => rfl

/-- R163: what the test of a copy says. -/
structure LegalCopy (bytes : List Byte) (i len disp : Nat) : Prop where
  low : 3 ≤ len
  high : len ≤ maxLen bytes i
  near : disp < min i 4096
  length : matchLen bytes i disp len = len

theorem legalMatch_iff {bytes : List Byte} {i len disp : Nat} :
    legalMatch bytes i len disp = true ↔ LegalCopy bytes i len disp := by
  simp only [legalMatch, Bool.and_eq_true, decide_eq_true_eq]
  exact ⟨fun ⟨⟨⟨low, high⟩, near⟩, length⟩ => ⟨low, high, near, length⟩,
    fun ⟨low, high, near, length⟩ => ⟨⟨⟨low, high⟩, near⟩, length⟩⟩

/-- The input repeats itself over the whole length of a legal copy. -/
theorem LegalCopy.repeats {bytes : List Byte} {i len disp : Nat} (h : LegalCopy bytes i len disp) {k : Nat}
    (hk : k < len) : bytes[i + k]? = bytes[i - disp - 1 + k]? := by
  have hagree := getElem?_eq_of_lt_commonLen (show k < matchLen bytes i disp len from h.length.symm ▸ hk)
  rwa [List.getElem?_drop, List.getElem?_drop] at hagree

/-- Whatever the strategy, the answer is a literal or a legal copy (R165). -/
theorem matcher_cases (m : MatcherChoice) (bytes : List Byte) (i : Nat) :
    matcher m bytes i = (0, 0) ∨ LegalCopy bytes i (matcher m bytes i).1 (matcher m bytes i).2 := by
  unfold matcher
  split
  · next h => exact .inr (legalMatch_iff.1 h)
  · exact .inl rfl

/-- Settles O50: the two answers of a matcher, the copy with its bytes written out. -/
theorem matcherAnswersOnlyLegalCopies : Obligations.MatcherAnswersOnlyLegalCopies := by
  intro m bytes i _
  exact (matcher_cases m bytes i).imp_right fun h => ⟨h.low, h.high, h.near, fun _ hk => h.repeats hk⟩

/-! ### The reference -/

/-- `best` is the longest match among the displacements below `n`, the nearest of equally long ones; it is none, of
length 0, where nothing matches. -/
structure BestBelow (bytes : List Byte) (i n : Nat) (best : Nat × Nat) : Prop where
  found : 0 < best.1 → best.2 < n ∧ matchLen bytes i best.2 (maxLen bytes i) = best.1
  longest : ∀ d, d < n → matchLen bytes i d (maxLen bytes i) ≤ best.1
  nearest : ∀ d, d < best.2 → matchLen bytes i d (maxLen bytes i) < best.1

/-- Looking at one more displacement. -/
theorem BestBelow.succ {bytes : List Byte} {i n : Nat} {best : Nat × Nat} (h : BestBelow bytes i n best) :
    BestBelow bytes i (n + 1) (betterMatch bytes i best n) := by
  unfold betterMatch
  split
  · next hlt =>
    refine ⟨fun _ => ⟨n.lt_succ_self, rfl⟩, fun d hd => ?_, fun d hd => (h.longest d hd).trans_lt hlt⟩
    obtain hd | rfl := Nat.lt_succ_iff_lt_or_eq.1 hd
    · exact (h.longest d hd).trans hlt.le
    · exact le_rfl
  · next hle =>
    refine ⟨fun hpos => (h.found hpos).imp_left Nat.lt_succ_of_lt, fun d hd => ?_, h.nearest⟩
    obtain hd | rfl := Nat.lt_succ_iff_lt_or_eq.1 hd
    · exact h.longest d hd
    · exact Nat.le_of_not_lt hle

theorem bestBelow_foldl (bytes : List Byte) (i n : Nat) :
    BestBelow bytes i n ((List.range n).foldl (betterMatch bytes i) (0, 0)) := by
  induction n with
  | zero => exact ⟨nofun, nofun, nofun⟩
  | succ n ih => rw [List.range_succ, List.foldl_append]; exact ih.succ

/-- The reference answers the best match, when that has three bytes at least (R166). -/
theorem matcherRef_cases (bytes : List Byte) (i : Nat) : ∃ best, BestBelow bytes i (min i 4096) best ∧
    (3 ≤ best.1 ∧ matcherRef bytes i = best ∨ best.1 < 3 ∧ matcherRef bytes i = (0, 0)) := by
  refine ⟨_, bestBelow_foldl bytes i _, ?_⟩
  unfold matcherRef
  dsimp only
  split
  · next h => exact .inl ⟨h, rfl⟩
  · next h => exact .inr ⟨Nat.lt_of_not_le h, rfl⟩

/-- The best match is a legal copy when it has three bytes at least. -/
theorem BestBelow.legal {bytes : List Byte} {i : Nat} {best : Nat × Nat} (h : BestBelow bytes i (min i 4096) best)
    (hlow : 3 ≤ best.1) : LegalCopy bytes i best.1 best.2 := by
  obtain ⟨hdisp, hlen⟩ := h.found (by omega)
  refine ⟨hlow, hlen ▸ commonLen_le _ _ _, hdisp, ?_⟩
  rw [← hlen]
  exact commonLen_commonLen _ _ _

/-- Holding the reference to R163 changes nothing. -/
theorem matcher_reference (bytes : List Byte) (i : Nat) : matcher .reference bytes i = matcherRef bytes i := by
  rw [matcher, rawMatch]
  split
  · rfl
  · next hillegal =>
    obtain ⟨best, hbest, ⟨hlow, heq⟩ | ⟨-, heq⟩⟩ := matcherRef_cases bytes i
    · rw [heq, legalMatch_iff] at hillegal
      exact absurd (hbest.legal hlow) hillegal
    · exact heq.symm

/-- Settles O51: the reference answers the best match, or none where that is too short. -/
theorem referenceMatcherTakesTheLongestNearest : Obligations.ReferenceMatcherTakesTheLongestNearest := by
  intro bytes i _
  refine ⟨matcher_reference bytes i, ?_⟩
  obtain ⟨best, hbest, ⟨hlow, heq⟩ | ⟨hshort, heq⟩⟩ := matcherRef_cases bytes i
  · rw [heq]
    obtain ⟨-, hlen⟩ := hbest.found (by omega)
    exact ⟨fun h0 => absurd hlow (by rw [h0]; decide),
      fun _ => ⟨hlen, fun d hd => ⟨hbest.longest d hd, hbest.nearest d⟩⟩⟩
  · rw [heq]
    exact ⟨fun _ d hd => (hbest.longest d hd).trans_lt hshort, fun hne => absurd rfl hne⟩

end Sys2Proof.Machine
end

section
/-! PROOFS. The tokens of the compressor and the bytes they are packed in: the tokens as a derivation along the input,
the groups without their fuel, and the size of the whole (R97, R164, R167, R168). -/

namespace Sys2Proof.Machine

/-! ### The tokens -/

/-- The tokens that the matcher gives from a position of the input to its end (R164): each advances by the bytes it
stands for. -/
inductive TokensFrom (m : MatcherChoice) (bytes : List Byte) : Nat → List Instr → Prop where
  | done : TokensFrom m bytes bytes.length []
  | lit {i : Nat} {ts : List Instr} (hi : i < bytes.length) (hm : (matcher m bytes i).1 < 3)
      (rest : TokensFrom m bytes (i + 1) ts) : TokensFrom m bytes i (.lit (bytes.getD i 0) :: ts)
  | ref {i : Nat} {ts : List Instr} (hi : i < bytes.length) (hm : 3 ≤ (matcher m bytes i).1)
      (rest : TokensFrom m bytes (i + (matcher m bytes i).1) ts) :
      TokensFrom m bytes i (refOf (matcher m bytes i).1 (matcher m bytes i).2 :: ts)

/-- A copy that the matcher answers is legal (R163, R165). -/
theorem matcher_legal {m : MatcherChoice} {bytes : List Byte} {i : Nat} (hm : 3 ≤ (matcher m bytes i).1) :
    LegalCopy bytes i (matcher m bytes i).1 (matcher m bytes i).2 := by
  obtain h0 | h := matcher_cases m bytes i
  · rw [h0] at hm
    exact absurd hm (by decide)
  · exact h

/-- Every token advances, so a token for each byte left is enough. -/
theorem compressTokens_tokensFrom (m : MatcherChoice) {bytes : List Byte} {fuel i : Nat} (hi : i ≤ bytes.length)
    (hfuel : bytes.length - i ≤ fuel) : TokensFrom m bytes i (compressTokens m bytes fuel i) := by
  induction fuel generalizing i with
  | zero =>
    obtain rfl : i = bytes.length := by omega
    exact .done
  | succ fuel ih =>
    rw [compressTokens]
    split
    · obtain rfl : i = bytes.length := by omega
      exact .done
    split
    · next hm =>
      have hle := matcher_le m bytes i
      exact .ref (by omega) hm (ih (by omega) (by omega))
    · exact .lit (by omega) (by omega) (ih (by omega) (by omega))

/-- A literal is one byte, a copy two (R164): a copy is what the flag bit marks. -/
theorem TokensFrom.encode_length {m : MatcherChoice} {bytes : List Byte} {i : Nat} {ts : List Instr}
    (h : TokensFrom m bytes i ts) : ∀ t ∈ ts, (encode bgr555 t).length = 1 + (isRef t).toNat := by
  induction h with
  | done => exact List.forall_mem_nil _
  | lit _ _ _ ih => exact List.forall_mem_cons.2 ⟨rfl, ih⟩
  | ref _ _ _ ih => exact List.forall_mem_cons.2 ⟨rfl, ih⟩

/-- No token is longer than the input bytes it stands for. -/
theorem TokensFrom.length_le {m : MatcherChoice} {bytes : List Byte} {i : Nat} {ts : List Instr}
    (h : TokensFrom m bytes i ts) : i + ts.length + ts.countP isRef ≤ bytes.length := by
  induction h with
  | done => exact le_rfl
  | lit hi _ _ ih =>
    rw [List.countP_cons_of_neg (by simp [isRef]), List.length_cons]
    omega
  | ref hi hm _ ih =>
    rw [List.countP_cons_of_pos rfl, List.length_cons]
    omega

/-- The tokens of a whole input. -/
def tokensOf (m : MatcherChoice) (bytes : List Byte) : List Instr := compressTokens m bytes bytes.length 0

theorem tokensOf_tokensFrom (m : MatcherChoice) (bytes : List Byte) : TokensFrom m bytes 0 (tokensOf m bytes) :=
  compressTokens_tokensFrom m (Nat.zero_le _) (Nat.sub_le _ _)

/-! ### The groups -/

theorem groupsBytes_nil (fuel : Nat) : groupsBytes fuel [] = [] := by cases fuel <;> rfl

theorem groupsBytes_cons (fuel : Nat) (t : Instr) (ts : List Instr) :
    groupsBytes (fuel + 1) (t :: ts) = groupBytes ((t :: ts).take 8) ++ groupsBytes fuel ((t :: ts).drop 8) := rfl

/-- Fuel for every token is enough: a group takes at least one. -/
theorem groupsBytes_congr {fuel fuel' : Nat} {ts : List Instr} (h : ts.length ≤ fuel) (h' : ts.length ≤ fuel') :
    groupsBytes fuel ts = groupsBytes fuel' ts := by
  induction fuel generalizing fuel' ts with
  | zero => rw [List.length_eq_zero_iff.1 (Nat.le_zero.1 h), groupsBytes_nil, groupsBytes_nil]
  | succ fuel ih =>
    match ts, fuel', h' with
    | [], _, _ => rw [groupsBytes_nil, groupsBytes_nil]
    | t :: ts, fuel' + 1, h' =>
      rw [List.length_cons] at h h'
      rw [groupsBytes_cons, groupsBytes_cons, ih (fuel' := fuel')] <;> rw [List.length_drop, List.length_cons] <;> omega

/-- The tokens in groups of eight, with the fuel that is just enough. -/
def groups (ts : List Instr) : List Byte := groupsBytes ts.length ts

@[simp] theorem groups_nil : groups [] = [] := rfl

theorem groups_cons (t : Instr) (ts : List Instr) :
    groups (t :: ts) = groupBytes ((t :: ts).take 8) ++ groups ((t :: ts).drop 8) := by
  rw [groups, List.length_cons, groupsBytes_cons, groups, groupsBytes_congr (by simp) le_rfl]

/-- The packed bytes are the header and the groups of the tokens (R161, R164). -/
theorem compressedBytes_eq (m : MatcherChoice) (bytes : List Byte) :
    compressedBytes m bytes =
      encode bgr555 (.hdrLz 0 (BitVec.ofNat 24 bytes.length)) ++ groups (tokensOf m bytes) := by
  have hlen := (tokensOf_tokensFrom m bytes).length_le
  rw [compressedBytes, ← tokensOf, groupsBytes_congr (by omega) le_rfl, groups]

/-! ### The size -/

theorem flatMap_encode_length {ts : List Instr} (h : ∀ t ∈ ts, (encode bgr555 t).length = 1 + (isRef t).toNat) :
    (ts.flatMap (encode bgr555)).length = ts.length + ts.countP isRef := by
  induction ts with
  | nil => rfl
  | cons t ts ih =>
    obtain ⟨ht, hts⟩ := List.forall_mem_cons.1 h
    rw [List.flatMap_cons, List.length_append, ih hts, ht, List.length_cons, List.countP_cons]
    cases isRef t <;> simp <;> omega

/-- Every group of eight tokens, the last one also when it is not full, has a flag byte beside its tokens (R168). -/
theorem groupsBytes_length {fuel : Nat} {ts : List Instr} (hfuel : ts.length ≤ fuel)
    (h : ∀ t ∈ ts, (encode bgr555 t).length = 1 + (isRef t).toNat) :
    (groupsBytes fuel ts).length = (ts.length + 7) / 8 + ts.length + ts.countP isRef := by
  induction fuel generalizing ts with
  | zero => rw [List.length_eq_zero_iff.1 (Nat.le_zero.1 hfuel)]; rfl
  | succ fuel ih =>
    match ts with
    | [] => rfl
    | t :: ts =>
      have htake := flatMap_encode_length (ts := (t :: ts).take 8) fun u hu => h u (List.mem_of_mem_take hu)
      have hdrop := ih (ts := (t :: ts).drop 8) (by rw [List.length_drop]; omega)
        fun u hu => h u (List.mem_of_mem_drop hu)
      have hcount : ((t :: ts).take 8).countP isRef + ((t :: ts).drop 8).countP isRef = (t :: ts).countP isRef := by
        rw [← List.countP_append, List.take_append_drop]
      rw [List.length_drop] at hdrop
      rw [List.length_take] at htake
      rw [groupsBytes_cons, List.length_append, groupBytes, List.length_cons, htake, hdrop, List.length_cons]
      omega

/-- Settles O57: the header, a flag byte for each group, and the tokens, none longer than the input it stands for. -/
theorem compressedSizeIsBounded : Obligations.CompressedSizeIsBounded := by
  intro m bytes
  rw [← tokensOf]
  intro ts
  have h := tokensOf_tokensFrom m bytes
  have hle : 0 + ts.length + ts.countP isRef ≤ bytes.length := h.length_le
  have hgroups : (groups ts).length = (ts.length + 7) / 8 + ts.length + ts.countP isRef :=
    groupsBytes_length le_rfl h.encode_length
  have hsize : (compressedBytes m bytes).length = 4 + (groups ts).length := by
    rw [compressedBytes_eq, List.length_append, Laws.EncodedLength.hdrLz]
    rfl
  exact ⟨by omega, by omega⟩

end Sys2Proof.Machine
end

section
/-! PROOFS. Decompressing the compressor's output: each turn of the token loop takes back one token, the input so far
being its output (R162, R171). -/

namespace Sys2Proof.Machine

/-! ### The header -/

/-- The header's four bytes (R91, R161). -/
theorem encode_hdrLz (l : PalLayout) (n : Nat) : encode l (.hdrLz 0 (BitVec.ofNat 24 n)) =
    [0x10, BitVec.ofNat 8 n, BitVec.ofNat 8 (n / 256), BitVec.ofNat 8 (n / 65536)] := by
  have htype : ((1 : BitVec 4) ++ (0 : BitVec 4) : Byte) = 0x10 := by decide
  have hword : (BitVec.ofNat 24 n ++ (0x10 : Byte) : BitVec 32).toNat = 256 * (n % 2 ^ 24) + 16 := by
    rw [BitVec.toNat_append, ← Nat.shiftLeft_add_eq_or_of_lt (by decide), Nat.shiftLeft_eq, BitVec.toNat_ofNat,
      Nat.mul_comm]
    rfl
  rw [encode, htype, leBytes4]
  simp only [List.cons.injEq, ← BitVec.toNat_inj, BitVec.extractLsb'_toNat, hword, Nat.shiftRight_eq_div_pow,
    BitVec.toNat_ofNat, BitVec.reduceToNat]
  refine ⟨by omega, by omega, by omega, by omega, trivial⟩

theorem lengthField_header {n : Nat} (hn : n < 2 ^ 24) (tail : List Byte) :
    lengthField ([0x10, BitVec.ofNat 8 n, BitVec.ofNat 8 (n / 256), BitVec.ofNat 8 (n / 65536)] ++ tail) = n := by
  simp only [lengthField, List.cons_append, List.getD_cons_succ, List.getD_cons_zero, BitVec.toNat_ofNat]
  omega

/-! ### The flag bits -/

/-- Bit `7 − j` of a flag byte whose first token has place `k` (R93, R167). -/
theorem flagByteOf_getLsbD {k j : Nat} (ts : List Instr) (hj : j < 8) :
    (flagByteOf isRef k ts).getLsbD (7 - j) = (decide (k ≤ j) && (ts[j - k]?).any isRef) := by
  induction ts generalizing k with
  | nil => simp [flagByteOf]
  | cons t ts ih =>
    have hbit : ((0x80 : Byte) >>> k).getLsbD (7 - j) = decide (k = j) := by
      rw [BitVec.getLsbD_ushiftRight, show (0x80 : Byte) = BitVec.twoPow 8 7 from rfl, BitVec.getLsbD_twoPow]
      simp only [show 7 < 8 by decide, decide_true, Bool.true_and, decide_eq_decide]
      omega
    have hhead : (if isRef t then (0x80 : Byte) >>> k else 0).getLsbD (7 - j) = (decide (k = j) && isRef t) := by
      cases isRef t
      · simp
      · rw [if_pos rfl, hbit, Bool.and_true]
    rw [flagByteOf, BitVec.getLsbD_or, hhead, ih]
    obtain hlt | rfl | hgt := Nat.lt_trichotomy k j
    · rw [show j - k = j - (k + 1) + 1 by omega, List.getElem?_cons_succ]
      simp [hlt, hlt.le, hlt.ne]
    · simp
    · simp [hgt.not_ge, hgt.ne', show ¬k + 1 ≤ j by omega]

/-! ### The tokens ahead in the stream -/

/-- What the token loop has before it: the rest of a group with its flag bits at the top of `flg`, then whole groups,
and no byte after them. -/
structure TokensAhead (w : List Byte) (ip : Nat) (flg : Byte) (fcnt : Nat) (ts : List Instr) : Prop where
  count : fcnt ≤ 8
  marks : ∀ j t, j < fcnt → ts[j]? = some t → flg.getLsbD (7 - j) = isRef t
  bytes : w.drop ip = (ts.take fcnt).flatMap (encode bgr555) ++ groups (ts.drop fcnt)
  inside : ip ≤ w.length

/-- Going over some bytes of a window. -/
theorem drop_add_of_drop {w xs ys : List Byte} {ip : Nat} (h : w.drop ip = xs ++ ys) (hip : ip ≤ w.length) :
    w.drop (ip + xs.length) = ys ∧ ip + xs.length ≤ w.length := by
  have hlen := congrArg List.length h
  rw [List.length_drop, List.length_append] at hlen
  rw [← List.drop_drop, h, List.drop_left]
  exact ⟨rfl, by omega⟩

/-- A byte that the rest of a window begins with. -/
theorem getElem?_of_drop {w tail : List Byte} {ip : Nat} {b : Byte} (h : w.drop ip = b :: tail) : w[ip]? = some b := by
  rw [← List.head?_drop, h, List.head?_cons]

namespace TokensAhead
variable {w : List Byte} {ip : Nat} {flg : Byte} {fcnt : Nat} {t : Instr} {ts : List Instr}

/-- Where no token is left the window ends. -/
theorem at_end (h : TokensAhead w ip flg fcnt []) : ip = w.length := by
  have hbytes := h.bytes
  rw [List.take_nil, List.drop_nil, List.flatMap_nil, groups_nil, List.append_nil, List.drop_eq_nil_iff] at hbytes
  exact h.inside.antisymm hbytes

/-- Loading the flag byte of the next group. -/
theorem flag (h : TokensAhead w ip flg 0 (t :: ts)) :
    ∃ f, w[ip]? = some f ∧ TokensAhead w (ip + 1) f 8 (t :: ts) := by
  have hbytes := h.bytes
  rw [List.take_zero, List.flatMap_nil, List.nil_append, List.drop_zero, groups_cons, groupBytes, List.cons_append]
    at hbytes
  obtain ⟨hdrop, hinside⟩ := drop_add_of_drop (xs := [_]) hbytes h.inside
  refine ⟨_, getElem?_of_drop hbytes, le_rfl, fun j u hj hu => ?_, hdrop, hinside⟩
  rw [flagByteOf_getLsbD _ hj, Nat.sub_zero, List.getElem?_take_of_lt hj, hu]
  simp

/-- The next token of a group: its flag bit, its bytes, and what is ahead of the loop after it. -/
theorem token (h : TokensAhead w ip flg fcnt (t :: ts)) (hf : fcnt ≠ 0) : flg.getLsbD 7 = isRef t
    ∧ encode bgr555 t <+: w.drop ip
    ∧ TokensAhead w (ip + (encode bgr555 t).length) (flg <<< 1) (fcnt - 1) ts := by
  obtain ⟨k, rfl⟩ := Nat.exists_eq_succ_of_ne_zero hf
  have hcount := h.count
  have hbytes := h.bytes
  rw [List.take_succ_cons, List.flatMap_cons, List.drop_succ_cons, List.append_assoc] at hbytes
  obtain ⟨hdrop, hinside⟩ := drop_add_of_drop hbytes h.inside
  refine ⟨h.marks 0 t k.succ_pos rfl, ⟨_, hbytes.symm⟩, by omega, fun j u hj hu => ?_, hdrop, hinside⟩
  rw [← h.marks (j + 1) u (by omega) hu, BitVec.getLsbD_shiftLeft]
  simp [show 7 - j < 8 by omega, show ¬7 - j < 1 by omega, Nat.sub_sub]

end TokensAhead

/-! ### The tokens -/

theorem take_concat_getD {bytes : List Byte} {i : Nat} (hi : i < bytes.length) :
    bytes.take i ++ [bytes.getD i 0] = bytes.take (i + 1) := by
  rw [List.getD_eq_getElem _ _ hi, List.take_concat_get' bytes i hi]

/-- The copy of the decompressor takes back what the input repeats, an overlapping copy too (R137, R163). -/
theorem lzCopy_repeats {bytes : List Byte} {left src i : Nat} (hsrc : src < i) (hi : i + left ≤ bytes.length)
    (hrep : ∀ k, k < left → bytes[i + k]? = bytes[src + k]?) :
    lzCopy bytes.length left src (bytes.take i) = bytes.take (i + left) := by
  induction left generalizing i src with
  | zero => rfl
  | succ left ih =>
    have hlen : (bytes.take i).length ≠ bytes.length := by rw [List.length_take]; omega
    have hbyte : (bytes.take i).getD src 0 = bytes.getD i 0 := by
      have h0 : bytes[i]? = bytes[src]? := hrep 0 left.succ_pos
      rw [List.getD_eq_getElem?_getD, List.getElem?_take_of_lt hsrc, ← h0, List.getD_eq_getElem?_getD]
    have hnext (k : Nat) (hk : k < left) : bytes[i + 1 + k]? = bytes[src + 1 + k]? := by
      rw [Nat.add_right_comm, Nat.add_right_comm src]
      exact hrep (k + 1) (by omega)
    rw [lzCopy_next _ _ hlen, hbyte, take_concat_getD (by omega), ih (by omega) (by omega) hnext, Nat.add_right_comm,
      Nat.add_assoc]

/-- The two bytes of a legal copy's element (R95, R109). -/
theorem encode_refOf {bytes : List Byte} {i len disp : Nat} (h : LegalCopy bytes i len disp) :
    ∃ r0 r1, encode bgr555 (refOf len disp) = [r0, r1]
      ∧ 3 + refWord r0 r1 / 4096 = len ∧ refWord r0 r1 % 4096 = disp := by
  obtain ⟨hlow, hhigh, hnear, -⟩ := h
  rw [maxLen] at hhigh
  have hword : (BitVec.ofNat 4 (len - 3) ++ BitVec.ofNat 12 disp : BitVec 16).toNat = 4096 * (len - 3) + disp := by
    rw [BitVec.toNat_append, BitVec.toNat_ofNat, BitVec.toNat_ofNat, Nat.mod_eq_of_lt (by omega),
      Nat.mod_eq_of_lt (by omega), ← Nat.shiftLeft_add_eq_or_of_lt (by omega), Nat.shiftLeft_eq, Nat.mul_comm]
  refine ⟨_, _, rfl, ?_⟩
  simp only [refWord, BitVec.extractLsb'_toNat, hword, Nat.shiftRight_eq_div_pow]
  omega

/-- A literal token is taken back as its input byte (R136, R164). -/
theorem lzToken_of_lit {w bytes : List Byte} {i ip : Nat} (hi : i < bytes.length)
    (hw : encode bgr555 (.lit (bytes.getD i 0)) <+: w.drop ip) :
    lzToken w bytes.length ip false (bytes.take i) = .ok (ip + 1, bytes.take (i + 1)) := by
  obtain ⟨tail, htail⟩ := hw
  rw [lzToken_lit _ _ (getElem?_of_drop htail.symm), take_concat_getD hi]

/-- A copy token is taken back as the input bytes it stands for (R137, R163). -/
theorem lzToken_of_ref {w bytes : List Byte} {i ip len disp : Nat} (h : LegalCopy bytes i len disp)
    (hw : encode bgr555 (refOf len disp) <+: w.drop ip) :
    lzToken w bytes.length ip true (bytes.take i) = .ok (ip + 2, bytes.take (i + len)) := by
  obtain ⟨r0, r1, henc, hlen, hdisp⟩ := encode_refOf h
  have hlow := h.low
  have hhigh := h.high
  have hnear := h.near
  rw [maxLen] at hhigh
  rw [henc] at hw
  obtain ⟨tail, htail⟩ := hw
  have h1 : w[ip + 1]? = some r1 := by rw [← List.getElem?_drop, ← htail]; rfl
  have hlength : (bytes.take i).length = i := by rw [List.length_take]; omega
  rw [lzToken_ref _ (getElem?_of_drop htail.symm) h1 (by omega), hlen, hdisp, hlength,
    lzCopy_repeats (by omega) (by omega) fun k => h.repeats]

/-! ### The loop -/

/-- A turn of the loop is one token, after a flag byte when the last group is used up. -/
theorem lzLoop_head {w out out' : List Byte} {ulen fuel ip fcnt : Nat} {flg : Byte} {t : Instr} {ts : List Instr}
    {r : CommandResult} (hw : TokensAhead w ip flg fcnt (t :: ts)) (ho : out.length ≠ ulen)
    (ht : ∀ ip, encode bgr555 t <+: w.drop ip →
      lzToken w ulen ip (isRef t) out = .ok (ip + (encode bgr555 t).length, out'))
    (hnext : ∀ ip flg fcnt, TokensAhead w ip flg fcnt ts → lzLoop w ulen fuel ip flg fcnt out' = r) :
    lzLoop w ulen (fuel + 1) ip flg fcnt out = r := by
  have hgroup {ip flg fcnt} (hw : TokensAhead w ip flg fcnt (t :: ts)) (hf : fcnt ≠ 0) :
      lzLoop w ulen (fuel + 1) ip flg fcnt out = r := by
    obtain ⟨hbit, hbytes, hrest⟩ := hw.token hf
    rw [lzLoop_token ho fuel hf (hbit ▸ ht ip hbytes)]
    exact hnext _ _ _ hrest
  by_cases hf : fcnt = 0
  · subst hf
    obtain ⟨f, hbyte, hw'⟩ := hw.flag
    rw [lzLoop_flag ho fuel flg hbyte]
    exact hgroup hw' (by decide)
  · exact hgroup hw hf

/-- From the tokens of the rest of the input the loop gives the whole of it, and uses the whole window (R162). -/
theorem lzLoop_tokens {m : MatcherChoice} {bytes w : List Byte} {i fuel ip fcnt : Nat} {flg : Byte} {ts : List Instr}
    (h : TokensFrom m bytes i ts) (hw : TokensAhead w ip flg fcnt ts) (hfuel : bytes.length < i + fuel) :
    lzLoop w bytes.length fuel ip flg fcnt (bytes.take i) = .ok (bytes, w.length) := by
  induction h generalizing fuel ip flg fcnt with
  | done => rw [List.take_length, lzLoop_complete _ _ _ _ rfl, hw.at_end]
  | lit hi hm rest ih =>
    obtain ⟨fuel, rfl⟩ := Nat.exists_eq_succ_of_ne_zero (show fuel ≠ 0 by omega)
    exact lzLoop_head hw (by rw [List.length_take]; omega) (fun ip hbytes => lzToken_of_lit hi hbytes)
      fun _ _ _ hrest => ih hrest (by omega)
  | ref hi hm rest ih =>
    obtain ⟨fuel, rfl⟩ := Nat.exists_eq_succ_of_ne_zero (show fuel ≠ 0 by omega)
    exact lzLoop_head hw (by rw [List.length_take]; omega) (fun ip hbytes => lzToken_of_ref (matcher_legal hm) hbytes)
      fun _ _ _ hrest => ih hrest (by omega)

/-! ### The commands -/

/-- What both commands find in the compressor's output: a header with `METHOD` = 1 and the input's length, then the
stream of its tokens. -/
theorem lzStream_compressedBytes (m : MatcherChoice) {bytes : List Byte} {outSize : Nat} (hlen : bytes.length < 2 ^ 24)
    (hfit : bytes.length ≤ outSize) : 4 ≤ (compressedBytes m bytes).length
      ∧ (compressedBytes m bytes).getD 0 0 = 0x10
      ∧ lzStream (compressedBytes m bytes) outSize = .ok (bytes, (compressedBytes m bytes).length) := by
  rw [compressedBytes_eq, encode_hdrLz]
  refine ⟨by simp, rfl, ?_⟩
  rw [lzStream, lengthField_header hlen, if_neg (by omega)]
  have hahead : TokensAhead ([0x10, BitVec.ofNat 8 bytes.length, BitVec.ofNat 8 (bytes.length / 256),
      BitVec.ofNat 8 (bytes.length / 65536)] ++ groups (tokensOf m bytes)) 4 0 0 (tokensOf m bytes) :=
    ⟨by decide, nofun, rfl, by simp⟩
  exact lzLoop_tokens (tokensOf_tokensFrom m bytes) hahead (by omega)

/-- Settles O52: the direct command takes the header, then the stream. -/
theorem decompressionInvertsCompression : Obligations.DecompressionInvertsCompression := by
  intro m bytes outSize hlen hfit
  obtain ⟨h4, h0, hstream⟩ := lzStream_compressedBytes m hlen hfit
  rw [lzDecompress, if_neg (by omega), h0, if_neg (by decide), hstream]

/-- Settles O53: the wrapper takes the LZ77 path, and that is the same stream. -/
theorem wrapperReadsCompressedOutput : Obligations.WrapperReadsCompressedOutput := by
  intro m bytes outSize hlen hfit
  obtain ⟨h4, h0, hstream⟩ := lzStream_compressedBytes m hlen hfit
  rw [readCompressed_lz h0 h4, hstream]

end Sys2Proof.Machine
end

section
/-! PROOFS. `LZ_COMP` run step by step reaches what its function says: its `START` with the header, then group by group,
the bytes so far in OUT and the tokens still to come together giving the packed bytes (R160 to R169). -/

namespace Sys2Proof.Machine

/-! ### Emitting to an output -/

/-- `Emit` of a list that fits OUT, whatever the size of OUT. -/
theorem emitAll_fits (vs : List Byte) {s : State} (h : s.eo.toNat + vs.length ≤ s.cfg.outSize)
    (hlt : s.eo.toNat + vs.length < 2 ^ 32) :
    ∃ e, emitAll vs s = .ok { s with outMem := s.outMem.writeAll s.eo.toNat vs, eo := e }
      ∧ e.toNat = s.eo.toNat + vs.length := by
  induction vs generalizing s with
  | nil => exact ⟨_, rfl, rfl⟩
  | cons v vs ih =>
    rw [List.length_cons] at h hlt ⊢
    have hnext : (s.eo + 1).toNat = s.eo.toNat + 1 := by bv_omega
    obtain ⟨e, he, hlen⟩ := ih (s := { s with outMem := s.outMem.write s.eo.toNat v, eo := s.eo + 1 })
      (by simp only [hnext]; omega) (by simp only [hnext]; omega)
    rw [emitAll, emit_ok (by omega)]
    simp only [hnext] at he hlen
    exact ⟨e, he, by omega⟩

/-- Storing the next bytes of an output. -/
theorem Memory.Spells.append {m : Memory} {out : List Byte} (h : m.Spells out) (vs : List Byte) :
    (m.writeAll out.length vs).Spells (out ++ vs) := by
  induction vs generalizing m out with
  | nil => rwa [List.append_nil]
  | cons v vs ih =>
    have hrest := ih (h.snoc v)
    rwa [List.length_append, List.append_assoc] at hrest

/-- Storing over a byte of an output. -/
theorem Memory.Spells.set {m : Memory} {out : List Byte} (h : m.Spells out) {a : Nat} (v : Byte) (ha : a < out.length) :
    (m.write a v).Spells (out.set a v) := fun b => by
  by_cases hb : b = a
  · subst hb
    rw [Memory.read_write_same, List.getElem?_set_self ha]
  · rw [Memory.read_write_other m v hb, h b, List.getElem?_set_ne (Ne.symm hb)]

/-- What stays as it is while the compressor runs: what it reads, and the bytes that it is to give. -/
structure PackJob where
  cfg : Config
  latch : Latch
  input : List Byte
  packed : List Byte

/-- The result of the compressor: its packed bytes, or that they do not fit OUT (R169). -/
def PackJob.result (J : PackJob) : CommandResult :=
  if J.cfg.outSize < J.packed.length then .error (.err .outputOverflow J.cfg.outSize)
  else .ok (J.packed, J.latch.len.toNat)

/-- The compressor is at its job, and the bytes it has emitted so far are `out` (R164). -/
structure State.Packing (s : State) (J : PackJob) (out : List Byte) : Prop where
  job : (s.cfg, s.latch, window s) = (J.cfg, J.latch, J.input)
  host : s.host = []
  spells : s.outMem.Spells out
  eo : s.eo.toNat = out.length
  fits : out.length ≤ s.cfg.outSize
  bound : s.cfg.outSize < 2 ^ 32

namespace State.Packing
variable {s : State} {J : PackJob} {out : List Byte} (h : s.Packing J out)
include h

theorem cfg : s.cfg = J.cfg := congrArg Prod.fst h.job
theorem latch : s.latch = J.latch := congrArg (fun x => x.2.1) h.job
theorem window : window s = J.input := congrArg (fun x => x.2.2) h.job

/-- A step that emits the next of the packed bytes and goes on leads to the result, or raises the overflow that the
result is. -/
theorem emit_ends {s₀ : State} {vs : List Byte} {g : State → State}
    (hstep : step s₀ = conclude s₀ ((emitAll vs s).map g)) (hlen : out.length + vs.length ≤ J.packed.length)
    (hnext : ∀ m e, State.Packing { s with outMem := m, eo := e } J (out ++ vs) →
      Ends (g { s with outMem := m, eo := e }) J.result) : Ends s₀ J.result := by
  have heo := h.eo
  have hbound := h.bound
  by_cases hfit : out.length + vs.length ≤ s.cfg.outSize
  · obtain ⟨e, hok, he⟩ := emitAll_fits vs (s := s) (by omega) (by omega)
    rw [hok, heo] at hstep
    exact .of_step hstep (hnext _ e { h with
      spells := h.spells.append vs
      eo := by rw [List.length_append, ← heo]; exact he
      fits := by rwa [List.length_append] })
  · rw [emitAll_full hbound (heo ▸ h.fits) (by omega), h.cfg] at hstep
    rw [PackJob.result, if_pos (by rw [h.cfg] at hfit; omega)]
    exact .of_error hstep

end State.Packing

/-! ### The rest of a group -/

/-- The bytes of a group from its flag byte on, and of the groups after it, when `k` tokens of it have been emitted as
`body` with the flag bits `facc`, and `ts` are still to come. -/
def finishGroup (facc : Byte) (k : Nat) (body : List Byte) (ts : List Instr) : List Byte :=
  (facc ||| flagByteOf isRef k (ts.take (8 - k))) :: (body ++ (ts.take (8 - k)).flatMap (encode bgr555))
    ++ groups (ts.drop (8 - k))

theorem groups_eq_finishGroup (t : Instr) (ts : List Instr) : groups (t :: ts) = finishGroup 0 0 [] (t :: ts) := by
  simp only [groups_cons, groupBytes, finishGroup, Nat.sub_zero, List.nil_append, BitVec.ofNat_eq_ofNat, BitVec.zero_or]

/-- A group without place or without tokens is finished. -/
theorem finishGroup_closed (facc : Byte) {k : Nat} (body : List Byte) {ts : List Instr} (h : k = 8 ∨ ts = []) :
    finishGroup facc k body ts = facc :: body ++ groups ts := by
  obtain rfl | rfl := h <;> simp [finishGroup, flagByteOf]

/-- The flag bits with that of a token in place `k` (R164). -/
def markToken (facc : Byte) (k : Nat) (t : Instr) : Byte := if isRef t then markRef facc k else facc

/-- One token further. -/
theorem finishGroup_token (facc : Byte) {k : Nat} (body : List Byte) (t : Instr) (ts : List Instr) (hk : k < 8) :
    finishGroup facc k body (t :: ts) = finishGroup (markToken facc k t) (k + 1) (body ++ encode bgr555 t) ts := by
  have hflags : facc ||| ((if isRef t then (0x80 : Byte) >>> k else 0)
      ||| flagByteOf isRef (k + 1) (ts.take (8 - (k + 1)))) =
      markToken facc k t ||| flagByteOf isRef (k + 1) (ts.take (8 - (k + 1))) := by
    rw [← BitVec.or_assoc, markToken, markRef]
    cases isRef t
    · simp
    · rfl
  rw [finishGroup, show 8 - k = 8 - (k + 1) + 1 by omega, List.take_succ_cons, List.drop_succ_cons, flagByteOf, hflags,
    List.flatMap_cons, ← List.append_assoc, finishGroup]

theorem length_lt_finishGroup (facc : Byte) (k : Nat) (body : List Byte) (ts : List Instr) :
    body.length < (finishGroup facc k body ts).length := by
  simp only [finishGroup, List.cons_append, List.length_cons, List.length_append]
  omega

/-! ### The places of the compressor -/

/-- Between two groups, with `out` emitted and the tokens `ts` from input position `i` on to come. -/
structure State.BetweenGroups (s : State) (J : PackJob) (i : Nat) (ts : List Instr) (out : List Byte) : Prop where
  packing : s.Packing J out
  run : s.run = .busy .groupOpen
  ci : s.ci.toNat = i
  completes : out ++ groups ts = J.packed

/-- In a group: the earlier ones emitted as `out`, then its flag byte, still 0, and its tokens so far as `body`. -/
structure State.InGroup (s : State) (J : PackJob) (i : Nat) (ts : List Instr) (out body : List Byte) : Prop where
  packing : s.Packing J (out ++ 0 :: body)
  run : s.run = .busy .groupTokens
  ci : s.ci.toNat = i
  fpos : s.fpos.toNat = out.length
  fk : s.fk.toNat ≤ 8
  completes : out ++ finishGroup s.facc s.fk.toNat body ts = J.packed

theorem step_groupOpen {s : State} (hhost : s.host = []) (hrun : s.run = .busy .groupOpen) :
    step s = groupOpenStep s := by
  rw [step_of_no_move hhost, blockStep, nextElement, hrun]
  simp only [controlStep, hrun]

theorem step_groupTokens {s : State} (hhost : s.host = []) (hrun : s.run = .busy .groupTokens) :
    step s = groupTokensStep s := by
  rw [step_of_no_move hhost, blockStep, nextElement, hrun]
  simp only [controlStep, hrun]

theorem openGroup_eq (s : State) : openGroup s =
    (emitAll [0x00] { s with fpos := s.eo }).map fun u => { u with facc := 0, fk := 0, run := .busy .groupTokens } := by
  rw [openGroup, emitAll]
  cases emit 0x00 { s with fpos := s.eo } <;> rfl

/-- Emitting a token that stands for `n` bytes of the input (R164). -/
def putToken (t : Instr) (n : Nat) (s : State) : Attempt State :=
  (emitAll (encode bgr555 t) { s with facc := markToken s.facc s.fk.toNat t }).map
    fun u => { u with ci := s.ci + BitVec.ofNat 32 n, fk := s.fk + 1 }

/-- Emitting, then a last change `g` of the state. -/
theorem emitAll_map (vs : List Byte) (s : State) (g : State → State) :
    (match emitAll vs s with
      | .error e => .error e
      | .ok u => .ok (g u)) = (emitAll vs s).map g := by
  cases emitAll vs s <;> rfl

/-- The matcher's answer is the copy that the block emits. -/
theorem emitToken_ref {s : State} {len disp : Nat}
    (hm : matcher s.cfg.matcher (window s) s.ci.toNat = (len, disp)) (hlen : 3 ≤ len) :
    emitToken s = putToken (refOf len disp) len s := by
  unfold emitToken
  rw [hm]
  exact (if_pos hlen).trans (emitAll_map _ _ _)

/-- Where the matcher answers no copy the block emits the input byte. -/
theorem emitToken_lit {s : State} (hm : (matcher s.cfg.matcher (window s) s.ci.toNat).1 < 3)
    (hi : s.ci.toNat < s.latch.len.toNat) : emitToken s = putToken (.lit ((window s).getD s.ci.toNat 0)) 1 s := by
  refine (if_neg (Nat.not_le.2 hm)).trans ?_
  rw [emitLitToken, inRead_ok hi, window_getD_header hi]
  exact emitAll_map _ _ _

/-! ### The steps -/

section Steps
variable {s : State} {J : PackJob} {out body : List Byte} {i : Nat} {t : Instr} {ts : List Instr}

/-- Without a token to come the packed bytes are out, and the command completes (R164). -/
theorem State.BetweenGroups.done_ends (h : s.BetweenGroups J s.latch.len.toNat [] out) : Ends s J.result := by
  obtain ⟨hp, hrun, hci, hall⟩ := h
  rw [groups_nil, List.append_nil] at hall
  have hended : (finishDone s.eo.toNat s.latch.len.toNat s).EndedWith (.ok (out, s.latch.len.toNat)) := by
    refine ⟨rfl, rfl, rfl, by rw [hp.eo, finishDone_outLen], rfl, fun a => ?_⟩
    rw [finishDone_outMem, Memory.read_below, hp.spells a, hp.eo]
    split
    · rfl
    · rw [List.getElem?_eq_none (by omega)]
  rw [PackJob.result, ← hall, ← hp.cfg, ← hp.latch, if_neg (Nat.not_lt.2 hp.fits)]
  refine .of_step ?_ (.of_ended hended)
  rw [step_groupOpen hp.host hrun, groupOpenStep, if_neg (by omega)]

/-- Opening a group (R164). -/
theorem State.BetweenGroups.open_ends (h : s.BetweenGroups J i (t :: ts) out) (hi : i < s.latch.len.toNat)
    (hnext : ∀ u, u.InGroup J i (t :: ts) out [] → u.fk = 0 → Ends u J.result) : Ends s J.result := by
  obtain ⟨hp, hrun, hci, hall⟩ := h
  rw [groups_eq_finishGroup] at hall
  have hstep : step s = conclude s (openGroup s) := by
    rw [step_groupOpen hp.host hrun, groupOpenStep, if_pos (by omega)]
  rw [openGroup_eq] at hstep
  have hp' : State.Packing { s with fpos := s.eo } J out := { hp with }
  refine hp'.emit_ends hstep ?_ fun m e hem => hnext _ ⟨{ hem with }, rfl, hci, hp.eo, Nat.zero_le _, hall⟩ rfl
  have hlen := length_lt_finishGroup 0 0 [] (t :: ts)
  rw [← hall, List.length_append]
  exact Nat.add_le_add_left hlen _

/-- Closing a group patches its flag byte (R164). -/
theorem State.InGroup.close_ends (h : s.InGroup J i ts out body) (hclosed : s.fk.toNat = 8 ∨ ts = [])
    (hstop : ¬(s.fk.toNat < 8 ∧ s.ci.toNat < s.latch.len.toNat))
    (hnext : ∀ u, u.BetweenGroups J i ts (out ++ s.facc :: body) → u.latch = s.latch → Ends u J.result) :
    Ends s J.result := by
  obtain ⟨hp, hrun, hci, hfpos, -, hall⟩ := h
  have hlt : s.fpos.toNat < (out ++ 0 :: body).length := by simp [hfpos]
  have hset : (out ++ 0 :: body).set s.fpos.toNat s.facc = out ++ s.facc :: body := by
    rw [hfpos, List.set_append_right _ _ le_rfl, Nat.sub_self, List.set_cons_zero]
  have hlength : (out ++ s.facc :: body).length = (out ++ 0 :: body).length := by simp
  rw [finishGroup_closed _ _ hclosed, ← List.append_assoc] at hall
  have hstep : step s = .next { s with outMem := s.outMem.write s.fpos.toNat s.facc, run := .busy .groupOpen } := by
    rw [step_groupTokens hp.host hrun, groupTokensStep, if_neg hstop, closeGroup, memWrite_ok _ (hlt.trans_le hp.fits)]
    rfl
  refine .of_step hstep (hnext _ ⟨?_, rfl, hci, hall⟩ rfl)
  exact { hp with spells := hset ▸ hp.spells.set s.facc hlt, eo := hlength ▸ hp.eo, fits := hlength ▸ hp.fits }

/-- A token in a group with place for it. -/
theorem State.InGroup.token_ends (h : s.InGroup J i (t :: ts) out body) {n : Nat} (hfk : s.fk.toNat < 8)
    (hi : i < s.latch.len.toNat) (hn : i + n ≤ s.latch.len.toNat) (htok : emitToken s = putToken t n s)
    (hnext : ∀ u body, u.InGroup J (i + n) ts out body → Ends u J.result) : Ends s J.result := by
  obtain ⟨hp, hrun, hci, hfpos, -, hall⟩ := h
  have hfk' : (s.fk + 1).toNat = s.fk.toNat + 1 := by bv_omega
  have hci' : (s.ci + BitVec.ofNat 32 n).toNat = i + n := by bv_omega
  rw [finishGroup_token _ _ _ _ hfk, ← hfk'] at hall
  have hstep : step s = conclude s (putToken t n s) := by
    rw [step_groupTokens hp.host hrun, groupTokensStep, if_pos ⟨hfk, hci ▸ hi⟩, htok]
  have hp' : State.Packing { s with facc := markToken s.facc s.fk.toNat t } J (out ++ 0 :: body) := { hp with }
  refine hp'.emit_ends hstep ?_ fun m e hem => ?_
  · have hlen := length_lt_finishGroup (markToken s.facc s.fk.toNat t) (s.fk + 1).toNat (body ++ encode bgr555 t) ts
    rw [List.length_append] at hlen
    rw [← hall, List.length_append, List.length_append, List.length_cons]
    omega
  · rw [List.append_assoc] at hem
    exact hnext _ _ ⟨{ hem with }, hrun, hci', hfpos, show (s.fk + 1).toNat ≤ 8 by omega, hall⟩

/-- A token, in a new group when the last one is full. -/
theorem State.InGroup.next_ends (h : s.InGroup J i (t :: ts) out body) {n : Nat} (hi : i < J.latch.len.toNat)
    (hn : i + n ≤ J.latch.len.toNat)
    (htok : ∀ u out body, u.InGroup J i (t :: ts) out body → emitToken u = putToken t n u)
    (hnext : ∀ u out body, u.InGroup J (i + n) ts out body → Ends u J.result) : Ends s J.result := by
  have hplace {u : State} {out body : List Byte} (hu : u.InGroup J i (t :: ts) out body) (hfk : u.fk.toNat < 8) :
      Ends u J.result := by
    rw [← hu.packing.latch] at hi hn
    exact hu.token_ends hfk hi hn (htok u out body hu) fun v body => hnext v out body
  by_cases hfk : s.fk.toNat < 8
  · exact hplace h hfk
  · refine h.close_ends (.inl (by have := h.fk; omega)) (fun hmore => hfk hmore.1) fun u hu _ => ?_
    exact hu.open_ends (by rwa [hu.packing.latch]) fun v hv hv0 => hplace hv (by rw [hv0]; decide)

/-- From any place in a group the steps reach the result (R164). -/
theorem State.InGroup.ends (htokens : TokensFrom J.cfg.matcher J.input i ts) (h : s.InGroup J i ts out body) :
    Ends s J.result := by
  have hlen (u : State) {out : List Byte} (hu : u.Packing J out) : J.input.length = u.latch.len.toNat := by
    rw [← hu.window, window_length]
  have hJ : J.input.length = J.latch.len.toNat := by rw [hlen s h.packing, h.packing.latch]
  induction htokens generalizing s out body with
  | done =>
    have hci := h.ci
    rw [hlen s h.packing] at hci
    refine h.close_ends (.inr rfl) (by omega) fun u hu _ => ?_
    exact (hlen u hu.packing ▸ hu).done_ends
  | lit hi hm rest ih =>
    rw [hJ] at hi
    refine h.next_ends hi hi (fun u out body hu => ?_) fun u out body => ih
    obtain ⟨hp, -, rfl, -⟩ := hu
    rw [← hp.window] at hm ⊢
    exact emitToken_lit (hp.cfg ▸ hm) (hp.latch ▸ hi)
  | @ref i ts hi hm rest ih =>
    have hle := matcher_le J.cfg.matcher J.input i
    rw [hJ] at hi hle
    refine h.next_ends hi (by omega) (fun u out body hu => emitToken_ref ?_ hm) fun u out body => ih
    rw [hu.packing.cfg, hu.packing.window, hu.ci]

/-- Between two groups, too. -/
theorem State.BetweenGroups.ends (htokens : TokensFrom J.cfg.matcher J.input i ts) (h : s.BetweenGroups J i ts out) :
    Ends s J.result := by
  have hlen : J.input.length = s.latch.len.toNat := by rw [← h.packing.window, window_length]
  cases htokens with
  | done => exact (hlen ▸ h).done_ends
  | lit hi hm rest => exact h.open_ends (hlen ▸ hi) fun u hu _ => hu.ends (.lit hi hm rest)
  | ref hi hm rest => exact h.open_ends (hlen ▸ hi) fun u hu _ => hu.ends (.ref hi hm rest)

end Steps

/-! ### The `START` -/

theorem inputOf_length (s : State) : (inputOf s).length = s.srcLen.toNat := by simp [inputOf]

/-- The state after a `START` that emitted the header as `m`. -/
def headerOut (m : Memory) (s : State) : State := { begun 2 .groupOpen s with eo := 4, ci := 0, outMem := m }

/-- What the compressor does first: the check of the length, then the header, if OUT can hold it (R161, R164, R169). -/
theorem compressPrologue_cases {s : State} (hout : s.outMem = []) :
    2 ^ 24 ≤ s.latch.len.toNat ∧ compressPrologue s = .error (.err .lengthOverflow s.latch.len.toNat)
      ∨ s.latch.len.toNat < 2 ^ 24 ∧ s.cfg.outSize < 4
        ∧ compressPrologue s = .error (.err .outputOverflow s.cfg.outSize)
      ∨ s.latch.len.toNat < 2 ^ 24 ∧ 4 ≤ s.cfg.outSize ∧ ∃ m,
        compressPrologue s = .ok { s with eo := 4, ci := 0, outMem := m }
          ∧ m.Spells (encode bgr555 (.hdrLz 0 (BitVec.ofNat 24 s.latch.len.toNat))) := by
  by_cases hlen : 2 ^ 24 ≤ s.latch.len.toNat
  · exact .inl ⟨hlen, if_pos hlen⟩
  refine .inr ?_
  rw [compressPrologue, if_neg hlen]
  by_cases hsize : 4 ≤ s.cfg.outSize
  · obtain ⟨e, hok, he⟩ := emitAll_fits (encode s.cfg.pal (.hdrLz 0 (BitVec.ofNat 24 s.latch.len.toNat)))
      (s := { s with eo := 0 }) (by rwa [encode_hdrLz]) (by rw [encode_hdrLz]; exact show 0 + 4 < 2 ^ 32 by decide)
    obtain rfl : e = 4 := BitVec.eq_of_toNat_eq he
    rw [hok, hout]
    exact .inr ⟨Nat.lt_of_not_le hlen, hsize, _, rfl, Memory.spells_nil.append _⟩
  · have hfull : s.cfg.outSize < 4 := Nat.lt_of_not_le hsize
    rw [encode_hdrLz, emitAll_full (s := { s with eo := 0 }) (hfull.trans (by decide)) (Nat.zero_le _)
      (by simpa using hfull)]
    exact .inl ⟨Nat.lt_of_not_le hlen, hfull, rfl⟩

/-- Everything a valid `START` of `LZ_COMP` can do (R164, R169). -/
theorem execLzComp_cases {s : State} (h : CanStart .lzComp s) :
    2 ^ 24 ≤ s.srcLen.toNat
        ∧ exec .lzComp s = .next (raiseError .lengthOverflow s.srcLen.toNat (begun 2 .groupOpen s))
      ∨ s.srcLen.toNat < 2 ^ 24 ∧ s.cfg.outSize < 4
        ∧ exec .lzComp s = .next (raiseError .outputOverflow s.cfg.outSize (begun 2 .groupOpen s))
      ∨ s.srcLen.toNat < 2 ^ 24 ∧ 4 ≤ s.cfg.outSize ∧ ∃ m, exec .lzComp s = .next (headerOut m s)
        ∧ m.Spells (encode bgr555 (.hdrLz 0 (BitVec.ofNat 24 s.srcLen.toNat))) := by
  have hexec : exec .lzComp s = conclude (begun 2 .groupOpen s) (compressPrologue (begun 2 .groupOpen s)) :=
    launch_valid h.notBusy ((validate_ok_iff _ _).2 ⟨nofun, h.inside⟩)
  rw [hexec]
  obtain ⟨hlen, hp⟩ | ⟨hlen, hsize, hp⟩ | ⟨hlen, hsize, m, hp, hm⟩ :=
    compressPrologue_cases (s := begun 2 .groupOpen s) rfl
  · exact .inl ⟨hlen, congrArg _ hp⟩
  · exact .inr (.inl ⟨hlen, hsize, congrArg _ hp⟩)
  · exact .inr (.inr ⟨hlen, hsize, m, congrArg _ hp, hm⟩)

/-- Settles O13: the two checks, then the header in OUT. -/
theorem compressionCommandBegins : Obligations.CompressionCommandBegins := by
  intro s h n
  have hbegun := beginCommand_same 2 .groupOpen s
  obtain ⟨hlong, hexec⟩ | ⟨hlen, hfull, hexec⟩ | ⟨hlen, hsize, m, hexec, hm⟩ := execLzComp_cases h
  · rw [if_pos hlong]
    exact failsWith_of_same hbegun hexec
  · rw [if_neg (by omega), if_pos hfull]
    exact failsWith_of_same hbegun hexec
  · rw [if_neg (by omega), if_neg (by omega)]
    rw [encode_hdrLz] at hm
    exact ⟨_, hexec, rfl, hm 0, hm 1, hm 2, hm 3, fun a ha => (hm a).trans (List.getElem?_eq_none ha)⟩

/-- After the header the steps reach the result (R164). -/
theorem headerOut_ends {s : State} {m : Memory} (hcfg : s.cfg.wf) (hhost : s.host = [])
    (hsize : 4 ≤ s.cfg.outSize) (hm : m.Spells (encode bgr555 (.hdrLz 0 (BitVec.ofNat 24 s.srcLen.toNat)))) :
    Ends (headerOut m s) (PackJob.result
      ⟨s.cfg, (begun 2 .groupOpen s).latch, inputOf s, compressedBytes s.cfg.matcher (inputOf s)⟩) := by
  obtain ⟨-, -, -, hbound, -⟩ := hcfg
  have htokens := tokensOf_tokensFrom s.cfg.matcher (inputOf s)
  refine State.BetweenGroups.ends htokens (out := encode bgr555 (.hdrLz 0 (BitVec.ofNat 24 s.srcLen.toNat)))
    ⟨?_, rfl, rfl, ?_⟩
  · exact { job := rfl, host := hhost, spells := hm, eo := rfl, fits := hsize
            bound := Nat.lt_of_le_pred (by decide) hbound }
  · simp only [compressedBytes_eq, inputOf_length]

/-- A `START` that ends in an error. -/
theorem runsTo_of_start_error {s : State} {i : Instr} {opc : BitVec 3} {p : Phase} {e : ErrCode} {info : Nat}
    (hhost : s.host = [])
    (hexec : exec i s = .next (raiseError e info (begun opc p s))) : RunsTo i s (.error (.err e info)) :=
  runsTo_of_ends hexec ((beginCommand_same opc p s).trans (raiseError_same e info _)) hhost
    (.of_ended (raiseError_ended e info _))

/-- Settles O45: the `START` raises one of its errors or leads between groups, and from there the steps go on. -/
theorem lzCompStepsReachItsFunction : Obligations.LzCompStepsReachItsFunction := by
  intro s hcfg hhost h
  rw [lzCompress, inputOf_length]
  obtain ⟨hlong, hexec⟩ | ⟨hlen, hfull, hexec⟩ | ⟨hlen, hsize, m, hexec, hm⟩ := execLzComp_cases h
  · rw [if_pos hlong]
    exact runsTo_of_start_error hhost hexec
  · have hheader : 4 ≤ (compressedBytes s.cfg.matcher (inputOf s)).length := by
      rw [compressedBytes_eq, encode_hdrLz]
      simp
    rw [if_neg (by omega), if_pos (by omega)]
    exact runsTo_of_start_error hhost hexec
  · rw [if_neg (by omega)]
    have hsame : SameInputs s (headerOut m s) := ⟨rfl, rfl, rfl, rfl, rfl, rfl, rfl, rfl, rfl⟩
    exact runsTo_of_ends hexec hsame hhost (headerOut_ends hcfg hhost hsize hm)

end Sys2Proof.Machine
end

section
/-! PROOFS. `RD_COMP`: the Raw block is copied as it stands in the window (R182), run step by step the command reaches
what its function says (R181 to R183), and byte 0 of the header decides how it compares with `LZ_DECOMP` (R186). -/

namespace Sys2Proof.Machine

/-! ### The Raw path -/

/-- The `n` bytes after the header of a window (R182). -/
def rawBlock (w : List Byte) (n : Nat) : List Byte := (w.drop 4).take n

section RawBlock
variable {w : List Byte} {n : Nat}

theorem rawBlock_length (h : 4 + n ≤ w.length) : (rawBlock w n).length = n := by
  rw [rawBlock, List.length_take, List.length_drop]
  omega

theorem rawBlock_getElem? {k : Nat} (h : k < n) : (rawBlock w n)[k]? = w[4 + k]? := by
  rw [rawBlock, List.getElem?_take_of_lt h, List.getElem?_drop]

end RawBlock

/-- Bytes stored from address 0 on are what the memory holds below their number. -/
theorem Memory.spells_below_writeAll (m : Memory) (vs : List Byte) : ((m.writeAll 0 vs).below vs.length).Spells vs := by
  intro a
  rw [Memory.read_below]
  split
  · next h => rw [List.getElem?_eq_getElem h, ← Memory.read_writeAll m 0 vs h, Nat.zero_add]
  · next h => rw [List.getElem?_eq_none (by omega)]

/-- The copy loop stores the next bytes of the window at the next addresses. -/
theorem rawCopy_eq {left k : Nat} {s : State} (hwin : 4 + k + left ≤ s.latch.len.toNat)
    (hsize : k + left ≤ s.cfg.outSize) :
    rawCopy left k s = .ok { s with outMem := s.outMem.writeAll k (((window s).drop (4 + k)).take left) } := by
  induction left generalizing k s with
  | zero => rfl
  | succ left ih =>
    have hbyte : ((window s).drop (4 + k)).take (left + 1)
        = inByte s (s.latch.off.toNat + (4 + k)) :: ((window s).drop (4 + (k + 1))).take left := by
      have hget := window_getElem?_of_lt (s := s) (k := 4 + k) (by omega)
      obtain ⟨hlt, hval⟩ := List.getElem?_eq_some_iff.1 hget
      rw [List.drop_eq_getElem_cons hlt, List.take_succ_cons, hval, Nat.add_assoc]
    rw [rawCopy, inRead_ok (by omega), hbyte]
    simp only
    rw [memWrite_ok _ (by omega)]
    exact ih (by simp only; omega) (by simp only; omega)

section RawHeader
variable {ulen : BitVec 24} {s : State}

theorem execHdrRaw_short (hwin : s.latch.len.toNat < 4 + ulen.toNat) :
    exec (.hdrRaw ulen) s = .next (raiseError .inputUnderrun s.latch.len.toNat s) := if_pos hwin

variable (hwin : 4 + ulen.toNat ≤ s.latch.len.toNat)
include hwin

theorem execHdrRaw_full (hsize : s.cfg.outSize < ulen.toNat) :
    exec (.hdrRaw ulen) s = .next (raiseError .outputOverflow ulen.toNat s) :=
  (if_neg (Nat.not_lt.2 hwin)).trans (if_pos hsize)

/-- A block that the window and OUT can hold is copied, and the command completes with exactly it in OUT. -/
theorem execHdrRaw_ok (hsize : ulen.toNat ≤ s.cfg.outSize) :
    ∃ m, exec (.hdrRaw ulen) s = .next (finishDone ulen.toNat (4 + ulen.toNat) { s with outMem := m })
      ∧ (m.below ulen.toNat).Spells (rawBlock (window s) ulen.toNat) := by
  have hcopy := rawCopy_eq (left := ulen.toNat) (k := 0) (s := s) hwin (by omega)
  have hspells := s.outMem.spells_below_writeAll (rawBlock (window s) ulen.toNat)
  rw [rawBlock_length (by rwa [window_length])] at hspells
  refine ⟨_, ?_, hspells⟩
  rw [exec, execHdrRaw, if_neg (Nat.not_lt.2 hwin), if_neg (Nat.not_lt.2 hsize), hcopy]
  rfl

end RawHeader

/-- Settles O20: the two checks, then the copy. -/
theorem rawHeaderCopiesTheBlock : Obligations.RawHeaderCopiesTheBlock := by
  intro ulen s n
  split
  · next hwin => exact failsWith_of_same (.refl s) (execHdrRaw_short hwin)
  next hwin =>
  split
  · next hsize => exact failsWith_of_same (.refl s) (execHdrRaw_full (Nat.le_of_not_lt hwin) hsize)
  next hsize =>
  obtain ⟨m, hexec, hm⟩ := execHdrRaw_ok (Nat.le_of_not_lt hwin) (Nat.le_of_not_lt hsize)
  have hlen : (rawBlock (window s) n).length = n := rawBlock_length (by rw [window_length]; omega)
  refine ⟨_, hexec, rfl, fun k hk => ?_, fun k hk => (hm k).trans (List.getElem?_eq_none (hlen.trans_le hk))⟩
  exact (hm k).trans ((rawBlock_getElem? hk).trans (window_getElem?_of_lt (by omega)))

/-! ### The function of each command, by byte 0 of the header -/

section Functions
variable {w : List Byte} {outSize : Nat} (hw : 4 ≤ w.length)
include hw

theorem lzDecompress_lz (h0 : (w.getD 0 0).toNat / 16 = 1) : lzDecompress w outSize = lzStream w outSize := by
  rw [lzDecompress, if_neg (by omega), if_neg (not_not_intro h0)]

theorem lzDecompress_unsupported (h0 : (w.getD 0 0).toNat / 16 ≠ 1) :
    lzDecompress w outSize = .error (.err .unsupportedMethod (w.getD 0 0).toNat) := by
  rw [lzDecompress, if_neg (by omega), if_pos h0]

theorem readCompressed_unknown (h0 : w.getD 0 0 ≠ 0x00) (h1 : w.getD 0 0 ≠ 0x10) :
    readCompressed w outSize = .error (.err .unknownCompressionType (w.getD 0 0).toNat) := by
  rw [readCompressed, if_neg (by omega), if_neg h0, if_neg h1]

/-- Type 0x00 is the Raw path: its two checks, then the block (R182). -/
theorem readCompressed_rawPath (h0 : w.getD 0 0 = 0x00) : readCompressed w outSize =
    if w.length < 4 + lengthField w then .error (.err .inputUnderrun w.length)
    else if outSize < lengthField w then .error (.err .outputOverflow (lengthField w))
    else .ok (rawBlock w (lengthField w), 4 + lengthField w) := by
  rw [readCompressed, if_neg (by omega), if_pos h0]
  rfl

end Functions

/-- Settles O54, by byte 0 of the header. -/
theorem decompressionCommandsCompare : Obligations.DecompressionCommandsCompare := by
  intro w outSize hw
  refine ⟨fun h0 => ?lz, fun h0 => ⟨?direct, ?raw⟩, fun hlow hhigh => ?sub, fun h0 hother => ?other⟩
  case lz => rw [readCompressed_lz h0 hw, lzDecompress_lz hw (by rw [h0]; rfl)]
  case direct => rw [lzDecompress_unsupported hw (by rw [h0]; decide), h0]; rfl
  case raw =>
    rw [readCompressed_rawPath hw h0]
    split
    · rfl
    next hlen =>
    split
    · rfl
    · exact ⟨_, rfl, rawBlock_length (Nat.le_of_not_lt hlen), fun k hk => rawBlock_getElem? hk⟩
  case sub =>
    exact ⟨readCompressed_unknown hw (by bv_omega) (by bv_omega), lzDecompress_lz hw (by omega)⟩
  case other =>
    exact ⟨lzDecompress_unsupported hw (by omega), readCompressed_unknown hw h0 (by bv_omega)⟩

/-! ### The steps -/

/-- The header of the command decoded: the whole type byte counts (R181). -/
def wrappedHeader (s : State) : Except Reject Instr :=
  decodeHeaderWrapped (headerByte s 0) (headerByte s 1) (headerByte s 2) (headerByte s 3)

theorem decode_wrappedHeader (s : State) (l : PalLayout) :
    decode l .headerWrapped [headerByte s 0, headerByte s 1, headerByte s 2, headerByte s 3]
      = (wrappedHeader s).map (·, []) := rfl

section Header
variable {s : State} (hlen : 4 ≤ s.latch.len.toNat)
include hlen

/-- A step that runs a Raw header ends the command with what the function gives of the block. -/
theorem rawHeader_ends (h0 : headerByte s 0 = 0x00) (hstep : step s = exec (.hdrRaw (headerLength s)) s) :
    Ends s (readCompressed (window s) s.cfg.outSize) := by
  rw [readCompressed_rawPath (by rwa [window_length]) (by rwa [window_getD_header (by omega)]),
    lengthField_window hlen, window_length]
  split
  · next hwin => exact .of_error (hstep.trans (execHdrRaw_short hwin))
  next hwin =>
  split
  · next hsize => exact .of_error (hstep.trans (execHdrRaw_full (Nat.le_of_not_lt hwin) hsize))
  next hsize =>
  obtain ⟨m, hexec, hm⟩ := execHdrRaw_ok (Nat.le_of_not_lt hwin) (Nat.le_of_not_lt hsize)
  have hblock := rawBlock_length (w := window s) (n := (headerLength s).toNat) (by rw [window_length]; omega)
  exact .of_step (hstep.trans hexec) (.of_ended ⟨rfl, rfl, rfl, by rw [hblock]; rfl, rfl, hm⟩)

variable (hhost : s.host = []) (hnext : nextElement s = some (.headerWrapped, 0, s))
include hhost hnext

theorem step_wrappedHeader {i : Instr} (h : wrappedHeader s = .ok i) : step s = exec i s :=
  stepRunsTheDecodedElement _ _ _ _ _ _ _ hhost hnext (fetchBytes_header hlen) (by rw [decode_wrappedHeader, h]; rfl)

theorem step_wrappedHeader_reject {r : Reject} (h : wrappedHeader s = .error r) : step s = .next (raiseReject r s) :=
  step_reject hhost hnext (fetchBytes_header hlen) (by rw [decode_wrappedHeader, h]; rfl)

/-- Each type byte leads to what the function gives of the window. -/
theorem wrappedHeader_ends (hout : s.outMem = []) : Ends s (readCompressed (window s) s.cfg.outSize) := by
  have hw : 4 ≤ (window s).length := by rwa [window_length]
  have hbyte : (window s).getD 0 0 = headerByte s 0 := window_getD_header (by omega)
  by_cases h0 : headerByte s 0 = 0x00
  · exact rawHeader_ends hlen h0 (step_wrappedHeader hlen hhost hnext (if_pos h0))
  by_cases h1 : headerByte s 0 = 0x10
  · rw [readCompressed_lz (hbyte.trans h1) hw]
    exact lzHeader_ends hlen hhost hout (step_wrappedHeader hlen hhost hnext ((if_neg h0).trans (if_pos h1)))
  · rw [readCompressed_unknown hw (by rwa [hbyte]) (by rwa [hbyte]), hbyte]
    exact .of_error (step_wrappedHeader_reject hlen hhost hnext ((if_neg h0).trans (if_neg h1)))

end Header

/-- From the header on, `RD_COMP` ends with what its function gives of the window. -/
theorem rdComp_header_ends {s : State} (hhost : s.host = []) (hrun : s.run = .busy .header)
    (hopc : s.latch.opc = Instr.rdComp.opc) (hout : s.outMem = []) :
    Ends s (readCompressed (window s) s.cfg.outSize) := by
  have hnext := nextElement_header hrun
  rw [headerCtx, if_neg (by rw [hopc]; decide)] at hnext
  by_cases hlen : s.latch.len.toNat < 4
  · rw [readCompressed, window_length, if_pos hlen]
    exact .of_error (step_fetch_error hhost hnext (fetchBytes_missing 4 (by omega) (Nat.zero_le _)))
  · exact wrappedHeader_ends (Nat.le_of_not_lt hlen) hhost hnext hout

/-- Settles O46: the `START`, then the header, then for type 0x10 the stream. -/
theorem rdCompStepsReachItsFunction : Obligations.RdCompStepsReachItsFunction := by
  intro s _ hhost hstart
  refine runsTo_of_ends (launch_header hstart.notBusy hstart.inside) (beginCommand_same _ _ s) hhost ?_
  rw [← window_beginCommand Instr.rdComp.opc .header s]
  exact rdComp_header_ends (s := beginCommand Instr.rdComp.opc .header s) hhost rfl rfl rfl

end Sys2Proof.Machine
end

section
/-! PROOFS. The palette converter: the scaling of a channel (R193, R194), what one entry stores (R195, R196), and
`PAL_DEC` run step by step, each entry of the window adding its triple to the output (R191 to R195). Beside it the
`START` of all three converting commands (R195, R204, R206, R210, R220). -/

namespace Sys2Proof.Machine

/-! ### Scaling -/

/-- Settles O26: `31 · 255 / 31 = 255` is the largest value. -/
theorem scalingIsTruncatingDivision : Obligations.ScalingIsTruncatingDivision := fun c => by
  have hbyte : c.toNat * 255 / 31 < 2 ^ 8 := by omega
  exact Nat.mod_eq_of_lt hbyte

/-- Settles O27: the table by evaluation; the order because one channel step adds more than 31 to the product. -/
theorem scalingFollowsItsTable : Obligations.ScalingFollowsItsTable := by
  refine ⟨by decide, fun c d hlt => ?_⟩
  rw [scalingIsTruncatingDivision c, scalingIsTruncatingDivision d]
  omega

/-! ### The `START` of the converters -/

/-- The `START` of a command that can start goes on to what the command does first (R220, R221). -/
theorem launch_of_canStart {i : Instr} {opc : BitVec 3} {p : Phase} {tile : Bool} {f : State → Attempt State}
    {s : State} (h : CanStart i s) (htile : tile = true → i ∈ tileCommands) :
    launch opc p tile f s = conclude (begun opc p s) (f (begun opc p s)) :=
  launch_valid h.notBusy ((validate_ok_iff _ _).2 ⟨fun ht => (legalBpp_iff _).2 (h.depth (htile ht)), h.inside⟩)

section Start
variable {s : State}

theorem execPalDec_begins (h : CanStart .palDec s) :
    exec .palDec s = conclude (begun 4 .palette s) (palPrologue (begun 4 .palette s)) := launch_of_canStart h nofun

theorem execTileDec_begins (h : CanStart .tileDec s) :
    exec .tileDec s = conclude (begun 5 .unpack s) (unpackPrologue (begun 5 .unpack s)) :=
  launch_of_canStart h fun _ => by decide

theorem execTileEnc_begins (h : CanStart .tileEnc s) :
    exec .tileEnc s = conclude (begun 6 .pack s) (packPrologue (begun 6 .pack s)) :=
  launch_of_canStart h fun _ => by decide

/-- A palette whose triples do not fit OUT (R195). -/
theorem execPalDec_full (h : CanStart .palDec s) (hsize : s.cfg.outSize < 3 * entryCount s.srcLen.toNat) :
    exec .palDec s = .next (raiseError .outputOverflow (3 * entryCount s.srcLen.toNat) (begun 4 .palette s)) :=
  (execPalDec_begins h).trans (congrArg _ (if_pos hsize))

theorem execPalDec_ok (h : CanStart .palDec s) (hsize : ¬ s.cfg.outSize < 3 * entryCount s.srcLen.toNat) :
    exec .palDec s = .next { begun 4 .palette s with ei := 0 } :=
  (execPalDec_begins h).trans (congrArg _ (if_neg hsize))

/-- Tiles whose pixels do not fit OUT (R204). -/
theorem execTileDec_full (h : CanStart .tileDec s)
    (hsize : s.cfg.outSize < 64 * tileCount s.bpp s.srcLen.toNat) :
    exec .tileDec s = .next (raiseError .outputOverflow (64 * tileCount s.bpp s.srcLen.toNat) (begun 5 .unpack s)) :=
  (execTileDec_begins h).trans (congrArg _ (if_pos hsize))

theorem execTileDec_ok (h : CanStart .tileDec s)
    (hsize : ¬ s.cfg.outSize < 64 * tileCount s.bpp s.srcLen.toNat) :
    exec .tileDec s = .next { begun 5 .unpack s with bi := 0 } :=
  (execTileDec_begins h).trans (congrArg _ (if_neg hsize))

/-- Pixels that are no whole number of tiles (R206). -/
theorem execTileEnc_ragged (h : CanStart .tileEnc s) (hwhole : s.srcLen.toNat % 64 ≠ 0) :
    exec .tileEnc s = .next (raiseError .badLength s.srcLen.toNat (begun 6 .pack s)) :=
  (execTileEnc_begins h).trans (congrArg _ (if_pos hwhole))

/-- Whole tiles whose packed bytes do not fit OUT (R210). -/
theorem execTileEnc_full (h : CanStart .tileEnc s) (hwhole : ¬ s.srcLen.toNat % 64 ≠ 0)
    (hsize : s.cfg.outSize < tileBytes s.bpp * (s.srcLen.toNat / 64)) :
    exec .tileEnc s =
      .next (raiseError .outputOverflow (tileBytes s.bpp * (s.srcLen.toNat / 64)) (begun 6 .pack s)) :=
  (execTileEnc_begins h).trans (congrArg _ ((if_neg hwhole).trans (if_pos hsize)))

theorem execTileEnc_ok (h : CanStart .tileEnc s) (hwhole : ¬ s.srcLen.toNat % 64 ≠ 0)
    (hsize : ¬ s.cfg.outSize < tileBytes s.bpp * (s.srcLen.toNat / 64)) :
    exec .tileEnc s = .next { begun 6 .pack s with bi := 0, pix := none } :=
  (execTileEnc_begins h).trans (congrArg _ ((if_neg hwhole).trans (if_neg hsize)))

end Start

/-- Settles O12, command by command, in the order of each one's checks. -/
theorem converterCommandsBegin : Obligations.ConverterCommandsBegin := by
  intro s n tb
  refine ⟨fun h => ?palDec, fun h => ?tileDec, fun h => ?tileEnc⟩
  case palDec =>
    split
    · next hsize => exact failsWith_of_same (beginCommand_same 4 .palette s) (execPalDec_full h hsize)
    · next hsize => exact execPalDec_ok h hsize
  case tileDec =>
    split
    · next hsize => exact failsWith_of_same (beginCommand_same 5 .unpack s) (execTileDec_full h hsize)
    · next hsize => exact execTileDec_ok h hsize
  case tileEnc =>
    split
    · next hwhole => exact failsWith_of_same (beginCommand_same 6 .pack s) (execTileEnc_ragged h hwhole)
    next hwhole =>
    split
    · next hsize => exact failsWith_of_same (beginCommand_same 6 .pack s) (execTileEnc_full h hwhole hsize)
    · next hsize => exact execTileEnc_ok h hwhole hsize

/-! ### One entry -/

/-- An entry whose triple fits OUT: the three scaled channels are stored, and the entry is counted (R195, R196). -/
theorem execPal16_ok {s : State} (h : 3 * s.ei.toNat + 3 ≤ s.cfg.outSize) (r5 g5 b5 : BitVec 5) (x : BitVec 1) :
    exec (.pal16 r5 g5 b5 x) s = .next { s with
      ei := s.ei + 1, outMem := s.outMem.writeAll (3 * s.ei.toNat) [scale r5, scale g5, scale b5] } := by
  rw [exec, execPal16, memWriteAll_ok [scale r5, scale g5, scale b5] (.inr h)]

/-- Settles O25: the three stores, read back. -/
theorem paletteEntryStoresItsScaledChannels : Obligations.PaletteEntryStoresItsScaledChannels := by
  intro r5 g5 b5 x s h
  have hread {k : Nat} (hk : k < 3) := s.outMem.read_writeAll (3 * s.ei.toNat) [scale r5, scale g5, scale b5] hk
  exact ⟨_, execPal16_ok h r5 g5 b5 x, rfl, hread (k := 0) (by decide), hread (k := 1) (by decide),
    hread (k := 2) (by decide), fun _ ha => s.outMem.read_writeAll_other _ ha⟩

/-! ### The loop over the entries -/

/-- What the first `e` entries of the window give (R195). -/
def paletteOutput (s : State) (e : Nat) : List Byte := (List.range e).flatMap (paletteEntry s.cfg.pal (window s))

theorem paletteOutput_length (s : State) (e : Nat) : (paletteOutput s e).length = 3 * e := by
  simp [paletteOutput, paletteEntry, List.length_flatMap, Nat.mul_comm]

theorem paletteOutput_succ (s : State) (e : Nat) :
    paletteOutput s (e + 1) = paletteOutput s e ++ paletteEntry s.cfg.pal (window s) e := by
  simp [paletteOutput, List.range_succ]

/-- The state after entry `EI` of the window: its triple is stored, and it is counted. -/
def afterEntry (s : State) : State :=
  { s with
    ei := s.ei + 1
    outMem := s.outMem.writeAll (3 * s.ei.toNat) (paletteEntry s.cfg.pal (window s) s.ei.toNat) }

theorem afterEntry_ei {s : State} (hei : s.ei.toNat < entryCount s.latch.len.toNat) :
    (afterEntry s).ei.toNat = s.ei.toNat + 1 := by
  change (s.ei + 1).toNat = s.ei.toNat + 1
  unfold entryCount at hei
  bv_omega

/-- In the loop over the entries: the triples of those before `EI` are the output so far, and all of them fit OUT. -/
structure State.PaletteAt (s : State) : Prop where
  host : s.host = []
  run : s.run = .busy .palette
  size : 3 * entryCount s.latch.len.toNat ≤ s.cfg.outSize
  ei : s.ei.toNat ≤ entryCount s.latch.len.toNat
  spells : s.outMem.Spells (paletteOutput s s.ei.toNat)

/-- Completing a command with its whole output in OUT ends it with that output (R223). -/
theorem Ends.of_done {s u : State} {out : List Byte} {used : Nat} (hout : u.outMem.Spells out)
    (h : step s = .next (finishDone out.length used u)) : Ends s (.ok (out, used)) := by
  refine .of_step h (.of_ended ⟨rfl, rfl, rfl, rfl, rfl, fun a => ?_⟩)
  rw [finishDone_outMem, Memory.read_below, hout a]
  split
  · rfl
  · next ha => rw [List.getElem?_eq_none (by omega)]

namespace State.PaletteAt
variable {s : State} (h : s.PaletteAt)
include h

theorem decodePalette_eq : decodePalette s.cfg.pal (window s) s.cfg.outSize =
    .ok (paletteOutput s (entryCount s.latch.len.toNat), 2 * entryCount s.latch.len.toNat) := by
  rw [decodePalette, window_length, if_neg (Nat.not_lt.2 h.size)]
  rfl

/-- After the last entry the command completes (R195). -/
theorem done_ends (hei : s.ei.toNat = entryCount s.latch.len.toNat) :
    Ends s (decodePalette s.cfg.pal (window s) s.cfg.outSize) := by
  have hnext : nextElement s = none := by simp [nextElement, h.run, hei]
  have hstep : step s = .next (palDone s) := by
    rw [step_of_no_move h.host, blockStep, hnext]
    simp only [controlStep, h.run]
  rw [h.decodePalette_eq]
  exact .of_done (hei ▸ h.spells) (by rw [hstep, palDone, paletteOutput_length])

/-- A step before the last entry runs the entry: two bytes of the window, low byte first (R99, R195). -/
theorem step_entry (hei : s.ei.toNat < entryCount s.latch.len.toNat) :
    step s = .next (afterEntry s) := by
  have hnext : nextElement s = some (.pal16, 2 * s.ei.toNat, s) := by simp only [nextElement, h.run, if_pos hei]
  have hwin : 2 * s.ei.toNat + 1 < s.latch.len.toNat := by unfold entryCount at hei; omega
  have hfetch : fetchBytes Ctx.pal16.size (2 * s.ei.toNat) s =
      .ok [(window s).getD (2 * s.ei.toNat) 0, (window s).getD (2 * s.ei.toNat + 1) 0] := by
    rw [window_getD_header (by omega), window_getD_header hwin]
    exact fetchBytes_ok 2 (.inr hwin)
  have hsize := h.size
  rw [stepRunsTheDecodedElement _ _ _ _ _ _ _ h.host hnext hfetch rfl]
  exact execPal16_ok (by omega) _ _ _ _

/-- The entry's triple is the next three bytes of the output. -/
theorem after_entry (hei : s.ei.toNat < entryCount s.latch.len.toNat) :
    (afterEntry s).PaletteAt := by
  have hnext := afterEntry_ei hei
  have hspells := h.spells.append (paletteEntry s.cfg.pal (window s) s.ei.toNat)
  rw [paletteOutput_length, ← paletteOutput_succ, ← hnext] at hspells
  exact { h with ei := hnext ▸ hei, spells := hspells }

end State.PaletteAt

/-- From any entry on, the steps reach what the function gives of the window, by the number of entries left. -/
theorem palette_ends {left : Nat} {s : State} (h : s.PaletteAt)
    (hleft : s.ei.toNat + left = entryCount s.latch.len.toNat) :
    Ends s (decodePalette s.cfg.pal (window s) s.cfg.outSize) := by
  induction left generalizing s with
  | zero => exact h.done_ends hleft
  | succ left ih =>
    have hei : s.ei.toNat < entryCount s.latch.len.toNat := by omega
    have hrest : (afterEntry s).ei.toNat + left = entryCount s.latch.len.toNat := by rw [afterEntry_ei hei]; omega
    exact .of_step (h.step_entry hei) (ih (h.after_entry hei) hrest)

/-- A palette that fits OUT, from its first entry on. -/
theorem palDec_begun_ends {s : State} (hhost : s.host = [])
    (hsize : 3 * entryCount s.srcLen.toNat ≤ s.cfg.outSize) :
    Ends { begun 4 .palette s with ei := 0 } (decodePalette s.cfg.pal (inputOf s) s.cfg.outSize) :=
  palette_ends (s := { begun 4 .palette s with ei := 0 })
    ⟨hhost, rfl, hsize, Nat.zero_le _, Memory.spells_nil⟩ (Nat.zero_add _)

/-- Settles O47: the `START` raises the overflow that the function gives, or the loop over the entries begins. -/
theorem palDecStepsReachItsFunction : Obligations.PalDecStepsReachItsFunction := by
  intro s _ hhost h
  by_cases hsize : s.cfg.outSize < 3 * entryCount s.srcLen.toNat
  · rw [decodePalette, inputOf_length, if_pos hsize]
    exact runsTo_of_start_error hhost (execPalDec_full h hsize)
  · have hsame : SameInputs s { begun 4 .palette s with ei := 0 } := ⟨rfl, rfl, rfl, rfl, rfl, rfl, rfl, rfl, rfl⟩
    exact runsTo_of_ends (execPalDec_ok h hsize) hsame hhost (palDec_begun_ends hhost (Nat.le_of_not_lt hsize))

end Sys2Proof.Machine
end

section
/-! PROOFS. The tile formats as functions on lists: what `TILE_DEC` and `TILE_ENC` give of a window they accept, and
that each undoes the other (R201 to R203, R207 to R209, R211, R213). -/

namespace Sys2Proof.Machine

/-! ### Nibbles -/

/-- Packing puts the first pixel in the low nibble (R207). -/
theorem packPair_toNat (a b : Byte) : (packPair a b).toNat = b.toNat % 16 * 16 + a.toNat % 16 := by
  have hlow : (lowNibble a).toNat < 2 ^ 4 := (lowNibble a).isLt
  rw [packPair, BitVec.toNat_append, ← Nat.shiftLeft_add_eq_or_of_lt hlow]
  simp [lowNibble, Nat.shiftLeft_eq]

theorem packPair_eq_ofNat (a b : Byte) : packPair a b = BitVec.ofNat 8 (b.toNat % 16 * 16 + a.toNat % 16) := by
  rw [← packPair_toNat, BitVec.ofNat_toNat, BitVec.setWidth_eq]

theorem and_nibble_toNat (x : Byte) : (x &&& 0x0F).toNat = x.toNat % 16 := by
  rw [BitVec.toNat_and]
  exact Nat.and_two_pow_sub_one_eq_mod x.toNat 4

/-- The first pixel of a packed byte is its low nibble (R202). -/
theorem lowPixel_toNat (y : Byte) : ((y.extractLsb' 0 4).setWidth 8).toNat = y.toNat % 16 := by
  rw [BitVec.toNat_setWidth_of_le (by decide), BitVec.extractLsb'_toNat, Nat.shiftRight_zero]

/-- The second is its high nibble (R202). -/
theorem highPixel_toNat (y : Byte) : ((y.extractLsb' 4 4).setWidth 8).toNat = y.toNat / 16 := by
  rw [BitVec.toNat_setWidth_of_le (by decide), BitVec.extractLsb'_toNat, Nat.shiftRight_eq_div_pow]
  omega

/-- A packed pair unpacks to its two low nibbles (R202, R208). -/
theorem unpackByte_packPair (a b : Byte) : unpackByte (packPair a b) = [a &&& 0x0F, b &&& 0x0F] := by
  have hfirst : ((packPair a b).extractLsb' 0 4).setWidth 8 = a &&& 0x0F := by
    refine BitVec.eq_of_toNat_eq ?_
    rw [lowPixel_toNat, and_nibble_toNat, packPair_toNat]
    omega
  have hsecond : ((packPair a b).extractLsb' 4 4).setWidth 8 = b &&& 0x0F := by
    refine BitVec.eq_of_toNat_eq ?_
    rw [highPixel_toNat, and_nibble_toNat, packPair_toNat]
    omega
  rw [unpackByte, hfirst, hsecond]

/-- The pixels of a packed byte pack to it again. -/
theorem packPairs_unpackByte_append (y : Byte) (rest : List Byte) :
    packPairs (unpackByte y ++ rest) = y :: packPairs rest := by
  refine congrArg (· :: packPairs rest) (BitVec.eq_of_toNat_eq ?_)
  rw [packPair_toNat, lowPixel_toNat, highPixel_toNat]
  omega

theorem tooWide_eq_false_iff {i : Byte} : tooWide i = false ↔ i.toNat < 16 := by simp [tooWide]

/-- An unpacked pixel fits four bits (R202). -/
theorem tooWide_of_mem_unpackByte {x y : Byte} (h : x ∈ unpackByte y) : tooWide x = false := by
  rw [tooWide_eq_false_iff]
  obtain rfl | rfl : x = (y.extractLsb' 0 4).setWidth 8 ∨ x = (y.extractLsb' 4 4).setWidth 8 := by
    simpa [unpackByte] using h
  · rw [lowPixel_toNat]
    omega
  · rw [highPixel_toNat]
    omega

/-! ### Pairs -/

theorem packPairs_append {xs : List Byte} (ys : List Byte) (h : xs.length % 2 = 0) :
    packPairs (xs ++ ys) = packPairs xs ++ packPairs ys := by
  induction xs using packPairs.induct with
  | case1 a b rest ih =>
    have hrest : rest.length % 2 = 0 := by simp only [List.length_cons] at h; omega
    exact congrArg (packPair a b :: ·) (ih hrest)
  | case2 a => simp at h
  | case3 => rfl

theorem packPairs_length (w : List Byte) : (packPairs w).length = w.length / 2 := by
  induction w using packPairs.induct with
  | case1 a b rest ih =>
    rw [packPairs, List.length_cons, ih, List.length_cons, List.length_cons]
    omega
  | case2 a => simp [packPairs]
  | case3 => rfl

/-- Unpacking what was packed gives the low nibbles of the pixels (R211). -/
theorem flatMap_unpackByte_packPairs {w : List Byte} (h : w.length % 2 = 0) :
    (packPairs w).flatMap unpackByte = w.map fun x => x &&& 0x0F := by
  induction w using packPairs.induct with
  | case1 a b rest ih =>
    have hrest : rest.length % 2 = 0 := by simp only [List.length_cons] at h; omega
    rw [packPairs, List.flatMap_cons, unpackByte_packPair, ih hrest]
    rfl
  | case2 a => simp at h
  | case3 => rfl

/-- Packing what was unpacked gives the packed bytes (R213). -/
theorem packPairs_flatMap_unpackByte (p : List Byte) : packPairs (p.flatMap unpackByte) = p := by
  induction p with
  | nil => rfl
  | cons y p ih => rw [List.flatMap_cons, packPairs_unpackByte_append, ih]

theorem flatMap_unpackByte_length (p : List Byte) : (p.flatMap unpackByte).length = 2 * p.length := by
  simp [unpackByte, List.length_flatMap, Nat.mul_comm]

/-- Indices below 16 are their low nibbles. -/
theorem map_and_nibble {w : List Byte} (h : ∀ x ∈ w, x.toNat < 16) : (w.map fun x => x &&& 0x0F) = w := by
  refine (List.map_congr_left fun x hx => BitVec.eq_of_toNat_eq ?_).trans (List.map_id w)
  rw [and_nibble_toNat]
  exact Nat.mod_eq_of_lt (h x hx)

/-! ### The commands -/

/-- The pixels of a packed byte at a depth (R202, R203). -/
def pixelsOf (bpp : BitVec 4) (y : Byte) : List Byte := if bpp = 4 then unpackByte y else [y]

/-- The packed bytes of whole tiles at a depth (R207, R209). -/
def packed (bpp : BitVec 4) (w : List Byte) : List Byte := if bpp = 4 then packPairs w else w

/-- No pixel is an `EncodingError` (R207, R208). -/
def Packable (bpp : BitVec 4) (mask : BitVec 1) (w : List Byte) : Prop :=
  bpp = 4 → mask = 0 → ∀ x ∈ w, tooWide x = false

theorem flatMap_pixelsOf_of_ne {bpp : BitVec 4} (hbpp : bpp ≠ 4) (w : List Byte) : w.flatMap (pixelsOf bpp) = w := by
  have hpixels : pixelsOf bpp = fun y => [y] := funext fun y => if_neg hbpp
  rw [hpixels, List.flatMap_singleton']

/-- `TILE_DEC` on a window whose pixels fit OUT (R201 to R204). -/
theorem decodeTiles_ok {bpp : BitVec 4} {w : List Byte} {outSize : Nat}
    (hsize : 64 * tileCount bpp w.length ≤ outSize) :
    decodeTiles bpp w outSize = .ok ((w.take (tileBytes bpp * tileCount bpp w.length)).flatMap (pixelsOf bpp),
      tileBytes bpp * tileCount bpp w.length) := by
  refine (if_neg (Nat.not_lt.2 hsize)).trans ?_
  by_cases hbpp : bpp = 4
  · subst hbpp
    rfl
  · rw [if_neg hbpp, flatMap_pixelsOf_of_ne hbpp]

/-- `TILE_ENC` on whole tiles that it accepts and whose packed bytes fit OUT (R206 to R210). -/
theorem encodeTiles_ok {bpp : BitVec 4} {mask : BitVec 1} {w : List Byte} {outSize : Nat}
    (hwhole : w.length % 64 = 0) (hsize : tileBytes bpp * (w.length / 64) ≤ outSize) (hok : Packable bpp mask w) :
    encodeTiles bpp mask w outSize = .ok (packed bpp w, w.length) := by
  have hnone (hbpp : bpp = 4) : (if mask = 0 then w.findIdx? tooWide else none) = none := by
    split
    · next hmask => exact List.findIdx?_eq_none_iff.2 (hok hbpp hmask)
    · rfl
  rw [encodeTiles, if_neg (not_not.2 hwhole), if_neg (Nat.not_lt.2 hsize), packed]
  split
  · next hbpp => rw [hnone hbpp]
  · rfl

/-- `TILE_ENC`, strict, on whole tiles with an index of 16 or more after none (R207). -/
theorem encodeTiles_tooWide {w : List Byte} {outSize k : Nat} {i : Byte} (hwhole : w.length % 64 = 0)
    (hsize : tileBytes 4 * (w.length / 64) ≤ outSize) (hi : w[k]? = some i) (hwide : tooWide i = true)
    (hbefore : ∀ x ∈ w.take k, tooWide x = false) :
    encodeTiles 4 0 w outSize = .error (.err .encodingError k) := by
  obtain ⟨hk, rfl⟩ := List.getElem?_eq_some_iff.1 hi
  have hfirst : w.findIdx? tooWide = some k := by
    refine List.findIdx?_eq_some_iff_getElem.2 ⟨hk, hwide, fun j hj => ?_⟩
    rw [Bool.not_eq_true, hbefore _ (List.mem_take_iff_getElem.2 ⟨j, by omega, rfl⟩)]
  rw [encodeTiles, if_neg (not_not.2 hwhole), if_neg (Nat.not_lt.2 hsize), if_pos rfl, if_pos rfl, hfirst]

section Tiles
variable {bpp : BitVec 4} {n : Nat} {w : List Byte}

/-- `TILE_DEC` on `n` packed tiles, with just enough of OUT. -/
theorem decodeTiles_tiles (h : w.length = tileBytes bpp * n) :
    decodeTiles bpp w (64 * n) = .ok (w.flatMap (pixelsOf bpp), tileBytes bpp * n) := by
  have hpos : 0 < tileBytes bpp := by unfold tileBytes; split <;> decide
  have hcount : tileCount bpp w.length = n := by rw [h]; exact Nat.mul_div_cancel_left n hpos
  have hok := decodeTiles_ok (bpp := bpp) (w := w) (outSize := 64 * n) (by rw [hcount])
  rwa [hcount, List.take_of_length_le h.le] at hok

/-- `TILE_ENC` on the pixels of `n` tiles, with just enough of OUT. -/
theorem encodeTiles_tiles {mask : BitVec 1} (h : w.length = 64 * n) (hok : Packable bpp mask w) :
    encodeTiles bpp mask w (tileBytes bpp * n) = .ok (packed bpp w, 64 * n) := by
  have hcount : w.length / 64 = n := by omega
  rw [encodeTiles_ok (by omega) (by rw [hcount]) hok, h]

/-- Packed, then unpacked at 4 bits per pixel, pixels come back as their low nibbles. -/
theorem decodeTiles_packPairs (h : w.length = 64 * n) :
    decodeTiles 4 (packPairs w) (64 * n) = .ok (w.map fun x => x &&& 0x0F, 32 * n) := by
  have hlength : (packPairs w).length = 32 * n := by rw [packPairs_length]; omega
  rw [← flatMap_unpackByte_packPairs (by omega)]
  exact decodeTiles_tiles (bpp := 4) hlength

/-- At 8 bits per pixel each of the commands is a copy (R203, R209). -/
theorem tiles_eight (mask : BitVec 1) (h : w.length = 64 * n) :
    decodeTiles 8 w (64 * n) = .ok (w, 64 * n) ∧ encodeTiles 8 mask w (64 * n) = .ok (w, 64 * n) := by
  have hdec := decodeTiles_tiles (bpp := 8) h
  rw [flatMap_pixelsOf_of_ne (by decide)] at hdec
  exact ⟨hdec, encodeTiles_tiles (bpp := 8) h nofun⟩

end Tiles

/-- Settles O58: the packed bytes unpack to the low nibbles of the pixels, at 8 bits per pixel to the pixels. -/
theorem unpackingInvertsPacking : Obligations.UnpackingInvertsPacking := by
  intro mask n w h
  obtain ⟨hdec, henc⟩ := tiles_eight mask h
  have hlow := decodeTiles_packPairs h
  refine ⟨fun hrange => ⟨packPairs w, ?strict, ?range⟩, ⟨w, henc, hdec⟩, ⟨packPairs w, ?masked, hlow⟩⟩
  case strict => exact encodeTiles_tiles (bpp := 4) h fun _ _ x hx => tooWide_eq_false_iff.2 (hrange x hx)
  case range => rwa [map_and_nibble hrange] at hlow
  case masked => exact encodeTiles_tiles (bpp := 4) h fun _ hmask => absurd hmask (by decide)

/-- Settles O59: the pixels of packed bytes pass the strict check and pack to the same bytes. -/
theorem packingInvertsUnpacking : Obligations.PackingInvertsUnpacking := by
  intro mask n p
  refine ⟨fun h => ⟨p.flatMap unpackByte, decodeTiles_tiles (bpp := 4) h, ?_⟩, fun h => ⟨p, tiles_eight mask h⟩⟩
  have hlength : (p.flatMap unpackByte).length = 64 * n := by rw [flatMap_unpackByte_length]; omega
  have hok : Packable 4 mask (p.flatMap unpackByte) := fun _ _ x hx => by
    obtain ⟨y, -, hx⟩ := List.mem_flatMap.1 hx
    exact tooWide_of_mem_unpackByte hx
  have henc := encodeTiles_tiles hlength hok
  rwa [packed, if_pos rfl, packPairs_flatMap_unpackByte] at henc

end Sys2Proof.Machine
end

section
/-! PROOFS. The tile raster unit: what one pixel element stores (R202, R203, R207 to R209), and `TILE_DEC` run
step by step, each element of the window adding its pixels to the output (R201 to R204). -/

namespace Sys2Proof.Machine

/-! ### One element -/

section Elements
variable {s : State}

/-- A packed byte whose two pixels fit OUT (R202). -/
theorem execPix4_ok (h : 2 * s.bi.toNat + 2 ≤ s.cfg.outSize) (p0 p1 : BitVec 4) :
    exec (.pix4 p0 p1) s = .next { s with
      bi := s.bi + 1, outMem := s.outMem.writeAll (2 * s.bi.toNat) [p0.setWidth 8, p1.setWidth 8] } := by
  rw [exec, execPix4, memWriteAll_ok [p0.setWidth 8, p1.setWidth 8] (.inr h)]

/-- A pixel byte that fits OUT (R203). -/
theorem execPix8_ok (h : s.bi.toNat < s.cfg.outSize) (p : Byte) :
    exec (.pix8 p) s = .next { s with bi := s.bi + 1, outMem := s.outMem.write s.bi.toNat p } := by
  rw [exec, execPix8, memWrite_ok p h]

/-- A strict index of 16 or more (R207). -/
theorem execIdx_tooWide {i : Byte} (hbpp : s.latch.bpp = 4) (hmask : s.latch.mask = 0) (hwide : tooWide i = true) :
    exec (.idx i) s = .next (raiseError .encodingError (idxPos s) s) := by
  rw [exec, execIdx, if_pos hbpp, if_pos ⟨hmask, hwide⟩]

/-- The first pixel of a pair is kept (R207, log 9). -/
theorem execIdx_first {i : Byte} (hbpp : s.latch.bpp = 4) (hok : ¬(s.latch.mask = 0 ∧ tooWide i = true))
    (hpix : s.pix = none) : exec (.idx i) s = .next { s with pix := some i } := by
  rw [exec, execIdx, if_pos hbpp, if_neg hok, hpix]

/-- The second pixel of a pair completes its byte (R207, R208). -/
theorem execIdx_second {i a : Byte} (hbpp : s.latch.bpp = 4) (hok : ¬(s.latch.mask = 0 ∧ tooWide i = true))
    (hpix : s.pix = some a) (hsize : s.bi.toNat < s.cfg.outSize) :
    exec (.idx i) s = .next { s with
      bi := s.bi + 1, pix := none, outMem := s.outMem.write s.bi.toNat (packPair a i) } := by
  rw [exec, execIdx, if_pos hbpp, if_neg hok, hpix]
  simp only [memWrite_ok _ hsize]

/-- At 8 bits per pixel the index is stored (R209). -/
theorem execIdx_copied (i : Byte) (hbpp : s.latch.bpp ≠ 4) (hsize : s.bi.toNat < s.cfg.outSize) :
    exec (.idx i) s = .next { s with bi := s.bi + 1, outMem := s.outMem.write s.bi.toNat i } := by
  rw [exec, execIdx, if_neg hbpp, memWrite_ok i hsize]

end Elements

/-- Settles O28: the stores of `PIX4` and of `PIX8`, read back. -/
theorem packedPixelsUnpackInOrder : Obligations.PackedPixelsUnpackInOrder := by
  intro s
  refine ⟨fun p0 p1 h => ?pix4, fun p h => ?pix8⟩
  case pix4 =>
    have hread {k : Nat} (hk : k < 2) := s.outMem.read_writeAll (2 * s.bi.toNat) [p0.setWidth 8, p1.setWidth 8] hk
    exact ⟨_, execPix4_ok h p0 p1, rfl, hread (k := 0) (by decide), hread (k := 1) (by decide),
      fun _ ha => s.outMem.read_writeAll_other _ ha⟩
  case pix8 => exact ⟨_, execPix8_ok h p, rfl, s.outMem.read_write_same _ p, fun _ ha => s.outMem.read_write_other p ha⟩

/-- Settles O29: an index is rejected, kept, packed with the one before it, or copied. -/
theorem pixelsPackInOrder : Obligations.PixelsPackInOrder := by
  intro i s
  have haccepted (h : s.latch.mask ≠ 0 ∨ i.toNat < 16) : ¬(s.latch.mask = 0 ∧ tooWide i = true) := by
    rintro ⟨hmask, hwide⟩
    simp only [tooWide, decide_eq_true_eq] at hwide
    exact h.elim (· hmask) (by omega)
  refine ⟨fun hbpp hmask hwide => ?wide, fun hbpp h hpix => execIdx_first hbpp (haccepted h) hpix,
    fun a hbpp h hpix hsize => ?second, fun hbpp hsize => ?copied⟩
  case wide =>
    have hexec := execIdx_tooWide hbpp hmask (decide_eq_true hwide)
    rw [idxPos, if_pos hbpp] at hexec
    exact failsWith_of_same (.refl s) hexec
  case second =>
    refine ⟨_, execIdx_second hbpp (haccepted h) hpix hsize, rfl, ?_, fun _ hb => s.outMem.read_write_other _ hb⟩
    rw [← packPair_eq_ofNat]
    exact s.outMem.read_write_same _ _
  case copied =>
    exact ⟨_, execIdx_copied i hbpp hsize, rfl, s.outMem.read_write_same _ i,
      fun _ hb => s.outMem.read_write_other i hb⟩

/-! ### The loop of `TILE_DEC` -/

/-- How many pixels a packed byte holds at a depth. -/
def pixelsPerByte (bpp : BitVec 4) : Nat := if bpp = 4 then 2 else 1

theorem pixelsOf_length (bpp : BitVec 4) (y : Byte) : (pixelsOf bpp y).length = pixelsPerByte bpp := by
  unfold pixelsOf pixelsPerByte
  split <;> rfl

/-- The instruction that a packed byte is at a depth (R101, R102). -/
def pixelInstr (bpp : BitVec 4) (y : Byte) : Instr := if bpp = 4 then decodePix4 y else .pix8 y

theorem decode_pixelCtx (l : PalLayout) (bpp : BitVec 4) (y : Byte) :
    decode l (pixelCtx bpp) [y] = .ok (pixelInstr bpp y, []) := by
  unfold pixelCtx pixelInstr
  split <;> rfl

theorem pixelCtx_size (bpp : BitVec 4) : (pixelCtx bpp).size = 1 := by
  unfold pixelCtx
  split <;> rfl

/-- A one-byte element is the byte of the window at its position (R68). -/
theorem fetchBytes_one {s : State} {k : Nat} {y : Byte} (hy : (window s)[k]? = some y) :
    fetchBytes 1 k s = .ok [y] := by
  obtain ⟨hk, -⟩ := List.getElem?_eq_some_iff.1 hy
  rw [window_length] at hk
  rw [window_getElem?_of_lt hk, Option.some_inj] at hy
  rw [← hy]
  exact fetchBytes_ok 1 (.inr hk)

/-- What the first `n` bytes of the window unpack to (R202, R203). -/
def unpackOutput (s : State) (n : Nat) : List Byte := ((window s).take n).flatMap (pixelsOf s.latch.bpp)

theorem unpackOutput_length {s : State} {n : Nat} (hn : n ≤ s.latch.len.toNat) :
    (unpackOutput s n).length = pixelsPerByte s.latch.bpp * n := by
  simp [unpackOutput, List.length_flatMap, pixelsOf_length, window_length, hn, Nat.mul_comm]

theorem unpackOutput_succ {s : State} {n : Nat} {y : Byte} (hy : (window s)[n]? = some y) :
    unpackOutput s (n + 1) = unpackOutput s n ++ pixelsOf s.latch.bpp y := by
  simp [unpackOutput, List.take_add_one, hy]

theorem unpackBytes_le (s : State) : unpackBytes s ≤ s.latch.len.toNat := Nat.mul_div_le _ _

/-- All pixels of the whole tiles (R201). -/
theorem pixelsPerByte_mul_unpackBytes (s : State) :
    pixelsPerByte s.latch.bpp * unpackBytes s = 64 * tileCount s.latch.bpp s.latch.len.toNat := by
  rw [← pixels_unpackBytes, pixelsPerByte]
  split
  · rfl
  · rw [Nat.one_mul]

/-- The state after the packed byte `y`: its pixels are stored, and it is counted. -/
def afterPacked (y : Byte) (s : State) : State :=
  { s with
    bi := s.bi + 1
    outMem := s.outMem.writeAll (pixelsPerByte s.latch.bpp * s.bi.toNat) (pixelsOf s.latch.bpp y) }

/-- A packed byte at either depth, when its pixels fit OUT. -/
theorem exec_pixelInstr {s : State} (y : Byte)
    (h : pixelsPerByte s.latch.bpp * (s.bi.toNat + 1) ≤ s.cfg.outSize) :
    exec (pixelInstr s.latch.bpp y) s = .next (afterPacked y s) := by
  unfold afterPacked
  unfold pixelInstr pixelsPerByte pixelsOf at *
  by_cases hbpp : s.latch.bpp = 4
  · simp only [if_pos hbpp] at h ⊢
    exact execPix4_ok h _ _
  · simp only [if_neg hbpp, Nat.one_mul] at h ⊢
    exact execPix8_ok h y

/-- In the loop over packed bytes: the pixels of those before `BI` are the output so far, and all of them fit OUT. -/
structure State.UnpackAt (s : State) : Prop where
  host : s.host = []
  run : s.run = .busy .unpack
  size : 64 * tileCount s.latch.bpp s.latch.len.toNat ≤ s.cfg.outSize
  bi : s.bi.toNat ≤ unpackBytes s
  spells : s.outMem.Spells (unpackOutput s s.bi.toNat)

namespace State.UnpackAt
variable {s : State} (h : s.UnpackAt)
include h

theorem decodeTiles_eq : decodeTiles s.latch.bpp (window s) s.cfg.outSize =
    .ok (unpackOutput s (unpackBytes s), unpackBytes s) := by
  have hlength := window_length s
  rw [decodeTiles_ok (by rw [hlength]; exact h.size), hlength]
  rfl

/-- After the last byte of the whole tiles the command completes (R204). -/
theorem done_ends (hbi : s.bi.toNat = unpackBytes s) :
    Ends s (decodeTiles s.latch.bpp (window s) s.cfg.outSize) := by
  have hnext : nextElement s = none := by simp [nextElement, h.run, hbi]
  have hstep : step s = .next (unpackDone s) := by
    rw [step_of_no_move h.host, blockStep, hnext]
    simp only [controlStep, h.run]
  rw [h.decodeTiles_eq]
  refine .of_done (hbi ▸ h.spells) ?_
  rw [hstep, unpackDone, unpackOutput_length (unpackBytes_le s), pixelsPerByte_mul_unpackBytes]

variable {y : Byte} (hbi : s.bi.toNat < unpackBytes s) (hy : (window s)[s.bi.toNat]? = some y)
include hbi hy

/-- A step before the last byte runs the byte (R202, R203). -/
theorem step_packed : step s = .next (afterPacked y s) := by
  have hnext : nextElement s = some (pixelCtx s.latch.bpp, s.bi.toNat, s) := by
    simp only [nextElement, h.run, if_pos hbi]
  have hfits : pixelsPerByte s.latch.bpp * (s.bi.toNat + 1) ≤ s.cfg.outSize :=
    (Nat.mul_le_mul_left _ hbi).trans (pixelsPerByte_mul_unpackBytes s ▸ h.size)
  rw [stepRunsTheDecodedElement _ _ _ _ _ _ _ h.host hnext (pixelCtx_size _ ▸ fetchBytes_one hy)
    (decode_pixelCtx _ _ y)]
  exact exec_pixelInstr y hfits

/-- The pixels of the byte are the next of the output. -/
theorem after_packed : (afterPacked y s).UnpackAt ∧ (afterPacked y s).bi.toNat = s.bi.toNat + 1 := by
  have hle := unpackBytes_le s
  have hnext : (afterPacked y s).bi.toNat = s.bi.toNat + 1 := by
    change (s.bi + 1).toNat = s.bi.toNat + 1
    bv_omega
  have hspells := h.spells.append (pixelsOf s.latch.bpp y)
  rw [unpackOutput_length (hbi.le.trans hle), ← unpackOutput_succ hy, ← hnext] at hspells
  exact ⟨{ h with bi := hnext ▸ hbi, spells := hspells }, hnext⟩

end State.UnpackAt

/-- From any packed byte on, the steps reach what the function gives of the window, by the number of bytes left. -/
theorem unpack_ends {left : Nat} {s : State} (h : s.UnpackAt) (hleft : s.bi.toNat + left = unpackBytes s) :
    Ends s (decodeTiles s.latch.bpp (window s) s.cfg.outSize) := by
  induction left generalizing s with
  | zero => exact h.done_ends hleft
  | succ left ih =>
    have hbi : s.bi.toNat < unpackBytes s := by omega
    have hy := window_getElem?_of_lt (hbi.trans_le (unpackBytes_le s))
    obtain ⟨hat, hnext⟩ := h.after_packed hbi hy
    exact .of_step (h.step_packed hbi hy) (ih hat (by rw [hnext, Nat.add_assoc, Nat.add_comm 1]; exact hleft))

/-- Settles O48: the `START` raises the overflow that the function gives, or the loop over the packed bytes begins. -/
theorem tileDecStepsReachItsFunction : Obligations.TileDecStepsReachItsFunction := by
  intro s _ hhost h
  by_cases hsize : s.cfg.outSize < 64 * tileCount s.bpp s.srcLen.toNat
  · rw [decodeTiles, inputOf_length]
    simp only [if_pos hsize]
    exact runsTo_of_start_error hhost (execTileDec_full h hsize)
  · have hsame : SameInputs s { begun 5 .unpack s with bi := 0 } := ⟨rfl, rfl, rfl, rfl, rfl, rfl, rfl, rfl, rfl⟩
    refine runsTo_of_ends (execTileDec_ok h hsize) hsame hhost ?_
    exact unpack_ends (s := { begun 5 .unpack s with bi := 0 })
      ⟨hhost, rfl, Nat.le_of_not_lt hsize, Nat.zero_le _, Memory.spells_nil⟩ (Nat.zero_add _)

end Sys2Proof.Machine
end

section
/-! PROOFS. `TILE_ENC` run step by step reaches what its function says: each pixel of the window is kept, completes a
packed byte, is copied, or is the lowest that a strict check rejects (R206 to R210). -/

namespace Sys2Proof.Machine

/-! ### Places and outputs -/

/-- For whole tiles the packed bytes take all pixels of the window (R206, R210). -/
theorem pixelsPerByte_mul_packBytes {s : State} (hwhole : s.latch.len.toNat % 64 = 0) :
    pixelsPerByte s.latch.bpp * packBytes s = s.latch.len.toNat := by
  unfold pixelsPerByte packBytes tileBytes
  split <;> omega

/-- `BI` counts a packed byte without wrapping. -/
theorem bi_succ_toNat {s : State} (hbi : s.bi.toNat < packBytes s) : (s.bi + 1).toNat = s.bi.toNat + 1 := by
  have hle : packBytes s ≤ s.latch.len.toNat := by unfold packBytes tileBytes; split <;> omega
  bv_omega

/-- The place in the window: the pixels of the packed bytes before `BI`, and one more when a first pixel is kept. -/
theorem idxPos_of_none {s : State} (hpix : s.pix = none) : idxPos s = pixelsPerByte s.latch.bpp * s.bi.toNat := by
  rw [idxPos, pixelsPerByte, hpix]
  split
  · rfl
  · rw [Nat.one_mul]

theorem idxPos_of_some {s : State} {a : Byte} (hbpp : s.latch.bpp = 4) (hpix : s.pix = some a) :
    idxPos s = 2 * s.bi.toNat + 1 := by
  rw [idxPos, if_pos hbpp, hpix]
  rfl

/-- What the first pixels of the window pack to, up to the packed byte `n` (R207, R209). -/
def packOutput (s : State) (n : Nat) : List Byte :=
  packed s.latch.bpp ((window s).take (pixelsPerByte s.latch.bpp * n))

theorem packOutput_zero (s : State) : packOutput s 0 = [] := by
  rw [packOutput, Nat.mul_zero, List.take_zero, packed]
  split <;> rfl

theorem packed_length {bpp : BitVec 4} {w : List Byte} {n : Nat} (h : w.length = pixelsPerByte bpp * n) :
    (packed bpp w).length = n := by
  unfold packed
  unfold pixelsPerByte at h
  split
  · next hbpp => rw [if_pos hbpp] at h; rw [packPairs_length]; omega
  · next hbpp => rw [if_neg hbpp] at h; omega

/-- In the loop over pixels: the packed bytes before `BI` are the output so far, all of them fit OUT, a kept pixel is
the first of its pair, and no pixel so far is one that the strict check rejects. -/
structure State.PackAt (s : State) : Prop where
  host : s.host = []
  run : s.run = .busy .pack
  whole : s.latch.len.toNat % 64 = 0
  size : packBytes s ≤ s.cfg.outSize
  bi : s.bi.toNat ≤ packBytes s
  pix : ∀ a, s.pix = some a → s.latch.bpp = 4 ∧ s.bi.toNat < packBytes s ∧ (window s)[2 * s.bi.toNat]? = some a
  packable : Packable s.latch.bpp s.latch.mask ((window s).take (idxPos s))
  spells : s.outMem.Spells (packOutput s s.bi.toNat)

/-- One more pixel that passes the check. -/
theorem Packable.take_succ {bpp : BitVec 4} {mask : BitVec 1} {w : List Byte} {k : Nat} {i : Byte}
    (h : Packable bpp mask (w.take k)) (hi : w[k]? = some i) (hok : ¬(bpp = 4 ∧ mask = 0 ∧ tooWide i = true)) :
    Packable bpp mask (w.take (k + 1)) := fun hbpp hmask x hx => by
  rw [List.take_add_one, hi, List.mem_append] at hx
  obtain hx | hx := hx
  · exact h hbpp hmask x hx
  · obtain rfl : x = i := by simpa using hx
    exact Bool.eq_false_iff.2 fun hwide => hok ⟨hbpp, hmask, hwide⟩

/-- One more pair is one more packed byte (R207). -/
theorem packPairs_take_succ {w : List Byte} {n : Nat} {a b : Byte} (ha : w[2 * n]? = some a)
    (hb : w[2 * n + 1]? = some b) :
    packPairs (w.take (2 * (n + 1))) = packPairs (w.take (2 * n)) ++ [packPair a b] := by
  obtain ⟨hlt, -⟩ := List.getElem?_eq_some_iff.1 ha
  have heven : (w.take (2 * n)).length % 2 = 0 := by rw [List.length_take]; omega
  have htake : w.take (2 * (n + 1)) = w.take (2 * n) ++ [a, b] := by
    rw [Nat.mul_succ, List.take_add_one, List.take_add_one, ha, hb, List.append_assoc]
    rfl
  rw [htake, packPairs_append _ heven]
  rfl

/-- The result of `TILE_ENC` on the latched window and mode. -/
def packResult (s : State) : CommandResult := encodeTiles s.latch.bpp s.latch.mask (window s) s.cfg.outSize

/-- The state after a packed byte `v`: it is stored and counted, and no first pixel is kept. -/
def afterPackedByte (v : Byte) (s : State) : State :=
  { s with bi := s.bi + 1, pix := none, outMem := s.outMem.write s.bi.toNat v }

/-! ### The steps -/

namespace State.PackAt
variable {s : State} (h : s.PackAt)
include h

/-- A packed byte is to come exactly while a pixel is. -/
theorem bi_lt_iff : s.bi.toNat < packBytes s ↔ idxPos s < s.latch.len.toNat := by
  have hall := pixelsPerByte_mul_packBytes h.whole
  cases hpix : s.pix with
  | none =>
    have hpos : 0 < pixelsPerByte s.latch.bpp := by unfold pixelsPerByte; split <;> decide
    rw [idxPos_of_none hpix, ← hall, Nat.mul_lt_mul_left hpos]
  | some a =>
    obtain ⟨hbpp, hlt, -⟩ := h.pix a hpix
    rw [pixelsPerByte, if_pos hbpp] at hall
    rw [idxPos_of_some hbpp hpix]
    omega

theorem packOutput_length : (packOutput s s.bi.toNat).length = s.bi.toNat := by
  refine packed_length ?_
  have hall := pixelsPerByte_mul_packBytes h.whole
  have hle := Nat.mul_le_mul_left (pixelsPerByte s.latch.bpp) h.bi
  rw [List.length_take, window_length]
  omega

/-- After the last pixel the command completes (R210). -/
theorem done_ends (hpos : idxPos s = s.latch.len.toNat) : Ends s (packResult s) := by
  have hlength := window_length s
  have hbi : ¬ s.bi.toNat < packBytes s := by rw [h.bi_lt_iff, hpos]; exact lt_irrefl _
  have hend : s.bi.toNat = packBytes s := Nat.le_antisymm h.bi (Nat.le_of_not_lt hbi)
  have hnext : nextElement s = none := by simp only [nextElement, h.run, if_neg hbi]
  have hstep : step s = .next (packDone s) := by
    rw [step_of_no_move h.host, blockStep, hnext]
    simp only [controlStep, h.run]
  have hpackable := h.packable
  rw [hpos, ← hlength, List.take_length] at hpackable
  have hspells := h.spells
  have hout := h.packOutput_length
  rw [hend, packOutput, pixelsPerByte_mul_packBytes h.whole, ← hlength, List.take_length] at hspells hout
  have hresult : packResult s = .ok (packed s.latch.bpp (window s), (window s).length) :=
    encodeTiles_ok (hlength ▸ h.whole) (hlength ▸ h.size) hpackable
  rw [hresult, hlength]
  exact .of_done hspells (by rw [hstep, packDone, hout])

variable {i : Byte} (hi : (window s)[idxPos s]? = some i)
include hi

/-- A step before the last pixel runs the pixel. -/
theorem step_idx (hbi : s.bi.toNat < packBytes s) : step s = exec (.idx i) s := by
  have hnext : nextElement s = some (.idx, idxPos s, s) := by simp only [nextElement, h.run, if_pos hbi]
  exact stepRunsTheDecodedElement _ _ _ _ _ _ _ h.host hnext (fetchBytes_one hi) rfl

/-- The first pixel that the strict check rejects is the error of the command (R207). -/
theorem tooWide_ends (hbi : s.bi.toNat < packBytes s) (hbpp : s.latch.bpp = 4) (hmask : s.latch.mask = 0)
    (hwide : tooWide i = true) : Ends s (packResult s) := by
  have hwhole := h.whole
  have hsize := h.size
  rw [packBytes, hbpp] at hsize
  rw [← window_length s] at hwhole hsize
  rw [packResult, hbpp, hmask, encodeTiles_tooWide hwhole hsize hi hwide (h.packable hbpp hmask)]
  exact .of_error ((h.step_idx hi hbi).trans (execIdx_tooWide hbpp hmask hwide))

variable (hok : ¬(s.latch.bpp = 4 ∧ s.latch.mask = 0 ∧ tooWide i = true))
include hok

/-- The next packed byte of the output is stored, and the pixels up to it have been read. -/
theorem after_packedByte {v : Byte} (hbi : s.bi.toNat < packBytes s)
    (hpos : idxPos s + 1 = pixelsPerByte s.latch.bpp * (s.bi.toNat + 1))
    (hout : packOutput s (s.bi.toNat + 1) = packOutput s s.bi.toNat ++ [v]) :
    (afterPackedByte v s).PackAt ∧ idxPos (afterPackedByte v s) = idxPos s + 1 := by
  have hsucc := bi_succ_toNat hbi
  have hnext : idxPos (afterPackedByte v s) = idxPos s + 1 := by
    rw [hpos, ← hsucc]
    exact idxPos_of_none rfl
  have hspells := h.spells.snoc v
  rw [h.packOutput_length, ← hout, ← hsucc] at hspells
  have hpackable := h.packable.take_succ hi hok
  rw [← hnext] at hpackable
  exact ⟨{ h with bi := hsucc ▸ hbi, pix := nofun, packable := hpackable, spells := hspells }, hnext⟩

/-- The first pixel of a pair is kept, and the output stays (R207). -/
theorem after_first (hbi : s.bi.toNat < packBytes s) (hbpp : s.latch.bpp = 4) (hpix : s.pix = none) :
    State.PackAt { s with pix := some i } ∧ idxPos { s with pix := some i } = idxPos s + 1 := by
  have hpos : idxPos s = 2 * s.bi.toNat := by rw [idxPos_of_none hpix, pixelsPerByte, if_pos hbpp]
  have hnext : idxPos { s with pix := some i } = idxPos s + 1 := by
    rw [hpos]
    exact idxPos_of_some hbpp rfl
  have hkept : ∀ a, some i = some a →
      s.latch.bpp = 4 ∧ s.bi.toNat < packBytes s ∧ (window s)[2 * s.bi.toNat]? = some a :=
    fun a ha => ⟨hbpp, hbi, by rw [← hpos, hi, ha]⟩
  have hpackable := h.packable.take_succ hi hok
  rw [← hnext] at hpackable
  exact ⟨{ h with pix := hkept, packable := hpackable }, hnext⟩

/-- A pixel that passes the check leads one pixel further. -/
theorem advances (hbi : s.bi.toNat < packBytes s) :
    ∃ u, step s = .next u ∧ u.latch = s.latch ∧ packResult u = packResult s ∧ u.PackAt ∧ idxPos u = idxPos s + 1 := by
  have hsize := hbi.trans_le h.size
  have hstep := h.step_idx hi hbi
  by_cases hbpp : s.latch.bpp = 4
  · have hnarrow : ¬(s.latch.mask = 0 ∧ tooWide i = true) := fun hwide => hok ⟨hbpp, hwide⟩
    cases hpix : s.pix with
    | none => exact ⟨_, hstep.trans (execIdx_first hbpp hnarrow hpix), rfl, rfl, h.after_first hi hok hbi hbpp hpix⟩
    | some a =>
      obtain ⟨-, -, ha⟩ := h.pix a hpix
      have hpos := idxPos_of_some hbpp hpix
      refine ⟨_, hstep.trans (execIdx_second hbpp hnarrow hpix hsize), rfl, rfl, h.after_packedByte hi hok hbi ?_ ?_⟩
      · rw [hpos, pixelsPerByte, if_pos hbpp]
        rfl
      · rw [hpos] at hi
        simp only [packOutput, packed, pixelsPerByte, if_pos hbpp]
        exact packPairs_take_succ ha hi
  · have hpix : s.pix = none := Option.eq_none_iff_forall_ne_some.2 fun a ha => hbpp (h.pix a ha).1
    have hpos : idxPos s = s.bi.toNat := by rw [idxPos, if_neg hbpp]
    have hexec : exec (.idx i) s = .next (afterPackedByte i s) := by
      rw [execIdx_copied i hbpp hsize, afterPackedByte, ← hpix]
    refine ⟨_, hstep.trans hexec, rfl, rfl, h.after_packedByte hi hok hbi ?_ ?_⟩
    · rw [hpos, pixelsPerByte, if_neg hbpp, Nat.one_mul]
    · rw [hpos] at hi
      simp only [packOutput, packed, pixelsPerByte, if_neg hbpp, Nat.one_mul]
      rw [List.take_add_one, hi]
      rfl

end State.PackAt

/-- From any pixel on, the steps reach what the function gives of the window, by the number of pixels left. -/
theorem pack_ends {left : Nat} {s : State} (h : s.PackAt) (hleft : idxPos s + left = s.latch.len.toNat) :
    Ends s (packResult s) := by
  induction left generalizing s with
  | zero => exact h.done_ends hleft
  | succ left ih =>
    have hpos : idxPos s < s.latch.len.toNat := by omega
    have hbi := h.bi_lt_iff.2 hpos
    have hi := window_getElem?_of_lt hpos
    by_cases hwide : s.latch.bpp = 4 ∧ s.latch.mask = 0 ∧ tooWide (inByte s (s.latch.off.toNat + idxPos s)) = true
    · obtain ⟨hbpp, hmask, hwide⟩ := hwide
      exact h.tooWide_ends hi hbi hbpp hmask hwide
    · obtain ⟨u, hstep, hlatch, hresult, hat, hnext⟩ := h.advances hi hwide hbi
      have hrest : idxPos u + left = u.latch.len.toNat := by rw [hlatch, hnext]; omega
      exact .of_step hstep (hresult ▸ ih hat hrest)

/-- Whole tiles that fit OUT, from the first pixel on. -/
theorem tileEnc_begun_ends {s : State} (hhost : s.host = []) (hwhole : s.srcLen.toNat % 64 = 0)
    (hsize : tileBytes s.bpp * (s.srcLen.toNat / 64) ≤ s.cfg.outSize) :
    Ends { begun 6 .pack s with bi := 0, pix := none } (encodeTiles s.bpp s.mask (inputOf s) s.cfg.outSize) := by
  have hpos : idxPos { begun 6 .pack s with bi := 0, pix := none } = 0 := idxPos_of_none rfl
  have hat : State.PackAt { begun 6 .pack s with bi := 0, pix := none } :=
    { host := hhost, run := rfl, whole := hwhole, size := hsize, bi := Nat.zero_le _, pix := nofun
      packable := by rw [hpos]; exact fun _ _ => List.forall_mem_nil _
      spells := fun a => congrArg (·[a]?) (packOutput_zero _).symm }
  exact pack_ends hat (by rw [hpos]; exact Nat.zero_add _)

/-- Settles O49: the `START` raises one of its two errors, or the loop over the pixels begins. -/
theorem tileEncStepsReachItsFunction : Obligations.TileEncStepsReachItsFunction := by
  intro s _ hhost h
  by_cases hwhole : s.srcLen.toNat % 64 ≠ 0
  · rw [encodeTiles, inputOf_length, if_pos hwhole]
    exact runsTo_of_start_error hhost (execTileEnc_ragged h hwhole)
  by_cases hsize : s.cfg.outSize < tileBytes s.bpp * (s.srcLen.toNat / 64)
  · rw [encodeTiles, inputOf_length, if_neg hwhole, if_pos hsize]
    exact runsTo_of_start_error hhost (execTileEnc_full h hwhole hsize)
  have hsame : SameInputs s { begun 6 .pack s with bi := 0, pix := none } :=
    ⟨rfl, rfl, rfl, rfl, rfl, rfl, rfl, rfl, rfl⟩
  exact runsTo_of_ends (execTileEnc_ok h hwhole hsize) hsame hhost
    (tileEnc_begun_ends hhost (not_not.1 hwhole) (Nat.le_of_not_lt hsize))

end Sys2Proof.Machine
end

section
/-! PROOFS. How the host waits for the block (R227), and the `START` of every command: one launch, which depends on the
state only through `BUSY` and the state it begins in (R220, R225, R226), and whose validation comes in the order of
R221. -/

namespace Sys2Proof.Machine

/-! ### Waiting for the block -/

/-- A poll is made again exactly while the block is `BUSY` (R227). -/
theorem stillPolling_poll (s : State) : stillPolling .poll s = s.busy := rfl

theorem step_poll_busy {s : State} {rest : List HostMove} (hb : s.busy = true) :
    step { s with host := .poll :: rest } = blockStep { s with host := .poll :: rest } :=
  if_pos ((stillPolling_poll _).trans hb)

theorem step_poll_not_busy {s : State} {rest : List HostMove} (hb : s.busy = false) :
    step { s with host := .poll :: rest } = .next { s with host := rest, hostData := s.run.code.setWidth 32 } :=
  if_neg (Bool.eq_false_iff.1 ((stillPolling_poll _).trans hb))

theorem step_letRun (s : State) (rest : List HostMove) :
    step { s with host := .letRun :: rest } = blockStep { s with host := rest } := rfl

/-- Settles O9, by whether the poll reads `BUSY`. -/
theorem pollingLetsTheBlockRun : Obligations.PollingLetsTheBlockRun := fun s rest =>
  ⟨step_poll_busy, step_poll_not_busy, step_letRun s rest⟩

/-! ### A command's `START` is a launch -/

/-- Every command is the launch of its own number, and the depth is validated for the tile commands only
(R220, R221). -/
theorem exec_command_launch {i : Instr} (hi : i ∈ commands) :
    ∃ p f, ∀ s, exec i s = launch i.opc p (decide (i ∈ tileCommands)) f s := by
  simp only [commands, List.mem_cons, List.not_mem_nil, or_false] at hi
  obtain rfl | rfl | rfl | rfl | rfl | rfl := hi <;> exact ⟨_, _, fun _ => rfl⟩

/-- Beside `BUSY`, a launch sees nothing of the state but what the command begins in. -/
theorem launch_congr {opc : BitVec 3} {p : Phase} {tile : Bool} {f : State → Attempt State} {s t : State}
    (hs : s.busy = false) (ht : t.busy = false) (h : beginCommand opc p s = beginCommand opc p t) :
    launch opc p tile f s = launch opc p tile f t := by
  rw [launch, launch, if_neg (Bool.eq_false_iff.1 hs), if_neg (Bool.eq_false_iff.1 ht), h]

/-- Settles O14: a command that begins overwrites every result an earlier one left. -/
theorem startForgetsEarlierResults : Obligations.StartForgetsEarlierResults := by
  intro i hi s r e x y z m
  refine ⟨fun hb => exec_command_busy hb hi, fun hr => ?_⟩
  obtain ⟨p, f, hlaunch⟩ := exec_command_launch hi
  rw [hlaunch, hlaunch]
  exact launch_congr ((not_busy_iff _).2 hr) rfl rfl

/-- Settles O11: the two commands do nothing before their header. -/
theorem decompressionCommandsBegin : Obligations.DecompressionCommandsBegin := fun _ =>
  ⟨fun h => launch_header h.notBusy h.inside, fun h => launch_header h.notBusy h.inside⟩

/-! ### Validation (R221) -/

/-- The depth is tested before the window. -/
theorem validate_badDepth {s : State} (h : legalBpp s.latch.bpp = false) :
    validate true s = .error (.err .badCommand 1) := if_pos (by rw [h]; rfl)

theorem validate_badWindow {tile : Bool} {s : State} (hdepth : tile = true → legalBpp s.latch.bpp = true)
    (hwindow : s.cfg.inSize < s.latch.off.toNat + s.latch.len.toNat) :
    validate tile s = .error (.err .badCommand 2) := by
  have hpass : ¬ (tile && !legalBpp s.latch.bpp) = true := by
    cases tile with
    | false => simp
    | true => simp [hdepth rfl]
  rw [validate, if_neg hpass, if_pos hwindow]

/-- A `START` that fails validation raises the error of the test. -/
theorem launch_invalid {opc : BitVec 3} {p : Phase} {tile : Bool} {f : State → Attempt State} {s : State} {e : ErrCode}
    {info : Nat} (hb : s.busy = false) (hv : validate tile (beginCommand opc p s) = .error (.err e info)) :
    FailsWith e info s (launch opc p tile f s) := by
  refine failsWith_of_same (beginCommand_same opc p s) ?_
  rw [launch, if_neg (Bool.eq_false_iff.1 hb), hv]
  rfl

section Validation
variable {i : Instr} (hi : i ∈ commands) {s : State}
include hi

/-- The second test: the depth of a tile command. -/
theorem exec_command_badDepth (hb : s.busy = false) (htile : i ∈ tileCommands) (hbpp : ¬ (s.bpp = 4 ∨ s.bpp = 8)) :
    FailsWith .badCommand 1 s (exec i s) := by
  obtain ⟨p, f, hlaunch⟩ := exec_command_launch hi
  rw [hlaunch, decide_eq_true htile]
  exact launch_invalid hb (validate_badDepth (Bool.eq_false_iff.2 (mt (legalBpp_iff s.bpp).1 hbpp)))

/-- The third test: the window, once the depth has passed. -/
theorem exec_command_badWindow (hb : s.busy = false) (hdepth : i ∈ tileCommands → s.bpp = 4 ∨ s.bpp = 8)
    (hwindow : s.cfg.inSize < s.srcOff.toNat + s.srcLen.toNat) : FailsWith .badCommand 2 s (exec i s) := by
  obtain ⟨p, f, hlaunch⟩ := exec_command_launch hi
  rw [hlaunch]
  exact launch_invalid hb
    (validate_badWindow (fun ht => (legalBpp_iff s.bpp).2 (hdepth (of_decide_eq_true ht))) hwindow)

/-- A command that passes the tests begins, or raises an error of its own. -/
theorem exec_command_accepted (h : CanStart i s) : ∃ t, exec i s = .next t ∧ t.err ≠ .badCommand := by
  simp only [commands, List.mem_cons, List.not_mem_nil, or_false] at hi
  obtain rfl | rfl | rfl | rfl | rfl | rfl := hi
  · exact ⟨_, (decompressionCommandsBegin s).1 h, nofun⟩
  · obtain ⟨-, hexec⟩ | ⟨-, -, hexec⟩ | ⟨-, -, m, hexec, -⟩ := execLzComp_cases h <;> exact ⟨_, hexec, nofun⟩
  · exact ⟨_, (decompressionCommandsBegin s).2 h, nofun⟩
  · by_cases hsize : s.cfg.outSize < 3 * entryCount s.srcLen.toNat
    · exact ⟨_, execPalDec_full h hsize, nofun⟩
    · exact ⟨_, execPalDec_ok h hsize, nofun⟩
  · by_cases hsize : s.cfg.outSize < 64 * tileCount s.bpp s.srcLen.toNat
    · exact ⟨_, execTileDec_full h hsize, nofun⟩
    · exact ⟨_, execTileDec_ok h hsize, nofun⟩
  · by_cases hwhole : s.srcLen.toNat % 64 ≠ 0
    · exact ⟨_, execTileEnc_ragged h hwhole, nofun⟩
    by_cases hsize : s.cfg.outSize < tileBytes s.bpp * (s.srcLen.toNat / 64)
    · exact ⟨_, execTileEnc_full h hwhole hsize, nofun⟩
    · exact ⟨_, execTileEnc_ok h hwhole hsize, nofun⟩

end Validation

/-- The reserved numbers are 0 and 7 (R105). -/
theorem decodeCommand_commandByte_eq_none_iff (s : State) :
    decodeCommand (commandByte s) = none ↔ s.opc = 0 ∨ s.opc = 7 := by
  have hall : ∀ b : BitVec 3, decodeCommand (b.setWidth 8) = none ↔ b = 0 ∨ b = 7 := by decide
  exact hall s.opc

/-- The tile commands by their numbers (R105). -/
theorem mem_tileCommands_iff : ∀ i ∈ commands, (i ∈ tileCommands ↔ i.opc = 5 ∨ i.opc = 6) := by decide

/-- The first test: a `START` with a reserved number. -/
theorem startCommand_badNumber {s : State} (hb : s.busy = false) (hopc : s.opc = 0 ∨ s.opc = 7) :
    FailsWith .badCommand 0 s (startCommand s) := by
  rw [startCommand_reserved ((decodeCommand_commandByte_eq_none_iff s).2 hopc), launchReserved,
    if_neg (Bool.eq_false_iff.1 hb)]
  exact failsWith_of_same (beginCommand_same s.opc .header s) rfl

/-- A `START` with any other number runs the command that has it. -/
theorem startCommand_runs {s : State} (hopc : ¬ (s.opc = 0 ∨ s.opc = 7)) :
    ∃ i ∈ commands, i.opc = s.opc ∧ startCommand s = exec i s := by
  obtain ⟨i, hi⟩ := Option.ne_none_iff_exists'.1 (mt (decodeCommand_commandByte_eq_none_iff s).1 hopc)
  exact ⟨i, decodeCommand_mem hi, opc_of_decodeCommand hi, startCommand_of_command hi⟩

/-- Settles O10, test by test; what passes all three can start. -/
theorem startValidatesInOrder : Obligations.StartValidatesInOrder := by
  intro s v rest hb hv r s'
  have hr : r = startCommand s' := (step_writeReg 0 v s rest).trans (hostWriteReg_start hv s')
  rw [hr]
  split
  · next hopc => exact startCommand_badNumber hb hopc
  next hopc =>
  obtain ⟨i, hi, hnumber, hexec⟩ := startCommand_runs (s := s') hopc
  have htile : i ∈ tileCommands ↔ s.opc = 5 ∨ s.opc = 6 := hnumber ▸ mem_tileCommands_iff i hi
  rw [hexec]
  split
  · next hbad => exact exec_command_badDepth hi hb (htile.2 hbad.1) (not_or.2 hbad.2)
  next hpass =>
  have hdepth : i ∈ tileCommands → s.bpp = 4 ∨ s.bpp = 8 := fun ht => by
    by_contra hbpp
    exact hpass ⟨htile.1 ht, not_or.1 hbpp⟩
  split
  · next hwindow => exact exec_command_badWindow hi hb hdepth hwindow
  · next hinside => exact exec_command_accepted hi ⟨hb, Nat.le_of_not_lt hinside, hdepth⟩

end Sys2Proof.Machine
end

section
/-! PROOFS. The errors by name: taking one (R253), those that a step of a decompressing command raises before it runs
an element (R242, R243, R245) or for a back-reference (R246), and those each command's function can end with
(R252). -/

namespace Sys2Proof.Machine

/-- Settles O31: the state that taking an error gives. -/
theorem errorEntryWritesOnlyTheResultRegisters : Obligations.ErrorEntryWritesOnlyTheResultRegisters :=
  fun e info s => ⟨_, conclude_err s e info, rfl, saturate_toNat info, fun _ => rfl⟩

/-- Settles O18: the source pointer is negative. -/
theorem backReferenceBeforeOutputFails : Obligations.BackReferenceBeforeOutputFails :=
  fun _ _ s h => failsWith_of_same (.refl s) (execRef_bad h)

/-- Settles O23: a flag byte or a token without its first byte, and a back-reference without its second. -/
theorem streamStepReportsMissingBytes : Obligations.StreamStepReportsMissingBytes := by
  intro s hhost hrun h
  refine ⟨fun hip => ?first, fun hf hbit hip =>
    failsWith_of_same (selectToken_same s) (step_ref_missing hrun hhost h hf hbit hip)⟩
  case first =>
    by_cases hf : s.fcnt = 0
    · exact failsWith_of_same (.refl s) (step_flag_missing hrun hhost h hf hip)
    · exact failsWith_of_same (selectToken_same s) (step_token_missing hrun hhost h hf hip)

/-! ### Headers -/

theorem headerCtx_size (opc : BitVec 3) : (headerCtx opc).size = 4 := by
  unfold headerCtx
  split <;> rfl

section Header
variable {s : State} (hhost : s.host = []) (hrun : s.run = .busy .header)
include hhost hrun

theorem step_header_short (hlen : s.latch.len.toNat < 4) :
    step s = .next (raiseError .inputUnderrun s.latch.len.toNat s) := by
  refine step_fetch_error hhost (nextElement_header hrun) ?_
  rw [headerCtx_size]
  exact fetchBytes_missing 4 (by omega) (Nat.zero_le _)

variable (hlen : 4 ≤ s.latch.len.toNat)
include hlen

theorem step_header_unsupported (hopc : s.latch.opc = Instr.lzDecomp.opc) (h0 : (headerByte s 0).toNat / 16 ≠ 1) :
    step s = .next (raiseError .unsupportedMethod (headerByte s 0).toNat s) := by
  have hnext := nextElement_header hrun
  rw [headerCtx, if_pos hopc] at hnext
  refine step_reject (r := .unsupportedMethod (headerByte s 0)) hhost hnext (fetchBytes_header hlen) ?_
  rw [decode, decodeHeaderDirect, if_neg (mt (methodOf_eq_one_iff _).1 h0)]
  rfl

theorem step_header_unknown (hopc : s.latch.opc ≠ Instr.lzDecomp.opc) (h0 : headerByte s 0 ≠ 0x00)
    (h1 : headerByte s 0 ≠ 0x10) :
    step s = .next (raiseError .unknownCompressionType (headerByte s 0).toNat s) := by
  have hnext := nextElement_header hrun
  rw [headerCtx, if_neg hopc] at hnext
  exact step_wrappedHeader_reject hlen hhost hnext ((if_neg h0).trans (if_neg h1))

end Header

/-- Settles O21: a short window, then the header byte that the command does not take. -/
theorem headerStepRejectsWhatItsCommandDoesNotTake : Obligations.HeaderStepRejectsWhatItsCommandDoesNotTake := by
  intro s hhost hrun h0
  refine ⟨fun hlen => ?short, fun hlen hopc hmethod => ?method, fun hlen hopc hraw hlz => ?type⟩
  case short => exact failsWith_of_same (.refl s) (step_header_short hhost hrun hlen)
  case method => exact failsWith_of_same (.refl s) (step_header_unsupported hhost hrun hlen hopc hmethod)
  case type =>
    exact failsWith_of_same (.refl s) (step_header_unknown hhost hrun hlen (by rw [hopc]; decide) hraw hlz)

/-! ### The functions of the commands -/

/-- The attempt ends with no error but those listed. -/
def RaisesOnly {α : Type} (es : List ErrCode) (a : Attempt α) : Prop := ∀ e info, a = .error (.err e info) → e ∈ es

section RaisesOnly
variable {α : Type} {es : List ErrCode}

theorem raisesOnly_ok (x : α) : RaisesOnly es (.ok x) := nofun

theorem raisesOnly_err {e : ErrCode} (info : Nat) (h : e ∈ es) : RaisesOnly (α := α) es (.error (.err e info)) := by
  rintro _ _ ⟨⟩
  exact h

theorem RaisesOnly.mono {es' : List ErrCode} {a : Attempt α} (h : RaisesOnly es a) (hsub : es ⊆ es') :
    RaisesOnly es' a := fun e info ha => hsub (h e info ha)

/-- A piece that ends early ends the whole with its own error. -/
theorem RaisesOnly.of_piece {β : Type} {a : Attempt β} {e : Stop} (ha : RaisesOnly es a) (h : a = .error e) :
    RaisesOnly (α := α) es (.error e) := by
  rintro e' info ⟨⟩
  exact ha e' info h

end RaisesOnly

/-- A token lacks a byte or refers back too far (R141). -/
theorem lzToken_raisesOnly (w : List Byte) (ulen ip : Nat) (bit : Bool) (out : List Byte) :
    RaisesOnly [.inputUnderrun, .badBackref] (lzToken w ulen ip bit out) := by
  cases h0 : w[ip]? with
  | none => exact lzToken_missing ulen bit out h0 ▸ raisesOnly_err ip (by decide)
  | some r0 =>
    cases bit with
    | false => exact lzToken_lit ulen out h0 ▸ raisesOnly_ok _
    | true =>
      cases h1 : w[ip + 1]? with
      | none => exact lzToken_ref_missing ulen h0 out h1 ▸ raisesOnly_err _ (by decide)
      | some r1 =>
        by_cases hd : refWord r0 r1 % 4096 < out.length
        · exact lzToken_ref ulen h0 h1 hd ▸ raisesOnly_ok _
        · exact lzToken_ref_bad ulen h0 h1 (Nat.le_of_not_lt hd) ▸ raisesOnly_err ip (by decide)

theorem lzLoop_raisesOnly (w : List Byte) (ulen fuel ip : Nat) (flg : Byte) (fcnt : Nat) (out : List Byte) :
    RaisesOnly [.inputUnderrun, .badBackref] (lzLoop w ulen fuel ip flg fcnt out) := by
  induction fuel generalizing ip flg fcnt out with
  | zero => exact raisesOnly_ok _
  | succ fuel ih =>
    rw [lzLoop]
    split
    · exact raisesOnly_ok _
    split
    · split
      · exact raisesOnly_err ip (by decide)
      split
      · next he => exact (lzToken_raisesOnly w ulen _ _ out).of_piece he
      · exact ih _ _ _ _
    · split
      · next he => exact (lzToken_raisesOnly w ulen ip _ out).of_piece he
      · exact ih _ _ _ _

theorem lzStream_raisesOnly (w : List Byte) (outSize : Nat) :
    RaisesOnly [.outputOverflow, .inputUnderrun, .badBackref] (lzStream w outSize) := by
  unfold lzStream
  split
  · exact raisesOnly_err _ (by decide)
  · exact (lzLoop_raisesOnly w _ _ _ _ _ _).mono (by decide)

/-- The errors of `LZ_DECOMP` (R141). -/
theorem lzDecompress_raisesOnly (w : List Byte) (outSize : Nat) :
    RaisesOnly [.inputUnderrun, .unsupportedMethod, .outputOverflow, .badBackref] (lzDecompress w outSize) := by
  unfold lzDecompress
  split
  · exact raisesOnly_err _ (by decide)
  split
  · exact raisesOnly_err _ (by decide)
  · exact (lzStream_raisesOnly w outSize).mono (by decide)

/-- The errors of `LZ_COMP` (R169). -/
theorem lzCompress_raisesOnly (m : MatcherChoice) (w : List Byte) (outSize : Nat) :
    RaisesOnly [.lengthOverflow, .outputOverflow] (lzCompress m w outSize) := by
  unfold lzCompress
  split
  · exact raisesOnly_err _ (by decide)
  split
  · exact raisesOnly_err _ (by decide)
  · exact raisesOnly_ok _

/-- The errors of `RD_COMP` (R184). -/
theorem readCompressed_raisesOnly (w : List Byte) (outSize : Nat) :
    RaisesOnly [.inputUnderrun, .unknownCompressionType, .outputOverflow, .badBackref] (readCompressed w outSize) := by
  by_cases hw : w.length < 4
  · rw [readCompressed, if_pos hw]
    exact raisesOnly_err _ (by decide)
  have hw := Nat.le_of_not_lt hw
  by_cases h0 : w.getD 0 0 = 0x00
  · rw [readCompressed_rawPath hw h0]
    split
    · exact raisesOnly_err _ (by decide)
    split
    · exact raisesOnly_err _ (by decide)
    · exact raisesOnly_ok _
  by_cases h1 : w.getD 0 0 = 0x10
  · exact readCompressed_lz h1 hw ▸ (lzStream_raisesOnly w outSize).mono (by decide)
  · exact readCompressed_unknown hw h0 h1 ▸ raisesOnly_err _ (by decide)

/-- The error of `PAL_DEC` (R197). -/
theorem decodePalette_raisesOnly (l : PalLayout) (w : List Byte) (outSize : Nat) :
    RaisesOnly [.outputOverflow] (decodePalette l w outSize) := by
  unfold decodePalette
  split
  · exact raisesOnly_err _ (by decide)
  · exact raisesOnly_ok _

/-- The error of `TILE_DEC` (R204). -/
theorem decodeTiles_raisesOnly (bpp : BitVec 4) (w : List Byte) (outSize : Nat) :
    RaisesOnly [.outputOverflow] (decodeTiles bpp w outSize) := by
  unfold decodeTiles
  dsimp only
  split
  · exact raisesOnly_err _ (by decide)
  split
  · exact raisesOnly_ok _
  · exact raisesOnly_ok _

/-- The errors of `TILE_ENC` (R206, R207, R210). -/
theorem encodeTiles_raisesOnly (bpp : BitVec 4) (mask : BitVec 1) (w : List Byte) (outSize : Nat) :
    RaisesOnly [.badLength, .outputOverflow, .encodingError] (encodeTiles bpp mask w outSize) := by
  unfold encodeTiles
  split
  · exact raisesOnly_err _ (by decide)
  split
  · exact raisesOnly_err _ (by decide)
  split
  · split
    · exact raisesOnly_err _ (by decide)
    · exact raisesOnly_ok _
  · exact raisesOnly_ok _

/-- Settles O33, command by command. -/
theorem eachCommandRaisesOnlyItsErrors : Obligations.EachCommandRaisesOnlyItsErrors := fun c bpp mask w e info =>
  ⟨lzDecompress_raisesOnly w c.outSize e info, lzCompress_raisesOnly c.matcher w c.outSize e info,
    readCompressed_raisesOnly w c.outSize e info,
    fun h => List.mem_singleton.1 (decodePalette_raisesOnly c.pal w c.outSize e info h),
    fun h => List.mem_singleton.1 (decodeTiles_raisesOnly bpp w c.outSize e info h),
    encodeTiles_raisesOnly bpp mask w c.outSize e info⟩

end Sys2Proof.Machine
end

section
/-! PROOFS. The information of an `InputUnderrun` (R245): a step raises one only for the first byte the window lacks,
and in the invariant no element begins beyond the window, so that byte's place is the window's length. -/

namespace Sys2Proof.Machine

/-! ### Pieces that read nothing of the window -/

/-- The piece goes on with `ERR` as it was, or ends early for another reason than a missing byte. -/
def Quiet (s : State) : Attempt State → Prop
  | .ok t => t.err = s.err
  | .error (.err e _) => e ≠ .inputUnderrun
  | .error (.fault _) => True

/-- Two quiet pieces, one after the other. -/
theorem Quiet.then {s : State} {a : Attempt State} {f : State → Attempt State} (hf : ∀ u, Quiet u (f u)) :
    Quiet s a →
      Quiet s (match a with
        | .error e => .error e
        | .ok u => f u) := fun ha => by
  match a, ha with
  | .error _, ha => exact ha
  | .ok u, (ha : u.err = s.err) =>
    have hu := hf u
    unfold Quiet at hu ⊢
    rwa [ha] at hu

theorem memWrite_quiet (a : Nat) (v : Byte) (s : State) : Quiet s (memWrite a v s) := by
  unfold memWrite
  split
  · rfl
  · trivial

theorem memWriteAll_quiet (a : Nat) (vs : List Byte) (s : State) : Quiet s (memWriteAll a vs s) := by
  induction vs generalizing a s with
  | nil => rfl
  | cons v vs ih => exact (memWrite_quiet a v s).then (ih (a + 1))

theorem emit_quiet (v : Byte) (s : State) : Quiet s (emit v s) := by
  unfold emit
  split
  · exact nofun
  · exact (memWrite_quiet _ v s).then fun _ => rfl

theorem emitAll_quiet (vs : List Byte) (s : State) : Quiet s (emitAll vs s) := by
  induction vs generalizing s with
  | nil => rfl
  | cons v vs ih => exact (emit_quiet v s).then ih

theorem copyStep_quiet (s : State) : Quiet s (copyStep s) := (memWrite_quiet _ _ s).then fun _ => rfl

theorem copyLoop_quiet (fuel : Nat) (s : State) : Quiet s (copyLoop fuel s) := by
  induction fuel generalizing s with
  | zero => rfl
  | succ fuel ih =>
    rw [copyLoop]
    split
    · exact (copyStep_quiet s).then ih
    · rfl

theorem copyBytes_quiet (src len : Nat) (s : State) : Quiet s (copyBytes src len s) :=
  Quiet.then (fun _ => rfl) (copyLoop_quiet len _)

theorem openGroup_quiet (s : State) : Quiet s (openGroup s) := Quiet.then (fun _ => rfl) (emit_quiet 0x00 _)

theorem closeGroup_quiet (s : State) : Quiet s (closeGroup s) := (memWrite_quiet _ _ s).then fun _ => rfl

/-- The literal of a token is a byte of the input while some remain. -/
theorem emitToken_quiet {s : State} (hci : s.ci.toNat < s.latch.len.toNat) : Quiet s (emitToken s) := by
  unfold emitToken
  dsimp only
  split
  · exact Quiet.then (fun _ => rfl) (emitAll_quiet _ _)
  · rw [emitLitToken, inRead_ok hci]
    exact (emitAll_quiet _ s).then fun _ => rfl

/-! ### Outcomes -/

/-- An `InputUnderrun` in the next state has the information `n`. -/
def ReportsLength (n : Word) (r : Result) : Prop := ∀ t, r = .next t → t.err = .inputUnderrun → t.errInfo = n

theorem reportsLength_of_ne {n : Word} {t : State} (h : t.err ≠ .inputUnderrun) : ReportsLength n (.next t) := by
  rintro _ ⟨⟩ ht
  exact absurd ht h

theorem reportsLength_of_none {n : Word} {t : State} (h : t.err = .none) : ReportsLength n (.next t) :=
  reportsLength_of_ne fun ht => nomatch h.symm.trans ht

theorem saturate_word (n : Word) : saturate n.toNat = n := by
  rw [← BitVec.toNat_inj, saturate_toNat]
  omega

theorem reportsLength_underrun (n : Word) (s : State) :
    ReportsLength n (.next (raiseError .inputUnderrun n.toNat s)) := by
  rintro _ ⟨⟩ -
  exact saturate_word n

theorem raiseReject_reportsLength (r : Reject) (s : State) : ReportsLength s.latch.len (.next (raiseReject r s)) := by
  cases r with
  | truncated => exact reportsLength_underrun _ s
  | reservedOpcode | unsupportedMethod _ | unknownType _ => exact reportsLength_of_ne nofun

section Quiet
variable {n : Word} {s : State} (herr : s.err = .none)
include herr

theorem conclude_reportsLength {a : Attempt State} (h : Quiet s a) : ReportsLength n (conclude s a) := by
  match a, h with
  | .ok t, (h : t.err = s.err) => exact reportsLength_of_none (h.trans herr)
  | .error (.err _ _), h => exact reportsLength_of_ne h
  | .error (.fault _), _ => rintro _ ⟨⟩

/-- A piece of a step, then a last change that leaves `ERR`. -/
theorem update_reportsLength {a : Attempt State} {g : State → State} (hg : ∀ u, (g u).err = u.err) :
    Quiet s a →
      ReportsLength n (match a with
        | .error e => conclude s (.error e)
        | .ok u => .next (g u)) := fun h => by
  match a, h with
  | .ok u, (h : u.err = s.err) => exact reportsLength_of_none ((hg u).trans (h.trans herr))
  | .error _, h => exact conclude_reportsLength herr h

end Quiet

/-! ### The elements -/

theorem execHdrRaw_reportsLength (ulen : BitVec 24) (s : State) :
    ReportsLength s.latch.len (exec (.hdrRaw ulen) s) := by
  by_cases hwin : s.latch.len.toNat < 4 + ulen.toNat
  · rw [execHdrRaw_short hwin]
    exact reportsLength_underrun _ s
  have hwin := Nat.le_of_not_lt hwin
  by_cases hsize : s.cfg.outSize < ulen.toNat
  · rw [execHdrRaw_full hwin hsize]
    exact reportsLength_of_ne nofun
  · obtain ⟨m, hexec, -⟩ := execHdrRaw_ok hwin (Nat.le_of_not_lt hsize)
    rw [hexec]
    exact reportsLength_of_none rfl

section Steps
variable {n : Word} {s : State} (herr : s.err = .none)
include herr

theorem execRef_reportsLength (ln : BitVec 4) (disp : BitVec 12) : ReportsLength n (execRef ln disp s) := by
  unfold execRef
  split
  · exact reportsLength_of_ne nofun
  · exact conclude_reportsLength herr (copyBytes_quiet _ _ { s with ip := s.ip + 2 })

theorem execIdx_reportsLength (i : Byte) : ReportsLength n (execIdx i s) := by
  unfold execIdx
  split
  · split
    · exact reportsLength_of_ne nofun
    split
    · exact reportsLength_of_none herr
    · exact update_reportsLength herr (fun _ => rfl) (memWrite_quiet _ _ s)
  · exact update_reportsLength herr (fun _ => rfl) (memWrite_quiet _ _ s)

/-- No meaning reports anything but the length of the window for a missing byte. -/
theorem exec_reportsLength (hb : s.busy = true) (i : Instr) : ReportsLength s.latch.len (exec i s) := by
  cases i with
  | hdrRaw ulen => exact execHdrRaw_reportsLength ulen s
  | hdrLz _ ulen =>
    rw [exec, execHdrLz]
    split
    · exact reportsLength_of_ne nofun
    · exact reportsLength_of_none herr
  | flag _ => exact reportsLength_of_none herr
  | lit b => exact update_reportsLength herr (fun _ => rfl) (memWrite_quiet _ b s)
  | ref ln disp => exact execRef_reportsLength herr ln disp
  | pal16 _ _ _ _ => exact update_reportsLength herr (fun _ => rfl) (memWriteAll_quiet _ _ s)
  | pix4 _ _ => exact update_reportsLength herr (fun _ => rfl) (memWriteAll_quiet _ _ s)
  | pix8 p => exact update_reportsLength herr (fun _ => rfl) (memWrite_quiet _ p s)
  | idx k => exact execIdx_reportsLength herr k
  | lzDecomp | lzComp | rdComp | palDec | tileDec | tileEnc =>
    rw [exec_command_busy hb (by decide)]
    exact reportsLength_of_none herr

/-! ### A step of the block -/

/-- Reading an element that begins inside the window or at its end. -/
theorem runElement_reportsLength (hb : s.busy = true) {c : Ctx} {k : Nat} (hk : k ≤ s.latch.len.toNat) :
    ReportsLength s.latch.len (runElement c k s) := by
  unfold runElement
  by_cases hin : k + c.size ≤ s.latch.len.toNat
  · rw [fetchBytes_ok c.size (.inr hin)]
    dsimp only
    split
    · exact raiseReject_reportsLength _ s
    · exact exec_reportsLength herr hb _
  · rw [fetchBytes_missing c.size (Nat.lt_of_not_le hin) hk]
    exact reportsLength_underrun _ s

/-- A step that reads no element raises no `InputUnderrun`. -/
theorem controlStep_reportsLength : ReportsLength n (controlStep s) := by
  unfold controlStep
  split
  case h_2 | h_3 | h_4 | h_5 => exact reportsLength_of_none rfl
  case h_6 =>
    unfold groupOpenStep
    split
    · exact conclude_reportsLength herr (openGroup_quiet s)
    · exact reportsLength_of_none rfl
  case h_7 =>
    unfold groupTokensStep
    split
    · next hmore => exact conclude_reportsLength herr (emitToken_quiet hmore.2)
    · exact conclude_reportsLength herr (closeGroup_quiet s)
  all_goals exact reportsLength_of_none herr

end Steps

/-- The pixel that `TILE_ENC` reads next is one of whole tiles (R207, R209, R210). -/
theorem idxPos_lt {s : State} (hbi : s.bi.toNat < packBytes s) : idxPos s < s.latch.len.toNat := by
  unfold packBytes tileBytes at hbi
  unfold idxPos
  split
  · next hbpp =>
    rw [if_pos hbpp] at hbi
    split <;> omega
  · next hbpp =>
    rw [if_neg hbpp] at hbi
    omega

/-- In the invariant the element that is read next begins inside the window or at its end (R35). -/
theorem nextElement_le {s t : State} {p : Phase} {c : Ctx} {k : Nat} (hrun : s.run = .busy p) (hp : s.PhaseOk p)
    (h : nextElement s = some (c, k, t)) : k ≤ s.latch.len.toNat := by
  unfold nextElement at h
  rw [hrun] at h
  cases p with
  | header => cases h; exact Nat.zero_le _
  | stream =>
    have hip := State.StreamOk.ipHigh hp
    dsimp only at h
    split at h
    · cases h
    split at h <;> cases h <;> exact hip
  | groupOpen | groupTokens => cases h
  | palette =>
    dsimp only at h
    split at h <;> cases h
    next hei => unfold entryCount at hei; omega
  | unpack =>
    dsimp only at h
    split at h <;> cases h
    next hbi => exact hbi.le.trans (unpackBytes_le s)
  | pack =>
    dsimp only at h
    split at h <;> cases h
    next hbi => exact (idxPos_lt hbi).le

theorem blockStep_reportsLength {s : State} {p : Phase} (hrun : s.run = .busy p) (hp : s.PhaseOk p)
    (herr : s.err = .none) : ReportsLength s.latch.len (blockStep s) := by
  have hb : s.busy = true := (busy_iff s).2 ⟨p, hrun⟩
  unfold blockStep
  split
  · next hnext =>
    have hk := nextElement_le hrun hp hnext
    obtain rfl | rfl := nextElement_state hnext
    · exact runElement_reportsLength herr hb hk
    · exact runElement_reportsLength (s := selectToken s) herr hb hk
  · exact controlStep_reportsLength herr

/-- Settles O32: the step is the block's, and the latched length is that of the register. -/
theorem underrunReportsTheWindowLength : Obligations.UnderrunReportsTheWindowLength := by
  intro s t hinv hhost hb hstep herr
  obtain ⟨p, hrun⟩ := (busy_iff s).1 hb
  obtain ⟨⟨-, hcommand⟩, hp⟩ := hinv.running hrun
  rw [step_of_no_move hhost] at hstep
  exact (blockStep_reportsLength hrun hp hcommand.noResult.err t hstep herr).trans hcommand.len

end Sys2Proof.Machine
end

section
/-! PROOFS. The host's accesses to IN and OUT while `BUSY`, which get no meaning (R273), and its reset, in any state
(R270). -/

namespace Sys2Proof.Machine

/-! ### Accesses to IN and OUT while `BUSY` -/

theorem hostWriteIn_busy {s : State} (hb : s.busy = true) (a : Nat) (v : Byte) :
    hostWriteIn a v s = .refused .inWriteWhileBusy := if_pos hb

theorem hostReadOut_busy {s : State} (hb : s.busy = true) (a : Nat) :
    hostReadOut a s = .refused .outReadWhileBusy := if_pos hb

/-- Settles O6: taking the move from the queue leaves the block `BUSY`. -/
theorem busyMemoryAccessesAreRefused : Obligations.BusyMemoryAccessesAreRefused := fun s rest a v hb => by
  have hb' : State.busy { s with host := rest } = true := hb
  rw [step_writeIn, step_readOut]
  exact ⟨hostWriteIn_busy hb' a v, hostReadOut_busy hb' a⟩

/-! ### Reset -/

/-- Every register reads 0 after reset, by its number (R43). -/
theorem readReg_resetWith (c : Config) (n : Nat) : readReg n (State.resetWith c) = 0 := by
  unfold readReg
  split
  case h_2 => exact (by decide : (0 : BitVec 1).setWidth 32 <<< 8 ||| (0 : BitVec 4).setWidth 32 = (0 : Word))
  all_goals rfl

/-- Reset as an event leaves the registers as reset has them (R270). -/
theorem readReg_resetBlock (s : State) (n : Nat) : readReg n (resetBlock s) = 0 := readReg_resetWith s.cfg n

theorem step_reset (s : State) (rest : List HostMove) :
    step { s with host := .reset :: rest } = .next (resetBlock { s with host := rest }) := rfl

/-- Settles O8: the state is that of reset, with the parameters and the rest of the queue. -/
theorem resetMoveClearsAnyState : Obligations.ResetMoveClearsAnyState := fun s rest =>
  ⟨_, step_reset s rest, readReg_resetBlock _, resetBlock_run _, Memory.read_nil, Memory.read_nil,
    resetBlock_cfg _, resetBlock_host _⟩

end Sys2Proof.Machine
end

section
/-! PROOFS. Every running command ends (R277): each step of the block moves on in the window, or opens or closes a token
group, so the work left falls while the block is `BUSY`; and in the invariant there always is a next step. -/

namespace Sys2Proof.Machine

/-! ### The work left -/

/-- The place in the window that the running command has come to. -/
def readPos (s : State) : Phase → Nat
  | .header => 0
  | .stream => s.ip.toNat
  | .groupOpen => s.ci.toNat
  | .groupTokens => s.ci.toNat
  | .palette => 2 * s.ei.toNat
  | .unpack => s.bi.toNat
  | .pack => idxPos s

/-- How many steps of the compressor, at most, come before the next token: opening a group, and before that closing the
last one when it takes no further token (R164). -/
def groupSteps (s : State) : Phase → Nat
  | .groupOpen => 1
  | .groupTokens => if s.fk.toNat < 8 ∧ s.ci.toNat < s.latch.len.toNat then 0 else 2
  | .header => 0
  | .stream => 0
  | .palette => 0
  | .unpack => 0
  | .pack => 0

/-- A measure of the steps a running command still has to make: each byte of the window that is still to come weighs
more than the steps between two tokens. -/
def workLeft (s : State) : Nat :=
  match s.run with
  | .busy p => 3 * (s.latch.len.toNat - readPos s p) + groupSteps s p
  | .idle => 0
  | .done => 0
  | .error => 0

theorem workLeft_of_run {s : State} {p : Phase} (h : s.run = .busy p) :
    workLeft s = 3 * (s.latch.len.toNat - readPos s p) + groupSteps s p := by
  rw [workLeft, h]

theorem groupSteps_le (s : State) (p : Phase) : groupSteps s p ≤ 2 := by
  unfold groupSteps
  split
  case h_2 => split <;> decide
  all_goals decide

/-! ### Outcomes -/

/-- When the block is still `BUSY` after the step, less than `n` work is left. -/
def LeavesLess (n : Nat) (r : Result) : Prop := ∀ t, r = .next t → t.busy = true → workLeft t < n

theorem leavesLess_ended {n : Nat} {t : State} (h : t.busy = false) : LeavesLess n (.next t) := by
  rintro _ ⟨⟩ hb
  simp [h] at hb

theorem raiseReject_leavesLess {n : Nat} (r : Reject) (s : State) : LeavesLess n (.next (raiseReject r s)) := by
  cases r <;> exact leavesLess_ended rfl

theorem conclude_leavesLess {n : Nat} {base : State} {a : Attempt State}
    (h : ∀ t, a = .ok t → LeavesLess n (.next t)) : LeavesLess n (conclude base a) := by
  intro t ht hb
  obtain hok | ⟨e, info, -, rfl⟩ := conclude_next ht
  · exact h t hok t rfl hb
  · cases hb

theorem conclude_error_leavesLess {n : Nat} (base : State) (e : Stop) : LeavesLess n (conclude base (.error e)) :=
  conclude_leavesLess fun _ ht => by cases ht

section Moves
variable {s t : State} {p q : Phase} (hs : s.run = .busy p) (ht : t.run = .busy q) (hlatch : t.latch = s.latch)
include hs ht hlatch

/-- A step that moves on in the window, from a place inside it. -/
theorem leavesLess_of_read (hin : readPos s p < s.latch.len.toNat) (hread : readPos s p < readPos t q) :
    LeavesLess (workLeft s) (.next t) := by
  rintro _ ⟨⟩ -
  have hsteps := groupSteps_le t q
  rw [workLeft_of_run hs, workLeft_of_run ht, hlatch]
  omega

/-- A step between two tokens. -/
theorem leavesLess_of_group (hread : readPos t q = readPos s p) (hsteps : groupSteps t q < groupSteps s p) :
    LeavesLess (workLeft s) (.next t) := by
  rintro _ ⟨⟩ -
  rw [workLeft_of_run hs, workLeft_of_run ht, hlatch, hread]
  omega

end Moves

/-! ### Storing to OUT -/

/-- `t` is `s` after stores to OUT: nothing differs but OUT and the counters of the output and of a copy. -/
def Stored (s t : State) : Prop :=
  ∃ m e o src rem, t = { s with outMem := m, eo := e, olen := o, csrc := src, crem := rem }

theorem Stored.refl (s : State) : Stored s s := ⟨_, _, _, _, _, rfl⟩

theorem Stored.trans {s t u : State} (h : Stored s t) (k : Stored t u) : Stored s u := by
  obtain ⟨_, _, _, _, _, rfl⟩ := h
  obtain ⟨_, _, _, _, _, rfl⟩ := k
  exact ⟨_, _, _, _, _, rfl⟩

/-- When the piece goes on, it has done nothing but store to OUT. -/
def OnlyStores (s : State) (a : Attempt State) : Prop := ∀ t, a = .ok t → Stored s t

theorem onlyStores_ok {s t : State} (h : Stored s t) : OnlyStores s (.ok t) := by
  rintro _ ⟨⟩
  exact h

theorem onlyStores_error (s : State) (e : Stop) : OnlyStores s (.error e) := fun _ ht => by cases ht

/-- Two such pieces, one after the other. -/
theorem OnlyStores.then {s : State} {a : Attempt State} {f : State → Attempt State} (hf : ∀ u, OnlyStores u (f u)) :
    OnlyStores s a →
      OnlyStores s (match a with
        | .error e => .error e
        | .ok u => f u) := fun ha => by
  match a, ha with
  | .error e, _ => exact onlyStores_error s e
  | .ok u, ha => exact fun t ht => (ha u rfl).trans (hf u t ht)

theorem memWrite_onlyStores (a : Nat) (v : Byte) (s : State) : OnlyStores s (memWrite a v s) := fun t ht => by
  obtain ⟨-, rfl⟩ := memWrite_next ht
  exact ⟨_, _, _, _, _, rfl⟩

theorem memWriteAll_onlyStores (a : Nat) (vs : List Byte) (s : State) : OnlyStores s (memWriteAll a vs s) := by
  induction vs generalizing a s with
  | nil => exact onlyStores_ok (.refl s)
  | cons v vs ih => exact (memWrite_onlyStores a v s).then (ih (a + 1))

theorem emit_onlyStores (v : Byte) (s : State) : OnlyStores s (emit v s) := by
  unfold emit
  split
  · exact onlyStores_error s _
  · exact (memWrite_onlyStores _ v s).then fun _ => onlyStores_ok ⟨_, _, _, _, _, rfl⟩

theorem emitAll_onlyStores (vs : List Byte) (s : State) : OnlyStores s (emitAll vs s) := by
  induction vs generalizing s with
  | nil => exact onlyStores_ok (.refl s)
  | cons v vs ih => exact (emit_onlyStores v s).then ih

theorem copyStep_onlyStores (s : State) : OnlyStores s (copyStep s) :=
  (memWrite_onlyStores _ _ s).then fun _ => onlyStores_ok ⟨_, _, _, _, _, rfl⟩

theorem copyLoop_onlyStores (fuel : Nat) (s : State) : OnlyStores s (copyLoop fuel s) := by
  induction fuel generalizing s with
  | zero => exact onlyStores_ok (.refl s)
  | succ fuel ih =>
    rw [copyLoop]
    split
    · exact (copyStep_onlyStores s).then ih
    · exact onlyStores_ok (.refl s)

theorem copyBytes_onlyStores (src len : Nat) (s : State) : OnlyStores s (copyBytes src len s) := fun t ht =>
  have hset : Stored s { s with csrc := BitVec.ofNat 32 src, crem := BitVec.ofNat 5 len } := ⟨_, _, _, _, _, rfl⟩
  hset.trans ((copyLoop_onlyStores len _).then (fun _ => onlyStores_ok ⟨_, _, _, _, _, rfl⟩) t ht)

/-- Stores, then a last change `g` of the state, as a whole step. -/
theorem stores_leavesLess {n : Nat} {base s : State} {a : Attempt State} {g : State → State}
    (hg : ∀ u, Stored s u → LeavesLess n (.next (g u))) :
    OnlyStores s a →
      LeavesLess n (match a with
        | .error e => conclude base (.error e)
        | .ok u => .next (g u)) := fun ha => by
  match a, ha with
  | .error e, _ => exact conclude_error_leavesLess base e
  | .ok u, ha => exact hg u (ha u rfl)

/-- The same as a piece that a step concludes. -/
theorem conclude_stores_leavesLess {n : Nat} {base s : State} {a : Attempt State} {g : State → State}
    (hg : ∀ u, Stored s u → LeavesLess n (.next (g u))) :
    OnlyStores s a →
      LeavesLess n (conclude base (match a with
        | .error e => .error e
        | .ok u => .ok (g u))) := fun ha => by
  match a, ha with
  | .error e, _ => exact conclude_error_leavesLess base e
  | .ok u, ha => exact hg u (ha u rfl)

/-! ### Headers -/

/-- The Raw path ends the command in its one step (R182). -/
theorem execHdrRaw_leavesLess (n : Nat) (ulen : BitVec 24) (s : State) : LeavesLess n (execHdrRaw ulen s) := by
  intro t ht hb
  unfold execHdrRaw at ht
  split at ht
  · cases ht; cases hb
  · split at ht
    · cases ht; cases hb
    · split at ht
      · exact conclude_error_leavesLess s _ t ht hb
      · cases ht; cases hb

/-- The token stream begins behind the header (R132). -/
theorem execHdrLz_leavesLess {s : State} (hrun : s.run = .busy .header) (hlen : 4 ≤ s.latch.len.toNat)
    (sub : BitVec 4) (ulen : BitVec 24) : LeavesLess (workLeft s) (execHdrLz sub ulen s) := by
  unfold execHdrLz
  split
  · exact leavesLess_ended rfl
  · exact leavesLess_of_read (t := initStream ulen s) hrun rfl rfl (Nat.zero_lt_of_lt hlen) (by decide : 0 < 4)

theorem header_leavesLess {s : State} (hrun : s.run = .busy .header) (hlen : 4 ≤ s.latch.len.toNat) {i : Instr}
    (hfit : i.fits (headerCtx s.latch.opc) = true) : LeavesLess (workLeft s) (exec i s) := by
  unfold headerCtx at hfit
  split at hfit
  · match i, hfit with
    | .hdrLz sub ulen, _ => exact execHdrLz_leavesLess hrun hlen sub ulen
  · match i, hfit with
    | .hdrRaw ulen, _ => exact execHdrRaw_leavesLess _ ulen s
    | .hdrLz sub ulen, _ => exact execHdrLz_leavesLess hrun hlen sub ulen

/-! ### The token stream -/

section Stream
variable {s : State} (hrun : s.run = .busy .stream)
include hrun

/-- A step of the stream that moves `IP` past `n` bytes of the window. -/
theorem leavesLess_of_ip {t : State} {n : Nat} (hn : 0 < n) (hin : s.ip.toNat + n ≤ s.latch.len.toNat)
    (ht : t.run = s.run) (hlatch : t.latch = s.latch) (hip : t.ip = s.ip + BitVec.ofNat 32 n) :
    LeavesLess (workLeft s) (.next t) := by
  have hread : s.ip.toNat < t.ip.toNat := by rw [hip]; bv_omega
  exact leavesLess_of_read hrun (ht.trans hrun) hlatch (show s.ip.toNat < s.latch.len.toNat by omega) hread

theorem execFlag_leavesLess (hin : s.ip.toNat + 1 ≤ s.latch.len.toNat) (f : Byte) :
    LeavesLess (workLeft s) (execFlag f s) := leavesLess_of_ip hrun Nat.one_pos hin rfl rfl rfl

theorem execLit_leavesLess (hin : s.ip.toNat + 1 ≤ s.latch.len.toNat) (b : Byte) :
    LeavesLess (workLeft s) (execLit b s) := by
  refine stores_leavesLess (fun u hu => ?_) (memWrite_onlyStores _ b s)
  obtain ⟨_, _, _, _, _, rfl⟩ := hu
  exact leavesLess_of_ip hrun Nat.one_pos hin rfl rfl rfl

theorem execRef_leavesLess (hin : s.ip.toNat + 2 ≤ s.latch.len.toNat) (ln : BitVec 4) (disp : BitVec 12) :
    LeavesLess (workLeft s) (execRef ln disp s) := by
  unfold execRef
  split
  · exact leavesLess_ended rfl
  · refine conclude_leavesLess fun t ht => ?_
    obtain ⟨_, _, _, _, _, rfl⟩ := copyBytes_onlyStores _ _ _ t ht
    exact leavesLess_of_ip hrun Nat.two_pos hin rfl rfl rfl

theorem token_leavesLess {bit : Bool} (hin : s.ip.toNat + (tokenCtx bit).size ≤ s.latch.len.toNat) {i : Instr}
    (hfit : i.fits (tokenCtx bit) = true) : LeavesLess (workLeft s) (exec i s) := by
  match bit, i, hfit with
  | false, .lit b, _ => exact execLit_leavesLess hrun hin b
  | true, .ref ln disp, _ => exact execRef_leavesLess hrun hin ln disp

end Stream

/-! ### Palette entries and pixels -/

theorem execPal16_leavesLess {s : State} (hrun : s.run = .busy .palette)
    (hin : 2 * s.ei.toNat + 2 ≤ s.latch.len.toNat) (r5 g5 b5 : BitVec 5) (x : BitVec 1) :
    LeavesLess (workLeft s) (execPal16 r5 g5 b5 x s) := by
  refine stores_leavesLess (fun u hu => ?_) (memWriteAll_onlyStores _ _ s)
  obtain ⟨_, _, _, _, _, rfl⟩ := hu
  have hread : 2 * s.ei.toNat < 2 * (s.ei + 1).toNat := by bv_omega
  exact leavesLess_of_read hrun hrun rfl (show 2 * s.ei.toNat < s.latch.len.toNat by omega) hread

/-- A packed byte, whichever the depth: it is stored as pixels, and `BI` counts it. -/
theorem packedByte_leavesLess {s : State} (hrun : s.run = .busy .unpack) (hin : s.bi.toNat + 1 ≤ s.latch.len.toNat)
    {a : Attempt State} :
    OnlyStores s a →
      LeavesLess (workLeft s) (match a with
        | .error e => conclude s (.error e)
        | .ok t => .next { t with bi := s.bi + 1 }) := by
  refine stores_leavesLess fun u hu => ?_
  obtain ⟨_, _, _, _, _, rfl⟩ := hu
  have hread : s.bi.toNat < (s.bi + 1).toNat := by bv_omega
  exact leavesLess_of_read hrun hrun rfl hin hread

theorem pixel_leavesLess {s : State} (hrun : s.run = .busy .unpack)
    (hin : s.bi.toNat + (pixelCtx s.latch.bpp).size ≤ s.latch.len.toNat) {i : Instr}
    (hfit : i.fits (pixelCtx s.latch.bpp) = true) : LeavesLess (workLeft s) (exec i s) := by
  rw [pixelCtx_size] at hin
  unfold pixelCtx at hfit
  split at hfit
  · match i, hfit with
    | .pix4 _ _, _ => exact packedByte_leavesLess hrun hin (memWriteAll_onlyStores _ _ s)
  · match i, hfit with
    | .pix8 p, _ => exact packedByte_leavesLess hrun hin (memWrite_onlyStores _ p s)

/-- At 4 bits per pixel the first pixel of a pair moves on by the kept pixel, the second by `BI` (R207); at 8 every
pixel moves on by `BI` (R209). -/
theorem execIdx_leavesLess {s : State} (hrun : s.run = .busy .pack) (hin : idxPos s + 1 ≤ s.latch.len.toNat)
    (i : Byte) : LeavesLess (workLeft s) (execIdx i s) := by
  unfold execIdx
  split
  · next hbpp =>
    split
    · exact leavesLess_ended rfl
    · split
      · next hpix =>
        have hread : idxPos s < idxPos { s with pix := some i } := by
          rw [idxPos_of_some (s := { s with pix := some i }) hbpp rfl, idxPos, if_pos hbpp, hpix]
          exact Nat.lt_succ_self _
        exact leavesLess_of_read hrun hrun rfl hin hread
      · next a hpix =>
        refine stores_leavesLess (fun u hu => ?_) (memWrite_onlyStores _ _ s)
        obtain ⟨_, _, _, _, _, rfl⟩ := hu
        have hpos := idxPos_of_some hbpp hpix
        refine leavesLess_of_read hrun hrun rfl hin ?_
        rw [readPos, readPos, hpos, idxPos, if_pos hbpp]
        bv_omega
  · next hbpp =>
    refine stores_leavesLess (fun u hu => ?_) (memWrite_onlyStores _ _ s)
    obtain ⟨_, _, _, _, _, rfl⟩ := hu
    have hpos : idxPos s = s.bi.toNat := if_neg hbpp
    refine leavesLess_of_read hrun hrun rfl hin ?_
    rw [readPos, readPos, hpos, idxPos, if_neg hbpp]
    bv_omega

/-! ### The compressor -/

theorem groupOpenStep_leavesLess {s : State} (hrun : s.run = .busy .groupOpen) :
    LeavesLess (workLeft s) (groupOpenStep s) := by
  unfold groupOpenStep
  split
  · next hmore =>
    refine conclude_stores_leavesLess (fun u hu => ?_) (emit_onlyStores 0x00 { s with fpos := s.eo })
    obtain ⟨_, _, _, _, _, rfl⟩ := hu
    have hsteps : (if 0 < 8 ∧ s.ci.toNat < s.latch.len.toNat then 0 else 2) < 1 := by simp [hmore]
    exact leavesLess_of_group hrun rfl rfl rfl hsteps
  · exact leavesLess_ended rfl

/-- A token stands for some bytes of the input, and for none beyond its end (R163). -/
theorem emitToken_leavesLess {s : State} (hrun : s.run = .busy .groupTokens) (hci : s.ci.toNat < s.latch.len.toNat) :
    LeavesLess (workLeft s) (conclude s (emitToken s)) := by
  have moves {t : State} {n : Nat} (hn : 0 < n) (hle : s.ci.toNat + n ≤ s.latch.len.toNat) (ht : t.run = s.run)
      (hlatch : t.latch = s.latch) (htci : t.ci = s.ci + BitVec.ofNat 32 n) : LeavesLess (workLeft s) (.next t) := by
    have hread : s.ci.toNat < t.ci.toNat := by rw [htci]; bv_omega
    exact leavesLess_of_read hrun (ht.trans hrun) hlatch hci hread
  unfold emitToken
  dsimp only
  split
  · next hcopy =>
    have hm := matcher_le s.cfg.matcher (window s) s.ci.toNat
    rw [window_length] at hm
    refine conclude_stores_leavesLess (fun u hu => ?_) (emitAll_onlyStores _ _)
    obtain ⟨_, _, _, _, _, rfl⟩ := hu
    exact moves (Nat.zero_lt_of_lt hcopy) (by omega) rfl rfl rfl
  · rw [emitLitToken, inRead_ok hci]
    refine conclude_stores_leavesLess (fun u hu => ?_) (emitAll_onlyStores _ _)
    obtain ⟨_, _, _, _, _, rfl⟩ := hu
    exact moves Nat.one_pos hci rfl rfl rfl

theorem groupTokensStep_leavesLess {s : State} (hrun : s.run = .busy .groupTokens) :
    LeavesLess (workLeft s) (groupTokensStep s) := by
  unfold groupTokensStep
  split
  · next hmore => exact emitToken_leavesLess hrun hmore.2
  · next hstop =>
    refine conclude_stores_leavesLess (fun u hu => ?_) (memWrite_onlyStores _ _ s)
    obtain ⟨_, _, _, _, _, rfl⟩ := hu
    have hsteps : 1 < groupSteps s .groupTokens := by rw [groupSteps, if_neg hstop]; decide
    exact leavesLess_of_group hrun rfl rfl rfl hsteps

/-! ### A step of the block -/

/-- Reading an element leaves less when every instruction of the context does, fetched inside the window. -/
theorem runElement_leavesLess {n : Nat} {c : Ctx} {k : Nat} {s : State}
    (hexec : k + c.size ≤ s.latch.len.toNat → ∀ {i : Instr}, i.fits c = true → LeavesLess n (exec i s)) :
    LeavesLess n (runElement c k s) := by
  unfold runElement
  split
  · exact conclude_error_leavesLess s _
  · next hf =>
    have hk := (fetchBytes_inside hf).resolve_left (ctx_size_ne_zero c)
    split
    · exact raiseReject_leavesLess _ s
    · next hd => exact hexec hk (decode_fits hd)

theorem element_leavesLess {s t : State} {p : Phase} {c : Ctx} {k : Nat} (hrun : s.run = .busy p)
    (h : nextElement s = some (c, k, t)) : LeavesLess (workLeft s) (runElement c k t) := by
  unfold nextElement at h
  rw [hrun] at h
  cases p with
  | header =>
    cases h
    exact runElement_leavesLess fun hk => header_leavesLess hrun (by rwa [headerCtx_size] at hk)
  | stream =>
    dsimp only at h
    split at h
    · cases h
    split at h <;> cases h
    · refine runElement_leavesLess fun hk i hfit => ?_
      match i, hfit with
      | .flag f, _ => exact execFlag_leavesLess hrun hk f
    · exact runElement_leavesLess (token_leavesLess (s := selectToken s) hrun)
  | groupOpen | groupTokens => cases h
  | palette =>
    dsimp only at h
    split at h <;> cases h
    refine runElement_leavesLess fun hk i hfit => ?_
    match i, hfit with
    | .pal16 r5 g5 b5 x, _ => exact execPal16_leavesLess hrun hk r5 g5 b5 x
  | unpack =>
    dsimp only at h
    split at h <;> cases h
    exact runElement_leavesLess (pixel_leavesLess hrun)
  | pack =>
    dsimp only at h
    split at h <;> cases h
    refine runElement_leavesLess fun hk i hfit => ?_
    match i, hfit with
    | .idx j, _ => exact execIdx_leavesLess hrun hk j

/-- A step that reads no element ends the command, or is one of the compressor's. -/
theorem controlStep_leavesLess {s : State} {p : Phase} (hrun : s.run = .busy p) (h : nextElement s = none) :
    LeavesLess (workLeft s) (controlStep s) := by
  unfold controlStep
  rw [hrun]
  cases p with
  | header => simp [nextElement_header hrun] at h
  | groupOpen => exact groupOpenStep_leavesLess hrun
  | groupTokens => exact groupTokensStep_leavesLess hrun
  | stream | palette | unpack | pack => exact leavesLess_ended rfl

theorem blockStep_leavesLess {s : State} (hb : s.busy = true) : LeavesLess (workLeft s) (blockStep s) := by
  obtain ⟨p, hrun⟩ := (busy_iff s).1 hb
  unfold blockStep
  split
  · next hnext => exact element_leavesLess hrun hnext
  · next hnext => exact controlStep_leavesLess hrun hnext

/-! ### Termination -/

/-- Settles O43, by induction on the work left: the invariant gives a next state, which is the end or has less. -/
theorem everyCommandEnds : Obligations.EveryCommandEnds := by
  intro s hinv hhost hb
  induction hwork : workLeft s using Nat.strong_induction_on generalizing s with
  | _ n ih =>
    subst hwork
    obtain ⟨t, ht, htinv⟩ := blockStep_goesOn hinv
    have hframe := blockStep_frame ht
    have hstep : step s = .next t := (step_of_no_move hhost).trans ht
    cases htb : t.busy with
    | true =>
      have hless := blockStep_leavesLess hb t ht htb
      obtain ⟨k, u, hk, hu⟩ := ih _ hless t htinv (hframe.same.1.host.trans hhost) htb rfl
      exact ⟨k + 1, u, reaches_succ_iff.2 ⟨t, hstep, hk⟩, hu⟩
    | false =>
      refine ⟨1, t, reaches_succ_iff.2 ⟨t, hstep, rfl⟩, ((not_busy_iff t).1 htb).resolve_left fun hidle => ?_⟩
      obtain ⟨p, hrun⟩ := (busy_iff s).1 hb
      exact nomatch hrun.symm.trans (hframe.idle hidle)

end Sys2Proof.Machine
end

section
/-! PROOFS. The encoder and the decoder (R90 to R105): how an element's bit fields lie in its bytes, and that each of the two
undoes the other, in every context. -/

namespace Sys2Proof.Machine

/-! ### Headers -/

@[simp] theorem ulenOf_byte0 (h1 h2 h3 : Byte) : (ulenOf h1 h2 h3).extractLsb' 0 8 = h1 :=
  BitVec.extractLsb'_append_eq_right

@[simp] theorem ulenOf_byte1 (h1 h2 h3 : Byte) : (ulenOf h1 h2 h3).extractLsb' 8 8 = h2 := by
  rw [ulenOf, BitVec.extractLsb'_append_eq_of_le (by decide)]
  exact BitVec.extractLsb'_append_eq_right

@[simp] theorem ulenOf_byte2 (h1 h2 h3 : Byte) : (ulenOf h1 h2 h3).extractLsb' 16 8 = h3 := by
  rw [ulenOf, BitVec.extractLsb'_append_eq_of_le (by decide)]
  exact BitVec.extractLsb'_append_eq_left

/-- `ULEN` is its three bytes, lowest first (R91). -/
@[simp] theorem ulenOf_bytes (ulen : BitVec 24) :
    ulenOf (ulen.extractLsb' 0 8) (ulen.extractLsb' 8 8) (ulen.extractLsb' 16 8) = ulen := by
  rw [ulenOf, BitVec.append_assoc, BitVec.extractLsb'_append_extractLsb'_eq_extractLsb' (by decide)]
  exact BitVec.extractLsb'_append_extractLsb'

/-- A header word is its type byte, then the bytes of `ULEN` (R61, R91). -/
theorem leBytes4_header (ulen : BitVec 24) (h0 : Byte) :
    leBytes4 (ulen ++ h0) = [h0, ulen.extractLsb' 0 8, ulen.extractLsb' 8 8, ulen.extractLsb' 16 8] := by
  have hbyte (k : Nat) (hk : 8 ≤ k) : (ulen ++ h0).extractLsb' k 8 = ulen.extractLsb' (k - 8) 8 :=
    BitVec.extractLsb'_append_eq_of_le hk
  rw [leBytes4, BitVec.extractLsb'_append_eq_right, hbyte 8 (by decide), hbyte 16 (by decide), hbyte 24 (by decide)]

@[simp] theorem methodOf_append (m sub : BitVec 4) : methodOf (m ++ sub) = m := BitVec.extractLsb'_append_eq_left

@[simp] theorem subOf_append (m sub : BitVec 4) : subOf (m ++ sub) = sub := BitVec.extractLsb'_append_eq_right

/-- The type byte is its two nibbles (R91). -/
theorem methodOf_append_subOf (h0 : Byte) : methodOf h0 ++ subOf h0 = h0 := BitVec.extractLsb'_append_extractLsb'

theorem decode_encode_headerDirect (l : PalLayout) (sub : BitVec 4) (ulen : BitVec 24) (rest : List Byte) :
    decode l .headerDirect (encode l (.hdrLz sub ulen) ++ rest) = .ok (.hdrLz sub ulen, rest) := by
  simp [encode, leBytes4_header, decode, decodeHeaderDirect, Except.map]

theorem decode_encode_hdrRaw (l : PalLayout) (ulen : BitVec 24) (rest : List Byte) :
    decode l .headerWrapped (encode l (.hdrRaw ulen) ++ rest) = .ok (.hdrRaw ulen, rest) := by
  simp [encode, leBytes4_header, decode, decodeHeaderWrapped, Except.map]

theorem decode_encode_hdrLz_wrapped (l : PalLayout) (ulen : BitVec 24) (rest : List Byte) :
    decode l .headerWrapped (encode l (.hdrLz 0 ulen) ++ rest) = .ok (.hdrLz 0 ulen, rest) := by
  simp [encode, leBytes4_header, decode, decodeHeaderWrapped, Except.map]

/-- The header that `LZ_DECOMP` takes is encoded as it was read. -/
theorem encode_of_decodeHeaderDirect {l : PalLayout} {h0 h1 h2 h3 : Byte} {i : Instr}
    (h : decodeHeaderDirect h0 h1 h2 h3 = .ok i) : encode l i = [h0, h1, h2, h3] := by
  unfold decodeHeaderDirect at h
  split at h <;> cases h
  next hmethod => simp [encode, leBytes4_header, ← hmethod, methodOf_append_subOf]

/-- The header that `RD_COMP` takes is encoded as it was read. -/
theorem encode_of_decodeHeaderWrapped {l : PalLayout} {h0 h1 h2 h3 : Byte} {i : Instr}
    (h : decodeHeaderWrapped h0 h1 h2 h3 = .ok i) : encode l i = [h0, h1, h2, h3] := by
  unfold decodeHeaderWrapped at h
  split at h
  · next htype => cases h; simp [encode, leBytes4_header, htype]
  · split at h <;> cases h
    next htype => simp [encode, leBytes4_header, htype]

/-! ### Tokens and pixels -/

theorem decode_encode_ref (l : PalLayout) (ln : BitVec 4) (disp : BitVec 12) (rest : List Byte) :
    decode l .tokenRef (encode l (.ref ln disp) ++ rest) = .ok (.ref ln disp, rest) := by
  have hword : (ln ++ disp).extractLsb' 8 8 ++ (ln ++ disp).extractLsb' 0 8 = ln ++ disp :=
    BitVec.extractLsb'_append_extractLsb'
  have hln : (ln ++ disp).extractLsb' 12 4 = ln := BitVec.extractLsb'_append_eq_left
  have hdisp : (ln ++ disp).extractLsb' 0 12 = disp := BitVec.extractLsb'_append_eq_right
  simp [encode, beBytes2, decode, decodeRef, hword, hln, hdisp]

theorem encode_decodeRef (l : PalLayout) (r0 r1 : Byte) : encode l (decodeRef r0 r1) = [r0, r1] := by
  have hword : (r0 ++ r1).extractLsb' 12 4 ++ (r0 ++ r1).extractLsb' 0 12 = r0 ++ r1 :=
    BitVec.extractLsb'_append_extractLsb'
  have hr0 : (r0 ++ r1).extractLsb' 8 8 = r0 := BitVec.extractLsb'_append_eq_left
  have hr1 : (r0 ++ r1).extractLsb' 0 8 = r1 := BitVec.extractLsb'_append_eq_right
  simp [encode, beBytes2, decodeRef, hword, hr0, hr1]

theorem decode_encode_pix4 (l : PalLayout) (p0 p1 : BitVec 4) (rest : List Byte) :
    decode l .pix4 (encode l (.pix4 p0 p1) ++ rest) = .ok (.pix4 p0 p1, rest) := by
  have hp0 : (p1 ++ p0).extractLsb' 0 4 = p0 := BitVec.extractLsb'_append_eq_right
  have hp1 : (p1 ++ p0).extractLsb' 4 4 = p1 := BitVec.extractLsb'_append_eq_left
  simp [encode, decode, decodePix4, hp0, hp1]

theorem encode_decodePix4 (l : PalLayout) (y : Byte) : encode l (decodePix4 y) = [y] :=
  congrArg (fun b : Byte => [b]) BitVec.extractLsb'_append_extractLsb'

/-! ### Palette entries -/

/-- A field is read back at its own place in a word. -/
theorem extractLsb'_field {n lo : Nat} (f : BitVec n) (h : lo + n ≤ 16) : (f.setWidth 16 <<< lo).extractLsb' lo n = f := by
  ext k hk
  have hin : lo + k < 16 := by omega
  simp [hin, BitVec.getLsbD_eq_getElem hk]

/-- At a place that does not meet the field's, a word with one field holds 0. -/
theorem extractLsb'_field_apart {n lo lo' k : Nat} (f : BitVec n) (h : lo' + k ≤ lo ∨ lo + n ≤ lo') :
    (f.setWidth 16 <<< lo).extractLsb' lo' k = 0 := by
  ext j hj
  by_cases hlo : lo' + j < lo
  · simp [hlo]
  · simp [BitVec.getLsbD_of_ge f (lo' + j - lo) (by omega)]

/-- A field of a word, put back at its place: the word with all its other bits 0. -/
theorem field_eq_and_mask (v : BitVec 16) (lo n : Nat) :
    (v.extractLsb' lo n).setWidth 16 <<< lo = v &&& ((BitVec.allOnes n).setWidth 16 <<< lo) := by
  ext k hk
  by_cases hlo : k < lo
  · simp [hlo]
  · have hk' : lo + (k - lo) = k := by omega
    simp [hlo, hk', BitVec.getLsbD_eq_getElem hk, Bool.and_comm]

/-- The three colour fields lie below bit 15 and have no bit in common. -/
theorem layout_fields_apart {l : PalLayout} (h : l.wf) :
    (l.rLo ≤ 10 ∧ l.gLo ≤ 10 ∧ l.bLo ≤ 10)
      ∧ (l.rLo + 5 ≤ l.gLo ∨ l.gLo + 5 ≤ l.rLo) ∧ (l.rLo + 5 ≤ l.bLo ∨ l.bLo + 5 ≤ l.rLo)
      ∧ (l.gLo + 5 ≤ l.bLo ∨ l.bLo + 5 ≤ l.gLo) := by
  revert l
  unfold PalLayout.wf
  decide

/-- The four fields of an entry fill it. -/
theorem pal16Value_allOnes {l : PalLayout} (h : l.wf) :
    pal16Value l (BitVec.allOnes 5) (BitVec.allOnes 5) (BitVec.allOnes 5) (BitVec.allOnes 1) = BitVec.allOnes 16 := by
  revert l
  unfold PalLayout.wf
  decide

section Entry

variable {l : PalLayout} (h : l.wf)
include h

/-- Each field of an entry's value is read at its place. -/
theorem extractLsb'_pal16Value (r5 g5 b5 : BitVec 5) (x : BitVec 1) :
    (pal16Value l r5 g5 b5 x).extractLsb' l.rLo 5 = r5 ∧ (pal16Value l r5 g5 b5 x).extractLsb' l.gLo 5 = g5
      ∧ (pal16Value l r5 g5 b5 x).extractLsb' l.bLo 5 = b5 ∧ (pal16Value l r5 g5 b5 x).extractLsb' 15 1 = x := by
  obtain ⟨⟨hr, hg, hb⟩, hrg, hrb, hgb⟩ := layout_fields_apart h
  simp only [pal16Value, BitVec.extractLsb'_or]
  refine ⟨?_, ?_, ?_, ?_⟩ <;> simp (disch := omega) [extractLsb'_field, extractLsb'_field_apart]

/-- An entry's value is made of its fields. -/
theorem pal16Value_extractLsb' (v : BitVec 16) :
    pal16Value l (v.extractLsb' l.rLo 5) (v.extractLsb' l.gLo 5) (v.extractLsb' l.bLo 5) (v.extractLsb' 15 1) = v := by
  have hfill := pal16Value_allOnes h
  simp only [pal16Value] at hfill
  simp only [pal16Value, field_eq_and_mask, ← BitVec.and_or_distrib_left, hfill, BitVec.and_allOnes]

theorem decode_encode_pal16 (r5 g5 b5 : BitVec 5) (x : BitVec 1) (rest : List Byte) :
    decode l .pal16 (encode l (.pal16 r5 g5 b5 x) ++ rest) = .ok (.pal16 r5 g5 b5 x, rest) := by
  obtain ⟨hr, hg, hb, hx⟩ := extractLsb'_pal16Value h r5 g5 b5 x
  have hword (v : BitVec 16) : v.extractLsb' 8 8 ++ v.extractLsb' 0 8 = v := BitVec.extractLsb'_append_extractLsb'
  simp [encode, leBytes2, decode, decodePal16, hword, hr, hg, hb, hx]

theorem encode_decodePal16 (p0 p1 : Byte) : encode l (decodePal16 l p0 p1) = [p0, p1] := by
  have hp0 : (p1 ++ p0).extractLsb' 0 8 = p0 := BitVec.extractLsb'_append_eq_right
  have hp1 : (p1 ++ p0).extractLsb' 8 8 = p1 := BitVec.extractLsb'_append_eq_left
  simp only [decodePal16, encode, pal16Value_extractLsb' h, leBytes2, hp0, hp1]

end Entry

/-! ### The decoder and the encoder -/

/-- A command's encoding is the byte it was decoded from. -/
theorem encode_of_decodeCommand {l : PalLayout} {b : Byte} {i : Instr} (h : decodeCommand b = some i) :
    encode l i = [b] := by
  unfold decodeCommand at h
  repeat' split at h
  all_goals cases h
  all_goals next hb => rw [hb]; rfl

/-- The encoding of an instruction is as long as its context says (R90). -/
theorem encode_length {c : Ctx} {i : Instr} (l : PalLayout) (h : i.fits c = true) : (encode l i).length = c.size := by
  unfold Instr.fits at h
  split at h
  case h_17 => cases h
  all_goals rfl

/-- A header that is accepted gives its instruction and leaves the bytes after it. -/
theorem map_pair_eq_ok {e : Except Reject Instr} {i : Instr} {bytes rest : List Byte}
    (h : e.map (·, bytes) = .ok (i, rest)) : e = .ok i ∧ bytes = rest := by
  cases e with
  | error r => cases h
  | ok j => cases h; exact ⟨rfl, rfl⟩

/-- What a context decodes is the encoding of the instruction, then the rest. -/
theorem encode_of_decode {l : PalLayout} {c : Ctx} {bytes rest : List Byte} {i : Instr} (hl : l.wf)
    (h : decode l c bytes = .ok (i, rest)) : bytes = encode l i ++ rest := by
  unfold decode at h
  split at h
  case h_1 =>
    split at h <;> cases h
    next hd => rw [encode_of_decodeCommand hd]; rfl
  case h_2 =>
    obtain ⟨hd, rfl⟩ := map_pair_eq_ok h
    rw [encode_of_decodeHeaderDirect hd]; rfl
  case h_3 =>
    obtain ⟨hd, rfl⟩ := map_pair_eq_ok h
    rw [encode_of_decodeHeaderWrapped hd]; rfl
  case h_6 => cases h; rw [encode_decodeRef]; rfl
  case h_7 => cases h; rw [encode_decodePal16 hl]; rfl
  case h_8 => cases h; rw [encode_decodePix4]; rfl
  case h_11 => cases h
  all_goals cases h; rfl

/-- Settles O35, by the context and the instruction that may stand in it. -/
theorem decodingInvertsEncoding : Obligations.DecodingInvertsEncoding := by
  intro l c i rest hl hfit
  match c, i, hfit with
  | .command, .lzDecomp, _ | .command, .lzComp, _ | .command, .rdComp, _ | .command, .palDec, _
  | .command, .tileDec, _ | .command, .tileEnc, _ => rfl
  | .headerDirect, .hdrLz sub ulen, _ => exact decode_encode_headerDirect l sub ulen rest
  | .headerWrapped, .hdrRaw ulen, _ => exact decode_encode_hdrRaw l ulen rest
  | .headerWrapped, .hdrLz sub ulen, hfit =>
    obtain rfl : sub = 0 := eq_of_beq hfit
    exact decode_encode_hdrLz_wrapped l ulen rest
  | .tokenRef, .ref ln disp, _ => exact decode_encode_ref l ln disp rest
  | .pal16, .pal16 r5 g5 b5 x, _ => exact decode_encode_pal16 hl r5 g5 b5 x rest
  | .pix4, .pix4 p0 p1, _ => exact decode_encode_pix4 l p0 p1 rest
  | .flag, .flag _, _ | .tokenLit, .lit _, _ | .pix8, .pix8 _, _ | .idx, .idx _, _ => rfl

/-- Settles O36: the bytes by the case of the decoder, the length by the instruction that fits. -/
theorem encodingInvertsDecoding : Obligations.EncodingInvertsDecoding := fun l _ _ _ _ hl h =>
  ⟨encode_of_decode hl h, decode_fits h, encode_length l (decode_fits h)⟩

/-- Settles O34: the decoder, run on each of the ten words. -/
theorem tableWordsDecode : Obligations.TableWordsDecode := by
  unfold Obligations.TableWordsDecode
  decide

end Sys2Proof.Machine
end

section
/-! PROOFS. The state after reset: its registers and memories (R43), and that the block does not run before `START`. -/

namespace Sys2Proof.Machine

/-- Settles O1: the registers by number, the two empty memories, and a step that is the idle block's. -/
theorem resetClearsRegistersAndMemories : Obligations.ResetClearsRegistersAndMemories := fun c =>
  ⟨readReg_resetWith c, rfl, Memory.read_nil, Memory.read_nil,
    (step_of_no_move (s := State.resetWith c) rfl).trans (blockStep_of_not_busy rfl)⟩

end Sys2Proof.Machine
end
